-- ==== Sys2Proof/Word.lean ====
section
/-! DEFINITION. The word and byte types of the packet port and the frame buffer (00_scope.md R11), and the two
closed enumerations of the block, colours and orientations (00_scope.md R8, 10_state.md R25). -/

namespace Sys2Proof

/-- A word is 32 bits (00_scope.md R11). -/
abbrev Word := BitVec 32

/-- A byte is 8 bits (00_scope.md R11). -/
abbrev Byte := BitVec 8

/-- The two colours (00_scope.md R8 N_COLOR). Which bit value each is: 20_memory.md R53 (`Machine.colourBit`). -/
inductive Color where
  | white
  | black
  deriving DecidableEq, Repr

/-- The four orientations (00_scope.md R8 N_ORIENT, 10_state.md R25): 0°, 90°, 180°, 270°. -/
inductive Orientation where
  | deg0
  | deg90
  | deg180
  | deg270
  deriving DecidableEq, Repr

end Sys2Proof
end

