-- ==== Sys2Proof/Config.lean ====
section
/-! DEFINITION. The parameters of the block (00_scope.md R9, R10), the panel scripts (44_panel_protocol.md R222), the
well-formedness of a configuration (44_panel_protocol.md R219, 70_reset_and_hazards.md R283), and the values the
spec leaves free: the open parameters of the reset configuration and the panel's busy answers, as constants with no body. -/

namespace Sys2Proof

/-- One step of a panel script (44_panel_protocol.md R222). -/
inductive PanelStep where
  /-- One command message with this byte. -/
  | cmd (b : Byte)
  /-- One data message with this byte list, not empty in a well-formed configuration. -/
  | data (bs : List Byte)
  /-- One data message of `n` copies of `b`; `n ≥ 1` in a well-formed configuration. -/
  | dataFill (b : Byte) (n : Nat)
  /-- The busy wait (44_panel_protocol.md R218). -/
  | waitIdle
  /-- A wait of time `t`, with no event and no effect. -/
  | delay (t : Nat)
  deriving DecidableEq, Repr

/-- P_MAX_PKT_WORDS (00_scope.md R10): unbounded, or an integer of at least 8, held as what it has beyond 8. -/
inductive PktLimit where
  | unbounded
  | beyondEight (extra : Nat)
  deriving DecidableEq, Repr

/-- P_BUSY_ACTIVE_LEVEL (00_scope.md R10): the pin level that means busy. -/
inductive Level where
  | low
  | high
  deriving DecidableEq, Repr

/-- The configuration and open parameters (00_scope.md R9, R10). The three whose domain starts above zero are held
so that every value of the field is in the domain (assumption 4). -/
structure Config where
  /-- P_INIT_ORIENT. -/
  initOrient : Orientation
  /-- P_DEBUG. -/
  debug : Bool
  /-- P_INIT_FILL. -/
  initFill : Color
  /-- P_BUSY_MAX_POLLS - 1. -/
  busyPollsMinusOne : Nat
  /-- P_POLL_INTERVAL; no functional effect. -/
  pollInterval : Nat
  /-- P_INIT_SEQ. -/
  initSeq : List PanelStep
  /-- P_DISP_PRE. -/
  dispPre : List PanelStep
  /-- P_DTM_CMD. -/
  dtmCmd : Byte
  /-- P_DISP_POST. -/
  dispPost : List PanelStep
  /-- P_SLEEP_SEQ. -/
  sleepSeq : List PanelStep
  /-- P_GLYPH as a table; a byte without an entry has no glyph (assumption 5). -/
  glyphs : List (Byte × List Byte)
  /-- P_GLYPH_H - 1. -/
  glyphRowsMinusOne : Nat
  /-- P_BUSY_ACTIVE_LEVEL; no rule of the block depends on it. -/
  busyActiveLevel : Level
  /-- P_MAX_PKT_WORDS. -/
  maxPktWords : PktLimit
  deriving DecidableEq, Repr

namespace Config

/-- P_BUSY_MAX_POLLS, an integer of at least 1. -/
def busyMaxPolls (c : Config) : Nat := c.busyPollsMinusOne + 1

/-- P_GLYPH_H, an integer of at least 1. -/
def glyphH (c : Config) : Nat := c.glyphRowsMinusOne + 1

end Config

/-- The panel command bytes the well-formedness of a configuration speaks of. The source gives none of them
(91_not_in_source.md N1), so they are an argument of `Config.wf` (assumption 17): the commands that start an internal
panel operation, the refresh command, the deep-sleep command. -/
structure PanelCommands where
  internal : List Byte
  refresh : Byte
  deepSleep : Byte
  deriving DecidableEq, Repr

/-- The messages of a step have at least one byte (44_panel_protocol.md R222). -/
def PanelStep.wf : PanelStep → Bool
  | .cmd _ => true
  | .data bs => !bs.isEmpty
  | .dataFill _ n => 1 ≤ n
  | .waitIdle => true
  | .delay _ => true

/-- A wait stands after the last data of every command of `internal` and before the next command
(44_panel_protocol.md R219). `inside` says the current command is one of `internal`, `owed` that its wait is due. -/
def waitsOwed (internal : List Byte) : Bool → Bool → List PanelStep → Bool
  | _, owed, [] => !owed
  | _, owed, .cmd b :: rest => !owed && waitsOwed internal (internal.contains b) (internal.contains b) rest
  | inside, _, .data _ :: rest => waitsOwed internal inside inside rest
  | inside, _, .dataFill _ _ :: rest => waitsOwed internal inside inside rest
  | inside, _, .waitIdle :: rest => waitsOwed internal inside false rest
  | inside, owed, .delay _ :: rest => waitsOwed internal inside owed rest

/-- The last command byte of a script. `Config.wf` asks that it be the deep-sleep command in P_SLEEP_SEQ and asks nothing of
the steps after it: the model's choice among the spec's wordings (DESIGN CHOICE, assumption 19). -/
def lastCmd : List PanelStep → Option Byte
  | [] => none
  | .cmd b :: rest => match lastCmd rest with
    | some b' => some b'
    | none => some b
  | _ :: rest => lastCmd rest

/-- A well-formed configuration (44_panel_protocol.md R219, R222; 70_reset_and_hazards.md R283; 43_text_blit.md R190),
given which bytes are the panel's commands. The bounds of R10 hold of every `Config` by its fields' types. That P_SLEEP_SEQ
ends with the deep-sleep command is read as: its last command is that one (DESIGN CHOICE, assumption 19). -/
def Config.wf (cmds : PanelCommands) (c : Config) : Bool :=
  [c.initSeq, c.dispPre, c.dispPost, c.sleepSeq].all
      (fun script => script.all PanelStep.wf && waitsOwed cmds.internal false false script)
    && cmds.internal.contains cmds.refresh
    && c.dispPost.any (fun st => st == .cmd cmds.refresh)
    && lastCmd c.sleepSeq == some cmds.deepSleep
    && c.glyphs.all (fun entry => entry.2.length == c.glyphH)

/-! ### Free values

The open parameters of 00_scope.md R10 have no value in the spec. The reset configuration takes each from a constant
with no body, so no proof can rest on a value (assumption 3). -/

opaque Config.openBusyPollsMinusOne : Nat
opaque Config.openPollInterval : Nat
opaque Config.openInitSeq : List PanelStep
opaque Config.openDispPre : List PanelStep
opaque Config.openDtmCmd : Byte
opaque Config.openDispPost : List PanelStep
opaque Config.openSleepSeq : List PanelStep
opaque Config.openGlyphs : List (Byte × List Byte)
opaque Config.openGlyphRowsMinusOne : Nat
/-- `true`: the limit is unbounded. -/
opaque Config.openPktUnbounded : Bool
opaque Config.openPktExtra : Nat
/-- `true`: high. -/
opaque Config.openBusyActiveHigh : Bool

/-- The panel's answer to a busy poll for which no input is listed, by the number of the draw: a free value under no law
(44_panel_protocol.md R217, assumption 6). -/
opaque Config.freeBusy : Nat → Bool

/-- The configuration of the machine at `State.reset`: P_INIT_FILL and P_INIT_ORIENT at the spec's defaults
(92_eei_decisions.md D32), P_DEBUG at 0 (DESIGN CHOICE, assumption 2), every open parameter free (assumption 3). -/
def Config.atReset : Config where
  initOrient := .deg0
  debug := false
  initFill := .white
  busyPollsMinusOne := Config.openBusyPollsMinusOne
  pollInterval := Config.openPollInterval
  initSeq := Config.openInitSeq
  dispPre := Config.openDispPre
  dtmCmd := Config.openDtmCmd
  dispPost := Config.openDispPost
  sleepSeq := Config.openSleepSeq
  glyphs := Config.openGlyphs
  glyphRowsMinusOne := Config.openGlyphRowsMinusOne
  busyActiveLevel := if Config.openBusyActiveHigh then .high else .low
  maxPktWords := if Config.openPktUnbounded then .unbounded else .beyondEight Config.openPktExtra

end Sys2Proof
end

