-- ==== Sys2Proof/Syntax.lean ====
section
/-! DEFINITION. The abstract syntax of a decoded packet: one constructor of `Instr` per row of spec/opcode_table.json
(30_encoding.md R82), with the operands of 30_encoding.md R85. -/

namespace Sys2Proof

/-- POL of DRAW_BMP (43_text_blit.md R198): 0 (a data bit 1 is BLACK) or 1 (a data bit 0 is BLACK). -/
inductive Polarity where
  | direct
  | inverted
  deriving DecidableEq, Repr

/-- The 24 operations (30_encoding.md R82). Operand words stay words here; 30_encoding.md R84 says how each is read
(`Machine.signed`, `Machine.unsigned`). L of TEXT and LEN of DRAW_BMP are the lengths of the byte lists. -/
inductive Instr where
  /-- INIT (44_panel_protocol.md R232). -/
  | init
  /-- DISPLAY (R233). -/
  | display
  /-- CLEAR (R234). -/
  | clear
  /-- FILL_BLACK (R235). -/
  | fillBlack
  /-- SLEEP (R236). -/
  | sleep
  /-- RESET_DISPLAY (R237). -/
  | resetDisplay
  /-- GET_STATUS (R238). -/
  | getStatus
  /-- FB_FILL (40_framebuffer.md R122). -/
  | fbFill (c : Color)
  /-- FB_SETPX (R123). -/
  | fbSetpx (c : Color) (px py : Word)
  /-- FB_GETPX (R124). -/
  | fbGetpx (px py : Word)
  /-- FB_READ (R126). -/
  | fbRead (idx : Word)
  /-- SET_ORIENT (41_orientation.md R147). -/
  | setOrient (o : Orientation)
  /-- GET_DIMS (R148). -/
  | getDims (o : Orientation)
  /-- MAP (R149). -/
  | map (o : Orientation) (lx ly : Word)
  /-- UNMAP (R150). -/
  | unmap (o : Orientation) (px py : Word)
  /-- PIXEL (42_rasterizer.md R160). -/
  | pixel (c : Color) (x y : Word)
  /-- HLINE (R161). -/
  | hline (c : Color) (x y w : Word)
  /-- VLINE (R162). -/
  | vline (c : Color) (x y h : Word)
  /-- LINE (R164). -/
  | line (c : Color) (x1 y1 x2 y2 : Word)
  /-- RECT (R166). -/
  | rect (c : Color) (x y w h : Word)
  /-- FILL_RECT (R167). -/
  | fillRect (c : Color) (x y w h : Word)
  /-- CIRCLE (R169). -/
  | circle (c : Color) (x y r : Word)
  /-- TEXT (43_text_blit.md R193); `str` is the string, L its length. -/
  | text (c : Color) (x y : Word) (str : List Byte)
  /-- DRAW_BMP (R198); `bytes` are the bitmap bytes, LEN their number. -/
  | drawBmp (x y bw bh depth : Word) (pol : Polarity) (bytes : List Byte)
  deriving DecidableEq, Repr

end Sys2Proof
end

