-- ==== Sys2Proof/Decode.lean ====
section
/-! DEFINITION. Decoding a packet (30_encoding.md R81 to R91), total on any list of words and rejecting by the name of the
error; then the encoder, written from the same tables; then the decoder on a row of spec/opcode_table.json. -/

namespace Sys2Proof

/-- A packet of the host command port: its words, w0 first (30_encoding.md R80). -/
abbrev Packet := List Word

/-- The two errors of decoding (30_encoding.md R88, R91; 60_exceptions.md R257). -/
inductive DecodeError where
  | illegalCommand
  | malformedPacket
  deriving DecidableEq, Repr

/-- The assigned opcodes (30_encoding.md R82). -/
inductive Opcode where
  | init | display | clear | fillBlack | sleep | resetDisplay | getStatus
  | fbFill | fbSetpx | fbGetpx | fbRead
  | setOrient | getDims | map | unmap
  | pixel | hline | vline | line | rect | fillRect | circle
  | text | drawBmp
  deriving DecidableEq, Repr

/-- The OP value of each opcode (30_encoding.md R82). -/
def Opcode.byte : Opcode → Byte
  | .init => 0x01
  | .display => 0x02
  | .clear => 0x03
  | .fillBlack => 0x04
  | .sleep => 0x05
  | .resetDisplay => 0x06
  | .getStatus => 0x07
  | .fbFill => 0x10
  | .fbSetpx => 0x11
  | .fbGetpx => 0x12
  | .fbRead => 0x13
  | .setOrient => 0x20
  | .getDims => 0x21
  | .map => 0x22
  | .unmap => 0x23
  | .pixel => 0x30
  | .hline => 0x31
  | .vline => 0x32
  | .line => 0x33
  | .rect => 0x34
  | .fillRect => 0x35
  | .circle => 0x36
  | .text => 0x37
  | .drawBmp => 0x38

/-- Every assigned opcode, in the order of 30_encoding.md R82. -/
def Opcode.all : List Opcode :=
  [.init, .display, .clear, .fillBlack, .sleep, .resetDisplay, .getStatus,
    .fbFill, .fbSetpx, .fbGetpx, .fbRead, .setOrient, .getDims, .map, .unmap,
    .pixel, .hline, .vline, .line, .rect, .fillRect, .circle, .text, .drawBmp]

/-- The opcode an OP value names, none where it is unassigned (30_encoding.md R82, R89). -/
def Opcode.ofByte (b : Byte) : Option Opcode := Opcode.all.find? fun op => op.byte = b

/-- The three forms of the modifier (30_encoding.md R83). -/
inductive ModForm where
  /-- C: MOD[0] is a colour. -/
  | colour
  /-- O: MOD[1:0] is an orientation. -/
  | orient
  /-- Z: no modifier. -/
  | zero
  deriving DecidableEq, Repr

/-- The form of each opcode (30_encoding.md R82). -/
def Opcode.form : Opcode → ModForm
  | .init => .zero
  | .display => .zero
  | .clear => .zero
  | .fillBlack => .zero
  | .sleep => .zero
  | .resetDisplay => .zero
  | .getStatus => .zero
  | .fbFill => .colour
  | .fbSetpx => .colour
  | .fbGetpx => .zero
  | .fbRead => .zero
  | .setOrient => .orient
  | .getDims => .orient
  | .map => .orient
  | .unmap => .orient
  | .pixel => .colour
  | .hline => .colour
  | .vline => .colour
  | .line => .colour
  | .rect => .colour
  | .fillRect => .colour
  | .circle => .colour
  | .text => .colour
  | .drawBmp => .zero

/-! ### Fields of the command word (30_encoding.md R81) -/

def opField (w0 : Word) : Byte := w0.extractLsb' 24 8

def rsvField (w0 : Word) : BitVec 16 := w0.extractLsb' 8 16

def modField (w0 : Word) : Byte := w0.extractLsb' 0 8

/-- A bit of MOD that 30_encoding.md R83 says must be 0 is set. -/
def ModForm.reservedSet (form : ModForm) (m : Byte) : Bool :=
  match form with
  | .colour => m.extractLsb' 1 7 != 0
  | .orient => m.extractLsb' 2 6 != 0
  | .zero => m != 0

/-- The colour in MOD[0]: 0 is WHITE, 1 is BLACK (30_encoding.md R83). -/
def colourOfMod (m : Byte) : Color := if m.getLsbD 0 then .black else .white

/-- The orientation of an index (10_state.md R25). -/
def Orientation.ofIndex (k : BitVec 2) : Orientation :=
  if k = 0 then .deg0 else if k = 1 then .deg90 else if k = 2 then .deg180 else .deg270

/-- The orientation in MOD[1:0] (30_encoding.md R83). -/
def orientOfMod (m : Byte) : Orientation := Orientation.ofIndex (m.extractLsb' 0 2)

/-- POL, 0 or 1; a larger value is malformed (30_encoding.md R88). -/
def polarityOf (w : Word) : Option Polarity :=
  if w = 0 then some .direct else if w = 1 then some .inverted else none

/-! ### Lengths and byte areas -/

/-- ceil(n/4): the words of a byte area of n bytes (30_encoding.md R86). -/
def areaWords (n : Nat) : Nat := (n + 3) / 4

/-- The number of words the packet must have, given its operand words; none where it is too short to hold the length
word (30_encoding.md R82, R86). -/
def Opcode.length (op : Opcode) (ops : List Word) : Option Nat :=
  match op with
  | .init => some 1
  | .display => some 1
  | .clear => some 1
  | .fillBlack => some 1
  | .sleep => some 1
  | .resetDisplay => some 1
  | .getStatus => some 1
  | .fbFill => some 1
  | .fbSetpx => some 3
  | .fbGetpx => some 3
  | .fbRead => some 2
  | .setOrient => some 1
  | .getDims => some 1
  | .map => some 3
  | .unmap => some 3
  | .pixel => some 3
  | .hline => some 4
  | .vline => some 4
  | .line => some 5
  | .rect => some 5
  | .fillRect => some 5
  | .circle => some 4
  | .text => ops[2]?.map fun len => 4 + areaWords len.toNat
  | .drawBmp => ops[6]?.map fun len => 8 + areaWords len.toNat

/-- Byte `k` of a byte area (30_encoding.md R87; 20_memory.md R55). -/
def byteAt (area : List Word) (k : Nat) : Byte := (area.getD (k / 4) 0).extractLsb' (8 * (k % 4)) 8

/-- Bytes 0 to `n - 1` of a byte area; its padding is not read (30_encoding.md R87). -/
def bytesOfArea (n : Nat) (area : List Word) : List Byte := (List.range n).map (byteAt area)

/-- A packet longer than P_MAX_PKT_WORDS (30_encoding.md R88). The limit is at least 8 (00_scope.md R10), so a packet of
up to 8 words is never too long, whatever the limit. -/
def PktLimit.exceededBy (limit : PktLimit) (n : Nat) : Bool :=
  decide (8 < n) && match limit with
    | .unbounded => false
    | .beyondEight extra => decide (8 + extra < n)

/-- The operands of a packet whose length is right, read as 30_encoding.md R85 lays them out; a POL above 1 is malformed
(R88). None where the words do not have the shape, which the length test has ruled out. -/
def operands (op : Opcode) (m : Byte) (ops : List Word) : Option Instr :=
  match op, ops with
  | .init, [] => some .init
  | .display, [] => some .display
  | .clear, [] => some .clear
  | .fillBlack, [] => some .fillBlack
  | .sleep, [] => some .sleep
  | .resetDisplay, [] => some .resetDisplay
  | .getStatus, [] => some .getStatus
  | .fbFill, [] => some (.fbFill (colourOfMod m))
  | .fbSetpx, [px, py] => some (.fbSetpx (colourOfMod m) px py)
  | .fbGetpx, [px, py] => some (.fbGetpx px py)
  | .fbRead, [idx] => some (.fbRead idx)
  | .setOrient, [] => some (.setOrient (orientOfMod m))
  | .getDims, [] => some (.getDims (orientOfMod m))
  | .map, [lx, ly] => some (.map (orientOfMod m) lx ly)
  | .unmap, [px, py] => some (.unmap (orientOfMod m) px py)
  | .pixel, [x, y] => some (.pixel (colourOfMod m) x y)
  | .hline, [x, y, w] => some (.hline (colourOfMod m) x y w)
  | .vline, [x, y, h] => some (.vline (colourOfMod m) x y h)
  | .line, [x1, y1, x2, y2] => some (.line (colourOfMod m) x1 y1 x2 y2)
  | .rect, [x, y, w, h] => some (.rect (colourOfMod m) x y w h)
  | .fillRect, [x, y, w, h] => some (.fillRect (colourOfMod m) x y w h)
  | .circle, [x, y, r] => some (.circle (colourOfMod m) x y r)
  | .text, x :: y :: len :: area => some (.text (colourOfMod m) x y (bytesOfArea len.toNat area))
  | .drawBmp, x :: y :: bw :: bh :: depth :: pol :: len :: area =>
      (polarityOf pol).map fun p => .drawBmp x y bw bh depth p (bytesOfArea len.toNat area)
  | _, _ => none

/-- Decoding, each test only if the ones before passed (30_encoding.md R91). It depends on the packet's words and the
port's limit alone (R90). -/
def decode (limit : PktLimit) (pkt : Packet) : Except DecodeError Instr :=
  match pkt with
  | [] => .error .malformedPacket
  | w0 :: ops =>
    if limit.exceededBy (ops.length + 1) then .error .malformedPacket
    else match Opcode.ofByte (opField w0) with
      | none => .error .illegalCommand
      | some op =>
        if rsvField w0 ≠ 0 then .error .malformedPacket
        else if op.form.reservedSet (modField w0) then .error .malformedPacket
        else if op.length ops ≠ some (ops.length + 1) then .error .malformedPacket
        else match operands op (modField w0) ops with
          | none => .error .malformedPacket
          | some i => .ok i

/-! ### The encoder -/

/-- The command word {OP, RSV = 0, MOD} (30_encoding.md R81). -/
def commandWord (op : Opcode) (m : Byte) : Word := op.byte ++ (0 : BitVec 16) ++ m

/-- MOD of form C (30_encoding.md R83). -/
def modOfColour : Color → Byte
  | .white => 0
  | .black => 1

/-- The index of an orientation (10_state.md R25). -/
def Orientation.index : Orientation → BitVec 2
  | .deg0 => 0
  | .deg90 => 1
  | .deg180 => 2
  | .deg270 => 3

/-- MOD of form O (30_encoding.md R83). -/
def modOfOrient (o : Orientation) : Byte := (0 : BitVec 6) ++ o.index

/-- POL (43_text_blit.md R198). -/
def Polarity.word : Polarity → Word
  | .direct => 0
  | .inverted => 1

/-- Four bytes in a word, the first in the low bits (20_memory.md R55). -/
def packWord (b0 b1 b2 b3 : Byte) : Word := b3 ++ b2 ++ b1 ++ b0

/-- A byte area, padding 0 (30_encoding.md R87, R106). -/
def packBytes : List Byte → List Word
  | [] => []
  | [b0] => [packWord b0 0 0 0]
  | [b0, b1] => [packWord b0 b1 0 0]
  | [b0, b1, b2] => [packWord b0 b1 b2 0]
  | b0 :: b1 :: b2 :: b3 :: rest => packWord b0 b1 b2 b3 :: packBytes rest

/-- The packet of an instruction (30_encoding.md R81 to R87). -/
def encode : Instr → Packet
  | .init => [commandWord .init 0]
  | .display => [commandWord .display 0]
  | .clear => [commandWord .clear 0]
  | .fillBlack => [commandWord .fillBlack 0]
  | .sleep => [commandWord .sleep 0]
  | .resetDisplay => [commandWord .resetDisplay 0]
  | .getStatus => [commandWord .getStatus 0]
  | .fbFill c => [commandWord .fbFill (modOfColour c)]
  | .fbSetpx c px py => [commandWord .fbSetpx (modOfColour c), px, py]
  | .fbGetpx px py => [commandWord .fbGetpx 0, px, py]
  | .fbRead idx => [commandWord .fbRead 0, idx]
  | .setOrient o => [commandWord .setOrient (modOfOrient o)]
  | .getDims o => [commandWord .getDims (modOfOrient o)]
  | .map o lx ly => [commandWord .map (modOfOrient o), lx, ly]
  | .unmap o px py => [commandWord .unmap (modOfOrient o), px, py]
  | .pixel c x y => [commandWord .pixel (modOfColour c), x, y]
  | .hline c x y w => [commandWord .hline (modOfColour c), x, y, w]
  | .vline c x y h => [commandWord .vline (modOfColour c), x, y, h]
  | .line c x1 y1 x2 y2 => [commandWord .line (modOfColour c), x1, y1, x2, y2]
  | .rect c x y w h => [commandWord .rect (modOfColour c), x, y, w, h]
  | .fillRect c x y w h => [commandWord .fillRect (modOfColour c), x, y, w, h]
  | .circle c x y r => [commandWord .circle (modOfColour c), x, y, r]
  | .text c x y str =>
      commandWord .text (modOfColour c) :: x :: y :: BitVec.ofNat 32 str.length :: packBytes str
  | .drawBmp x y bw bh depth pol bytes =>
      commandWord .drawBmp 0 :: x :: y :: bw :: bh :: depth :: pol.word ::
        BitVec.ofNat 32 bytes.length :: packBytes bytes

/-! ### The decoder on a row of the opcode table -/

/-- The first `n` 32-bit words of the bits `w`, bit 0 the least significant bit of the first word. -/
def tableWords (w n : Nat) : List Word := (List.range n).map fun k => BitVec.ofNat 32 (w >>> (32 * k))

/-- The packet whose bits are `w` (those from `nbits` up are 0): as many words as 30_encoding.md R86 gives its opcode and
length word, one for an unassigned opcode, and at least as many as `nbits` has (assumption 11). -/
def tablePacket (nbits w : Nat) : Packet :=
  let bits := w % 2 ^ nbits
  let own := match tableWords bits 8 with
    | [] => 1
    | w0 :: ops => match Opcode.ofByte (opField w0) with
      | none => 1
      | some op => (op.length ops).getD 1
  tableWords bits (max own ((nbits + 31) / 32))

/-- The instruction the decoder reads from the bits of an opcode-table row, at the reset configuration's packet limit. -/
def decodeTableWord (nbits w : Nat) : Option Instr :=
  match decode Config.atReset.maxPktWords (tablePacket nbits w) with
  | .ok i => some i
  | .error _ => none

end Sys2Proof
end

