-- ==== Sys2Proof/Machine/State.lean ====
section
/-! DEFINITION. The state of the block (10_state.md R20), as plain data; its value after reset
(70_reset_and_hazards.md R280); the reasons a step can stop. -/

namespace Sys2Proof.Machine

/-- PSTATE (10_state.md R26). -/
inductive PState where
  | uninitialized
  | awake
  /-- Transient inside one packet (44_panel_protocol.md R231). -/
  | busy
  | asleep
  deriving DecidableEq, Repr

/-- An event of the panel trace (44_panel_protocol.md R211). -/
inductive PanelEvent where
  | reset
  | cmd (b : Byte)
  | data (bs : List Byte)
  | poll (busy : Bool)
  deriving DecidableEq, Repr

/-- A response packet: the status word, then the result words (30_encoding.md R100). -/
structure Response where
  status : Word
  results : List Word
  deriving DecidableEq, Repr

/-- The frame buffer's bytes by index, in canonical form: indices strictly rising, no entry equal to what an unlisted
index reads as (`Memory.unlisted`, assumption 10). -/
abbrev Memory := List Host.Cell

/-- What an index with no entry reads as: 0x00, the reset contents under the default P_INIT_FILL = WHITE
(70_reset_and_hazards.md R280, 92_eei_decisions.md D32). -/
def Memory.unlisted : Byte := 0

/-- FB_BYTES (00_scope.md R8). -/
def fbBytes : Nat := 5808

/-- The state. -/
structure State where
  /-- The parameters of 00_scope.md R9 and R10; no step writes them (assumption 1). -/
  cfg : Config
  /-- FB (10_state.md R24). -/
  fb : Memory
  /-- ORIENT (10_state.md R25). -/
  orient : Orientation
  /-- PSTATE (10_state.md R26). -/
  pstate : PState
  /-- DEBUG (10_state.md R27). -/
  debug : Bool
  /-- The packets not yet taken, the next one first (10_state.md R22). -/
  packets : List Packet
  /-- RS, oldest first (10_state.md R29). -/
  responses : List Response
  /-- PT, oldest first (10_state.md R30). -/
  trace : List PanelEvent
  /-- MODEL's own: the panel's busy answers given as inputs, the next one first (assumption 6). -/
  busyIn : List Bool
  /-- MODEL's own: the number of free busy answers drawn so far (assumption 6). -/
  draws : Nat
  deriving DecidableEq, Repr

/-- The reasons a step stops with a fault. -/
inductive Fault where
  /-- Raised by the gate (`gated`) for a gated operation in a state with PSTATE = Busy, a case 30_encoding.md R104 has no
  column for and 44_panel_protocol.md R231 says never occurs (assumption 9). Safe: the machine stops, and no run from
  reset reaches it. -/
  | gatedWhileBusy
  deriving DecidableEq, Repr

/-- The reasons a step refuses. -/
inductive Refusal where
  /-- Raised only by an arm of `exec` for an instruction without a meaning. No arm raises it now. Safe. -/
  | notModelled (mnemonic : String)
  deriving DecidableEq, Repr

/-- What a meaning answers. -/
abbrev Result := Host.Outcome State Fault Refusal

/-- The state after reset, for a configuration (70_reset_and_hazards.md R280). -/
def State.resetWith (cfg : Config) : State where
  cfg := cfg
  fb := match cfg.initFill with
    | .white => []
    | .black => (List.range fbBytes).map fun i => (i, 0xFF)
  orient := cfg.initOrient
  pstate := .uninitialized
  debug := cfg.debug
  packets := []
  responses := []
  trace := []
  busyIn := []
  draws := 0

/-- The state after reset at the default configuration (assumption 2). -/
def State.reset : State := State.resetWith Config.atReset

end Sys2Proof.Machine
end

