-- ==== Sys2Proof/Machine/Flags.lean ====
section
/-! DEFINITION. The block has no flags (10_state.md R23): an operation's outcome is its response status word. This file holds
the status codes (60_exceptions.md R250), the status word (30_encoding.md R100) and the register fields of GET_STATUS
(44_panel_protocol.md R238). -/

namespace Sys2Proof.Machine

/-- The errors a packet can report (60_exceptions.md R250). -/
inductive Error where
  | notInitialized
  | displayAsleep
  | hardwareTimeout
  | unsupportedFormat
  | illegalCommand
  | malformedPacket
  deriving DecidableEq, Repr

/-- The status code of an error (60_exceptions.md R250). -/
def Error.code : Error → Byte
  | .notInitialized => 1
  | .displayAsleep => 2
  | .hardwareTimeout => 3
  | .unsupportedFormat => 4
  | .illegalCommand => 5
  | .malformedPacket => 6

/-- The status code of a completed operation (60_exceptions.md R250). -/
def okCode : Byte := 0

/-- The status word: the code in bits 7 to 0, zero above (30_encoding.md R100). -/
def statusWord (code : Byte) : Word := (0 : BitVec 24) ++ code

/-- The error a decoding error reports (60_exceptions.md R257). -/
def errorOfDecode : DecodeError → Error
  | .illegalCommand => .illegalCommand
  | .malformedPacket => .malformedPacket

/-- The value of PSTATE (10_state.md R26). -/
def PState.value : PState → BitVec 2
  | .uninitialized => 0
  | .awake => 1
  | .busy => 2
  | .asleep => 3

/-- The result word of GET_STATUS: {27'b0, DEBUG, ORIENT, PSTATE} (44_panel_protocol.md R238). -/
def registerWord (debug : Bool) (o : Orientation) (p : PState) : Word :=
  (0 : BitVec 27) ++ BitVec.ofBool debug ++ o.index ++ p.value

end Sys2Proof.Machine
end

