-- ==== Sys2Proof/Machine/Operands.lean ====
section
/-! DEFINITION. How operand words are read (30_encoding.md R84), how an integer becomes a result word (30_encoding.md R101),
and the colour values (20_memory.md R53). Modifiers and byte areas are read by the decoder. -/

namespace Sys2Proof.Machine

/-- `s`: a signed operand, `sext_32` of the word (30_encoding.md R84). -/
def signed (w : Word) : Int := w.toInt

/-- `u`: an unsigned operand, `u32` of the word (30_encoding.md R84). -/
def unsigned (w : Word) : Nat := w.toNat

/-- `lo32`: the low 32 bits of an exact integer, two's complement for a negative one (00_scope.md R11,
30_encoding.md R101). -/
def lo32 (v : Int) : Word := BitVec.ofInt 32 v

/-- The pixel bit of a colour: 0 is WHITE, 1 is BLACK (20_memory.md R53). -/
def colourBit : Color → Bool
  | .white => false
  | .black => true

/-- The colour of a pixel bit (20_memory.md R53). -/
def colourOfBit (b : Bool) : Color := if b then .black else .white

/-- A colour as a result word (30_encoding.md R101). -/
def colourWord (c : Color) : Word := if colourBit c then 1 else 0

/-- A byte as a result word, `zext_32` (30_encoding.md R101). -/
def byteWord (b : Byte) : Word := b.zeroExtend 32

/-- ceil(n/8): the bytes of a bitmap row of n pixels (43_text_blit.md R196). -/
def rowBytes (n : Nat) : Nat := (n + 7) / 8

/-- POL as a bit (43_text_blit.md R198). -/
def polarityBit : Polarity → Bool
  | .direct => false
  | .inverted => true

end Sys2Proof.Machine
end

