-- ==== Sys2Proof/Machine/Ops.lean ====
section
/-! DEFINITION. The named operations every meaning is built from: the frame buffer as memory (20_memory.md), the physical
pixel (40_framebuffer.md R120, R121), the orientation transform and Plot (41_orientation.md R140 to R144), responses and
errors (30_encoding.md R100, 60_exceptions.md R255), the gate (30_encoding.md R104), and the panel port
(44_panel_protocol.md R211 to R224). -/

namespace Sys2Proof.Machine

/-! ### Bytes and the frame buffer -/

/-- A byte with one bit replaced, the other seven unchanged (20_memory.md R57). -/
def setBit (v : Byte) (b : Nat) (on : Bool) : Byte :=
  if on then v ||| (1#8 <<< b) else v &&& ~~~(1#8 <<< b)

/-- Byte `a` of the memory. -/
def Memory.read : Memory → Nat → Byte
  | [], _ => Memory.unlisted
  | (k, v) :: m, a => if a = k then v else if a < k then Memory.unlisted else Memory.read m a

/-- The entry for byte `a` put in front, unless it equals what an unlisted index reads as. -/
def Memory.entry (a : Nat) (v : Byte) (m : Memory) : Memory :=
  if v = Memory.unlisted then m else (a, v) :: m

/-- The memory with byte `a` written, in canonical form. -/
def Memory.write : Memory → Nat → Byte → Memory
  | [], a, v => Memory.entry a v []
  | (k, w) :: m, a, v =>
    if a < k then Memory.entry a v ((k, w) :: m)
    else if a = k then Memory.entry a v m
    else (k, w) :: Memory.write m a v

/-- Every frame-buffer byte set to `v` at once (40_framebuffer.md R122, 20_memory.md R57). -/
def Memory.fill (v : Byte) : Memory :=
  if v = Memory.unlisted then [] else (List.range fbBytes).map fun i => (i, v)

/-- The form of memory every operation keeps: indices strictly rising, inside FB, no entry equal to what an unlisted index
reads as. -/
abbrev Memory.wf (m : Memory) : Prop :=
  m.Pairwise (fun x y => x.1 < y.1) ∧ (∀ e ∈ m, e.1 < fbBytes) ∧ ∀ e ∈ m, e.2 ≠ Memory.unlisted

/-- FB[0], FB[1], ..., FB[5807]: the frame buffer in transmission order (20_memory.md R54). -/
def rawBytes (fb : Memory) : List Byte := (List.range fbBytes).map fb.read

/-! ### Physical pixels (20_memory.md R51, 40_framebuffer.md R120, R121) -/

/-- A point of the integer plane, logical or physical. -/
structure Point where
  x : Int
  y : Int
  deriving DecidableEq, Repr

/-- Inside the panel: 0 ≤ px < 176 and 0 ≤ py < 264 (00_scope.md R8). -/
abbrev onPanel (p : Point) : Prop := 0 ≤ p.x ∧ p.x < 176 ∧ 0 ≤ p.y ∧ p.y < 264

/-- ByteIndex(px, py) = py * 22 + px // 8, for a point on the panel (20_memory.md R51). -/
def byteIndex (p : Point) : Nat := p.y.toNat * 22 + p.x.toNat / 8

/-- BitPos(px) = 7 - px % 8, for a point on the panel (20_memory.md R51). -/
def bitPos (p : Point) : Nat := 7 - p.x.toNat % 8

/-- GetPhys (40_framebuffer.md R120): WHITE off the panel. -/
def getPhys (fb : Memory) (p : Point) : Color :=
  if onPanel p then colourOfBit ((fb.read (byteIndex p)).getLsbD (bitPos p)) else .white

/-- SetPhys (40_framebuffer.md R121): a write off the panel is discarded (90_conflicts.md C3). -/
def setPhys (fb : Memory) (p : Point) (c : Color) : Memory :=
  if onPanel p then
    fb.write (byteIndex p) (setBit (fb.read (byteIndex p)) (bitPos p) (colourBit c))
  else fb

/-! ### The orientation transform (41_orientation.md) -/

/-- LogicalDims (41_orientation.md R140). -/
def logicalDims : Orientation → Int × Int
  | .deg0 => (176, 264)
  | .deg90 => (264, 176)
  | .deg180 => (176, 264)
  | .deg270 => (264, 176)

/-- ToPhys (41_orientation.md R141). -/
def toPhys (o : Orientation) (p : Point) : Point :=
  match o with
  | .deg0 => ⟨p.x, p.y⟩
  | .deg90 => ⟨175 - p.y, p.x⟩
  | .deg180 => ⟨175 - p.x, 263 - p.y⟩
  | .deg270 => ⟨p.y, 263 - p.x⟩

/-- ToLogical (41_orientation.md R142). -/
def toLogical (o : Orientation) (p : Point) : Point :=
  match o with
  | .deg0 => ⟨p.x, p.y⟩
  | .deg90 => ⟨p.y, 175 - p.x⟩
  | .deg180 => ⟨175 - p.x, 263 - p.y⟩
  | .deg270 => ⟨263 - p.y, p.x⟩

/-- Plot (41_orientation.md R144), on the frame buffer. -/
def plot (o : Orientation) (fb : Memory) (p : Point) (c : Color) : Memory := setPhys fb (toPhys o p) c

/-- The Plot calls of one packet in order, each point with its colour; ORIENT does not change inside a packet. -/
def plotAll (o : Orientation) (fb : Memory) (pts : List (Point × Color)) : Memory :=
  pts.foldl (fun m pc => plot o m pc.1 pc.2) fb

/-- The state after the Plot calls of a packet, all of colour `c`. -/
def drawPoints (c : Color) (pts : List Point) (s : State) : State :=
  { s with fb := plotAll s.orient s.fb (pts.map fun p => (p, c)) }

/-! ### Responses and errors -/

/-- Respond(code, results): the response appended to RS (30_encoding.md R100). -/
def respond (code : Byte) (results : List Word) (s : State) : State :=
  { s with responses := s.responses ++ [⟨statusWord code, results⟩] }

/-- Respond(OK, results) as the end of a meaning. -/
def finish (results : List Word) (s : State) : Result := .next (respond okCode results s)

/-- `raise E`: the packet ends with the error response and nothing else (60_exceptions.md R255). There is no trap entry and
no return: the block takes the next packet (R261, R262). -/
def raise (e : Error) (s : State) : State := respond e.code [] s

/-- Gate(OP) of a gated operation, before anything else it does (30_encoding.md R104; 60_exceptions.md R251, R252). -/
def gated (s : State) (perform : State → Result) : Result :=
  match s.pstate with
  | .uninitialized => .next (raise .notInitialized s)
  | .awake => perform s
  | .busy => .fault .gatedWhileBusy
  | .asleep => .next (raise .displayAsleep s)

/-! ### The panel port (44_panel_protocol.md) -/

/-- Emit(ev) (44_panel_protocol.md R211). -/
def emit (ev : PanelEvent) (s : State) : State := { s with trace := s.trace ++ [ev] }

/-- The panel's answer to the next poll: the next input, or a free value where none is listed (R217, assumption 6). -/
def nextAnswer (s : State) : Bool :=
  match s.busyIn with
  | b :: _ => b
  | [] => Config.freeBusy s.draws

/-- The state with the next answer taken. -/
def takeAnswer (s : State) : State :=
  match s.busyIn with
  | _ :: rest => { s with busyIn := rest }
  | [] => { s with draws := s.draws + 1 }

/-- PollBusy: one poll, its answer recorded in PT (R217). The answer is `nextAnswer s`. -/
def pollBusy (s : State) : State := emit (.poll (nextAnswer s)) (takeAnswer s)

/-- How a piece of a panel sequence ends: done, or left by HardwareTimeout. -/
inductive Progress where
  | done (s : State)
  | timedOut (s : State)
  deriving DecidableEq, Repr

/-- The next piece of a panel sequence, not performed after a timeout (60_exceptions.md R255, R258). -/
def Progress.andThen (p : Progress) (k : State → Progress) : Progress :=
  match p with
  | .done s => k s
  | .timedOut s => .timedOut s

/-- The busy wait with `polls` polls left (44_panel_protocol.md R218). -/
def waitPolls : Nat → State → Progress
  | 0, s => .timedOut s
  | polls + 1, s => if nextAnswer s then waitPolls polls (pollBusy s) else .done (pollBusy s)

/-- WaitIdle (44_panel_protocol.md R218). -/
def waitIdle (s : State) : Progress := waitPolls s.cfg.busyMaxPolls s

/-- One step of a script (44_panel_protocol.md R223). -/
def runStep (st : PanelStep) (s : State) : Progress :=
  match st with
  | .cmd b => .done (emit (.cmd b) s)
  | .data bs => .done (emit (.data bs) s)
  | .dataFill b n => .done (emit (.data (List.replicate n b)) s)
  | .waitIdle => waitIdle s
  | .delay _ => .done s

/-- RunScript (44_panel_protocol.md R223). -/
def runScript : List PanelStep → State → Progress
  | [], s => .done s
  | st :: rest, s => (runStep st s).andThen (runScript rest)

/-- FrameTransfer (44_panel_protocol.md R224). -/
def frameTransfer (s : State) : State := emit (.data (rawBytes s.fb)) (emit (.cmd s.cfg.dtmCmd) s)

/-- The end of a panel operation: on success PSTATE becomes `final` and the response is OK; on HardwareTimeout PSTATE
becomes Uninitialized and the response is its error (44_panel_protocol.md R230, 60_exceptions.md R258). -/
def closeSequence (final : PState) (p : Progress) : State :=
  match p with
  | .done s => respond okCode [] { s with pstate := final }
  | .timedOut s => raise .hardwareTimeout { s with pstate := .uninitialized }

/-- PSTATE <- Busy, at the start of a panel sequence (44_panel_protocol.md R230). -/
def enterBusy (s : State) : State := { s with pstate := .busy }

/-- Every byte of FB set to the colour's byte (40_framebuffer.md R122). -/
def fillFB (c : Color) (s : State) : State :=
  { s with fb := Memory.fill (if colourBit c then 0xFF else 0x00) }

end Sys2Proof.Machine
end

