-- ==== Sys2Proof/Machine/Blit.lean ====
section
/-! DEFINITION. Text and bitmap blit (43_text_blit.md R190 to R198). -/

namespace Sys2Proof.Machine

/-- P_GLYPH: the glyph of a character byte, or none (43_text_blit.md R190, assumption 5). -/
def glyphOf (cfg : Config) (ch : Byte) : Option (List Byte) := cfg.glyphs.lookup ch

/-- GlyphBit(g, r, col) = g[r][7 - col] (43_text_blit.md R192). A glyph has a byte for every row of the loop that reads it
(R190); a row the table leaves out reads as background (assumption 18). -/
def glyphBit (g : List Byte) (r col : Nat) : Bool := (g.getD r 0).getLsbD (7 - col)

/-- The ink points of one glyph whose cell starts at (x, y): rows top to bottom, columns left to right
(43_text_blit.md R193). -/
def glyphPoints (rows : Nat) (g : List Byte) (x y : Int) : List Point :=
  (List.range rows).flatMap fun (r : Nat) =>
    ((List.range 8).filter fun (col : Nat) => glyphBit g r col).map fun (col : Nat) => ⟨x + col, y + r⟩

/-- The points of TEXT: cell k starts at x + 8k; an unsupported character plots nothing (43_text_blit.md R193). -/
def textPoints (cfg : Config) (x y : Int) (str : List Byte) : List Point :=
  str.zipIdx.flatMap fun ck =>
    match glyphOf cfg ck.1 with
    | none => []
    | some g => glyphPoints cfg.glyphH g (x + 8 * ck.2) y

/-- TEXT (43_text_blit.md R193). -/
def execText (c : Color) (x y : Word) (str : List Byte) (s : State) : Result :=
  gated s fun s => finish [] (drawPoints c (textPoints s.cfg (signed x) (signed y) str) s)

/-- Validate(DRAW_BMP) passes: DEPTH is 1 and there are enough bytes, by the exact product (43_text_blit.md R197). -/
def bmpValid (bw bh depth : Nat) (bytes : List Byte) : Bool :=
  depth == 1 && decide (rowBytes bw * bh ≤ bytes.length)

/-- The colour of bitmap pixel (i, j): bit 7 - i % 8 of byte j * RowBytes + i // 8, exclusive-or POL
(43_text_blit.md R198). After Validate the byte is one of `bytes`. -/
def bmpColour (bw : Nat) (pol : Polarity) (bytes : List Byte) (i j : Nat) : Color :=
  colourOfBit (((bytes.getD (j * rowBytes bw + i / 8) 0).getLsbD (7 - i % 8)).xor (polarityBit pol))

/-- The Plot calls of DRAW_BMP: rows top to bottom, columns left to right (43_text_blit.md R198). -/
def bmpPoints (x y : Int) (bw bh : Nat) (pol : Polarity) (bytes : List Byte) : List (Point × Color) :=
  (List.range bh).flatMap fun (j : Nat) =>
    (List.range bw).map fun (i : Nat) => ((⟨x + i, y + j⟩ : Point), bmpColour bw pol bytes i j)

/-- DRAW_BMP: the gate, then validation, then the blit (43_text_blit.md R197, R198; 30_encoding.md R92). -/
def execDrawBmp (x y bw bh depth : Word) (pol : Polarity) (bytes : List Byte) (s : State) : Result :=
  gated s fun s =>
    if bmpValid (unsigned bw) (unsigned bh) (unsigned depth) bytes then
      finish [] { s with
        fb := plotAll s.orient s.fb
          (bmpPoints (signed x) (signed y) (unsigned bw) (unsigned bh) pol bytes) }
    else .next (raise .unsupportedFormat s)

end Sys2Proof.Machine
end

