-- ==== Sys2Proof/Machine/FrameBuffer.lean ====
section
/-! DEFINITION. The frame buffer's instructions (40_framebuffer.md R122, R123, R124, R126). -/

namespace Sys2Proof.Machine

/-- FB_FILL (40_framebuffer.md R122). -/
def execFbFill (c : Color) (s : State) : Result := gated s fun s => finish [] (fillFB c s)

/-- FB_SETPX: a physical pixel, without the transform (40_framebuffer.md R123). -/
def execFbSetpx (c : Color) (px py : Word) (s : State) : Result :=
  gated s fun s => finish [] { s with fb := setPhys s.fb ⟨signed px, signed py⟩ c }

/-- FB_GETPX (40_framebuffer.md R124); never gated. -/
def execFbGetpx (px py : Word) (s : State) : Result :=
  finish [colourWord (getPhys s.fb ⟨signed px, signed py⟩)] s

/-- FB_READ: 0x00 beyond the buffer (40_framebuffer.md R126); never gated. -/
def execFbRead (idx : Word) (s : State) : Result :=
  finish [byteWord (if unsigned idx < fbBytes then s.fb.read (unsigned idx) else 0x00)] s

end Sys2Proof.Machine
end

