-- ==== Sys2Proof/Machine/Orient.lean ====
section
/-! DEFINITION. The orientation instructions (41_orientation.md R147 to R150). -/

namespace Sys2Proof.Machine

/-- SET_ORIENT (41_orientation.md R147). -/
def execSetOrient (o : Orientation) (s : State) : Result :=
  gated s fun s => finish [] { s with orient := o }

/-- GET_DIMS (41_orientation.md R148); never gated. -/
def execGetDims (o : Orientation) (s : State) : Result :=
  finish [lo32 (logicalDims o).1, lo32 (logicalDims o).2] s

/-- MAP (41_orientation.md R149); never gated. -/
def execMap (o : Orientation) (lx ly : Word) (s : State) : Result :=
  finish [lo32 (toPhys o ⟨signed lx, signed ly⟩).x, lo32 (toPhys o ⟨signed lx, signed ly⟩).y] s

/-- UNMAP (41_orientation.md R150); never gated. -/
def execUnmap (o : Orientation) (px py : Word) (s : State) : Result :=
  finish [lo32 (toLogical o ⟨signed px, signed py⟩).x, lo32 (toLogical o ⟨signed px, signed py⟩).y] s

end Sys2Proof.Machine
end

