-- ==== Sys2Proof/Machine/Panel.lean ====
section
/-! DEFINITION. The display controller's instructions (44_panel_protocol.md R232 to R238). -/

namespace Sys2Proof.Machine

/-- InitBody (44_panel_protocol.md R232). -/
def initBody (s : State) : Progress := runScript s.cfg.initSeq (emit .reset (enterBusy s))

/-- DisplayBody (44_panel_protocol.md R233). -/
def displayBody (s : State) : Progress :=
  ((runScript s.cfg.dispPre (enterBusy s)).andThen fun s => .done (frameTransfer s)).andThen
    fun s => runScript s.cfg.dispPost s

/-- INIT (44_panel_protocol.md R232); never refused by the gate (30_encoding.md R104, 90_conflicts.md C1). -/
def execInit (s : State) : Result := .next (closeSequence .awake (initBody s))

/-- DISPLAY (44_panel_protocol.md R233). -/
def execDisplay (s : State) : Result := gated s fun s => .next (closeSequence .awake (displayBody s))

/-- CLEAR: the fill, then the display; the fill is kept on a timeout (44_panel_protocol.md R234). -/
def execClear (s : State) : Result :=
  gated s fun s => .next (closeSequence .awake (displayBody (fillFB .white s)))

/-- FILL_BLACK (44_panel_protocol.md R235). -/
def execFillBlack (s : State) : Result :=
  gated s fun s => .next (closeSequence .awake (displayBody (fillFB .black s)))

/-- SLEEP (44_panel_protocol.md R236). -/
def execSleep (s : State) : Result :=
  gated s fun s => .next (closeSequence .asleep (runScript s.cfg.sleepSeq (enterBusy s)))

/-- RESET_DISPLAY: a reset pulse of its own, then the replayed init with its pulse (44_panel_protocol.md R237); never
refused by the gate (30_encoding.md R104, 90_conflicts.md C12). -/
def execResetDisplay (s : State) : Result :=
  .next (closeSequence .awake (initBody (emit .reset (enterBusy s))))

/-- GET_STATUS (44_panel_protocol.md R238). -/
def execGetStatus (s : State) : Result := finish [registerWord s.debug s.orient s.pstate] s

end Sys2Proof.Machine
end

