-- ==== Sys2Proof/Machine/Raster.lean ====
section
/-! DEFINITION. The rasterizer's instructions (42_rasterizer.md R160 to R169). Each is the ordered list of the points its
pseudocode plots, then the Plot calls. All arithmetic is on integers (00_scope.md R12). -/

namespace Sys2Proof.Machine

/-- HLine(x, y, w): w points going right, none for w ≤ 0 (42_rasterizer.md R161). -/
def hlinePoints (x y w : Int) : List Point := (List.range w.toNat).map fun (i : Nat) => ⟨x + i, y⟩

/-- VLine(x, y, h): h points going down, none for h ≤ 0 (42_rasterizer.md R162). -/
def vlinePoints (x y h : Int) : List Point := (List.range h.toNat).map fun (j : Nat) => ⟨x, y + j⟩

/-- The loop of Line along the major axis, `n` points left: each as (major, minor) (42_rasterizer.md R164). -/
def bresenham (dMajor dMinor step : Int) : Nat → Int → Int → Int → List (Int × Int)
  | 0, _, _, _ => []
  | n + 1, major, minor, err =>
    (major, minor) ::
      if err + 2 * dMinor ≥ 0 then
        bresenham dMajor dMinor step n (major + 1) (minor + step) (err + 2 * dMinor - 2 * dMajor)
      else bresenham dMajor dMinor step n (major + 1) minor (err + 2 * dMinor)

/-- The points of a run along the major axis, from the first (lower) end to the second (42_rasterizer.md R164). -/
def majorRun (major1 minor1 major2 minor2 : Int) : List (Int × Int) :=
  bresenham (major2 - major1).natAbs (minor2 - minor1).natAbs (minor2 - minor1).sign
    ((major2 - major1).natAbs + 1) major1 minor1 (-(major2 - major1).natAbs)

/-- Line (42_rasterizer.md R164): the ends ordered along the major axis first. -/
def linePoints (x1 y1 x2 y2 : Int) : List Point :=
  if (x2 - x1).natAbs ≥ (y2 - y1).natAbs then
    (if x1 > x2 then majorRun x2 y2 x1 y1 else majorRun x1 y1 x2 y2).map fun q => ⟨q.1, q.2⟩
  else
    (if y1 > y2 then majorRun y2 x2 y1 x1 else majorRun y1 x1 y2 x2).map fun q => ⟨q.2, q.1⟩

/-- RECT: the four edges (42_rasterizer.md R166). -/
def rectPoints (x y w h : Int) : List Point :=
  if w ≥ 0 ∧ h ≥ 0 then
    hlinePoints x y (w + 1) ++ hlinePoints x (y + h) (w + 1) ++
      vlinePoints x y (h + 1) ++ vlinePoints (x + w) y (h + 1)
  else []

/-- FILL_RECT: rows top to bottom (42_rasterizer.md R167). -/
def fillRectPoints (x y w h : Int) : List Point :=
  if w ≥ 0 ∧ h ≥ 0 then
    (List.range (h.toNat + 1)).flatMap fun (j : Nat) => hlinePoints x (y + j) (w + 1)
  else []

/-- The eight symmetric points of a step of CIRCLE (42_rasterizer.md R169). -/
def octants (x y px py : Int) : List Point :=
  [⟨x + px, y + py⟩, ⟨x + py, y + px⟩, ⟨x - py, y + px⟩, ⟨x - px, y + py⟩,
    ⟨x - px, y - py⟩, ⟨x - py, y - px⟩, ⟨x + py, y - px⟩, ⟨x + px, y - py⟩]

/-- The steps (px, py) of CIRCLE's loop, at most `fuel` of them (42_rasterizer.md R169). -/
def circleSteps : Nat → Int → Int → Int → List (Int × Int)
  | 0, _, _, _ => []
  | fuel + 1, px, py, d =>
    if px ≥ py then
      (px, py) ::
        if d < 0 then circleSteps fuel px (py + 1) (d + 2 * (py + 1) + 1)
        else circleSteps fuel (px - 1) (py + 1) (d + 2 * ((py + 1) - (px - 1)) + 1)
    else []

/-- CIRCLE (42_rasterizer.md R169). py grows by 1 a step and px never grows, so the loop has at most r + 1 steps. -/
def circlePoints (x y r : Int) : List Point :=
  if r ≥ 0 then
    (circleSteps (r.toNat + 1) r 0 (1 - r)).flatMap fun q => octants x y q.1 q.2
  else []

/-- PIXEL (42_rasterizer.md R160). -/
def execPixel (c : Color) (x y : Word) (s : State) : Result :=
  gated s fun s => finish [] (drawPoints c [⟨signed x, signed y⟩] s)

/-- HLINE (42_rasterizer.md R161). -/
def execHline (c : Color) (x y w : Word) (s : State) : Result :=
  gated s fun s => finish [] (drawPoints c (hlinePoints (signed x) (signed y) (signed w)) s)

/-- VLINE (42_rasterizer.md R162). -/
def execVline (c : Color) (x y h : Word) (s : State) : Result :=
  gated s fun s => finish [] (drawPoints c (vlinePoints (signed x) (signed y) (signed h)) s)

/-- LINE (42_rasterizer.md R164). -/
def execLine (c : Color) (x1 y1 x2 y2 : Word) (s : State) : Result :=
  gated s fun s =>
    finish [] (drawPoints c (linePoints (signed x1) (signed y1) (signed x2) (signed y2)) s)

/-- RECT (42_rasterizer.md R166). -/
def execRect (c : Color) (x y w h : Word) (s : State) : Result :=
  gated s fun s =>
    finish [] (drawPoints c (rectPoints (signed x) (signed y) (signed w) (signed h)) s)

/-- FILL_RECT (42_rasterizer.md R167). -/
def execFillRect (c : Color) (x y w h : Word) (s : State) : Result :=
  gated s fun s =>
    finish [] (drawPoints c (fillRectPoints (signed x) (signed y) (signed w) (signed h)) s)

/-- CIRCLE (42_rasterizer.md R169). -/
def execCircle (c : Color) (x y r : Word) (s : State) : Result :=
  gated s fun s => finish [] (drawPoints c (circlePoints (signed x) (signed y) (signed r)) s)

end Sys2Proof.Machine
end

