-- ==== Sys2Proof/Machine/Dispatch.lean ====
section
/-! DEFINITION. One arm per instruction: the meaning it calls. -/

namespace Sys2Proof.Machine

/-- The execution of a decoded packet: gate, validation, effect, response (30_encoding.md R92). -/
def exec (i : Instr) (s : State) : Host.Outcome State Fault Refusal :=
  match i with
  | .init => Sys2Proof.Machine.execInit s
  | .display => Sys2Proof.Machine.execDisplay s
  | .clear => Sys2Proof.Machine.execClear s
  | .fillBlack => Sys2Proof.Machine.execFillBlack s
  | .sleep => Sys2Proof.Machine.execSleep s
  | .resetDisplay => Sys2Proof.Machine.execResetDisplay s
  | .getStatus => Sys2Proof.Machine.execGetStatus s
  | .fbFill c => Sys2Proof.Machine.execFbFill c s
  | .fbSetpx c px py => Sys2Proof.Machine.execFbSetpx c px py s
  | .fbGetpx px py => Sys2Proof.Machine.execFbGetpx px py s
  | .fbRead idx => Sys2Proof.Machine.execFbRead idx s
  | .setOrient o => Sys2Proof.Machine.execSetOrient o s
  | .getDims o => Sys2Proof.Machine.execGetDims o s
  | .map o lx ly => Sys2Proof.Machine.execMap o lx ly s
  | .unmap o px py => Sys2Proof.Machine.execUnmap o px py s
  | .pixel c x y => Sys2Proof.Machine.execPixel c x y s
  | .hline c x y w => Sys2Proof.Machine.execHline c x y w s
  | .vline c x y h => Sys2Proof.Machine.execVline c x y h s
  | .line c x1 y1 x2 y2 => Sys2Proof.Machine.execLine c x1 y1 x2 y2 s
  | .rect c x y w h => Sys2Proof.Machine.execRect c x y w h s
  | .fillRect c x y w h => Sys2Proof.Machine.execFillRect c x y w h s
  | .circle c x y r => Sys2Proof.Machine.execCircle c x y r s
  | .text c x y str => Sys2Proof.Machine.execText c x y str s
  | .drawBmp x y bw bh depth pol bytes => Sys2Proof.Machine.execDrawBmp x y bw bh depth pol bytes s

end Sys2Proof.Machine
end

