-- ==== Sys2Proof/Machine/Fetch.lean ====
section
/-! DEFINITION. Taking the next packet from the stream (10_state.md R22), and the response to one that does not decode
(60_exceptions.md R257). -/

namespace Sys2Proof.Machine

/-- What taking the head of the packet stream gives: nothing to take, an instruction, or a decoding error; with the state
after the packet is taken. -/
inductive Fetched where
  | idle
  | instr (i : Instr) (s : State)
  | undecodable (e : DecodeError) (s : State)
  deriving DecidableEq, Repr

/-- The packet at the head of the stream taken and decoded (10_state.md R22, 30_encoding.md R91). -/
def fetch (s : State) : Fetched :=
  match s.packets with
  | [] => .idle
  | pkt :: rest =>
    match decode s.cfg.maxPktWords pkt with
    | .ok i => .instr i { s with packets := rest }
    | .error e => .undecodable e { s with packets := rest }

/-- The host has sent this packet next, before those it sent already. -/
def sendFirst (pkt : Packet) (s : State) : State := { s with packets := pkt :: s.packets }

end Sys2Proof.Machine
end

