-- ==== Sys2Proof/Machine/Step.lean ====
section
/-! DEFINITION. One step of the block: one packet, taken and executed to completion (10_state.md R22, R31). -/

namespace Sys2Proof.Machine

/-- One step (30_encoding.md R92). With no packet in the stream the block waits and nothing changes (assumption 8). -/
def step (s : State) : Host.Outcome State Fault Refusal :=
  match fetch s with
  | .idle => .next s
  | .instr i s' => exec i s'
  | .undecodable e s' => .next (raise (errorOfDecode e) s')

/-- `s` with the packet whose bits are `w` as the next packet of the stream (assumption 11). -/
def State.withFetchWord (s : State) (nbits w : Nat) : State := sendFirst (tablePacket nbits w) s

end Sys2Proof.Machine
end

