-- ==== Sys2Proof/Machine/Observe.lean ====
section
/-! DEFINITION. The image the panel shows, as an observation of the block's steps (44_panel_protocol.md R240): an assumption
about the panel, not a rule of the block and no state of it (assumption 14). -/

namespace Sys2Proof.Machine

/-- The operations that transfer and refresh a frame (44_panel_protocol.md R240). -/
def isDisplayClass : Instr → Bool
  | .display => true
  | .clear => true
  | .fillBlack => true
  | _ => false

/-- The status word of the last response. -/
def lastStatus (s : State) : Option Word := s.responses.getLast?.map Response.status

/-- Where PT holds the data message of the frame transfer of a display operation performed from `s`: after the events of
P_DISP_PRE and the command P_DTM_CMD (44_panel_protocol.md R224, R233). None if P_DISP_PRE times out. -/
def frameAt (s : State) : Option Nat :=
  match runScript s.cfg.dispPre (enterBusy s) with
  | .done u => some (u.trace.length + 1)
  | .timedOut _ => none

/-- The bytes of the data message at a place of a trace's events, if there is one. -/
def dataAt (events : List PanelEvent) (k : Nat) : Option (List Byte) :=
  match events[k]? with
  | some (.data bs) => some bs
  | _ => none

/-- The bytes the panel shows after one step from `s`, given those it showed before: those of the data message that the
frame transfer of a DISPLAY, CLEAR or FILL_BLACK that ended with OK put into PT (44_panel_protocol.md R240). -/
def shownAfter (shown : Option (List Byte)) (s : State) : Option (List Byte) :=
  match fetch s, step s with
  | .instr i s', .next t =>
    if isDisplayClass i && lastStatus t == some (statusWord okCode) then
      match (frameAt s').bind (dataAt t.trace) with
      | some bytes => some bytes
      | none => shown
    else shown
  | _, _ => shown

/-- The colour the shown bytes give physical pixel `p`, decoded by 20_memory.md R51 and R53. -/
def shownPixel (bytes : List Byte) (p : Point) : Color :=
  if onPanel p then colourOfBit ((bytes.getD (byteIndex p) 0).getLsbD (bitPos p)) else .white

end Sys2Proof.Machine
end

