-- ==== Sys2Proof/Machine/Transport.lean ====
section
/-! DEFINITION. The panel trace as the transport sees it: the calls of each event (44_panel_protocol.md R210, R213, R214) and
the busy pin's level (R216). A view of the trace; the block never reads it back (10_state.md R30). -/

namespace Sys2Proof.Machine

/-- A call of the transport port (44_panel_protocol.md R210). -/
inductive TransportCall where
  /-- `set_dc(level)`; `true` is high, a data message. -/
  | setDc (level : Bool)
  | assertCs
  | deassertCs
  | write (bs : List Byte)
  | pulseReset
  /-- `read_busy()` and its answer. -/
  | readBusy (answer : Bool)
  deriving DecidableEq, Repr

/-- P_CHUNK (00_scope.md R8). -/
def chunkBytes : Nat := 64

/-- The pieces of a data message: ceil(N/64), each of 64 bytes but the last (44_panel_protocol.md R213). -/
def chunks (bs : List Byte) : List (List Byte) :=
  (List.range ((bs.length + (chunkBytes - 1)) / chunkBytes)).map fun k =>
    (bs.drop (chunkBytes * k)).take chunkBytes

/-- The transport calls of one event (44_panel_protocol.md R214). -/
def PanelEvent.calls : PanelEvent → List TransportCall
  | .reset => [.pulseReset]
  | .cmd b => [.setDc false, .assertCs, .write [b], .deassertCs]
  | .data bs => [.setDc true, .assertCs] ++ (chunks bs).map .write ++ [.deassertCs]
  | .poll busy => [.readBusy busy]

/-- The transport calls of a trace. -/
def transportCalls (trace : List PanelEvent) : List TransportCall := trace.flatMap PanelEvent.calls

/-- `read_busy()` from the pin's level and P_BUSY_ACTIVE_LEVEL: true means busy (44_panel_protocol.md R216). -/
def busyOfPin (active pin : Level) : Bool := pin == active

end Sys2Proof.Machine
end

