-- ==== Sys2Proof/WellFormed.lean ====
section
/-! DEFINITION. Which terms of `Instr` some packet of the port stands for: the byte counts fit their 32-bit length
words (30_encoding.md R84, R86), and the packet fits P_MAX_PKT_WORDS (30_encoding.md R88). Every other operand is a whole
word or a closed enumeration, so its type already admits exactly the values the encoding has. -/

namespace Sys2Proof

/-- The number of words of the instruction's packet (30_encoding.md R82, R86). -/
def Instr.packetWords : Instr → Nat
  | .init => 1
  | .display => 1
  | .clear => 1
  | .fillBlack => 1
  | .sleep => 1
  | .resetDisplay => 1
  | .getStatus => 1
  | .fbFill _ => 1
  | .fbSetpx _ _ _ => 3
  | .fbGetpx _ _ => 3
  | .fbRead _ => 2
  | .setOrient _ => 1
  | .getDims _ => 1
  | .map _ _ _ => 3
  | .unmap _ _ _ => 3
  | .pixel _ _ _ => 3
  | .hline _ _ _ _ => 4
  | .vline _ _ _ _ => 4
  | .line _ _ _ _ _ => 5
  | .rect _ _ _ _ _ => 5
  | .fillRect _ _ _ _ _ => 5
  | .circle _ _ _ _ => 4
  | .text _ _ _ str => 4 + (str.length + 3) / 4
  | .drawBmp _ _ _ _ _ _ bytes => 8 + (bytes.length + 3) / 4

/-- The byte count of the variable-length forms fits its length word (30_encoding.md R84, R86). -/
def Instr.countFits : Instr → Bool
  | .text _ _ _ str => str.length < 2 ^ 32
  | .drawBmp _ _ _ _ _ _ bytes => bytes.length < 2 ^ 32
  | _ => true

/-- The port takes a packet of `n` words (00_scope.md R10 P_MAX_PKT_WORDS). -/
def PktLimit.admits (limit : PktLimit) (n : Nat) : Bool :=
  match limit with
  | .unbounded => true
  | .beyondEight extra => n ≤ 8 + extra

/-- Well-formed for a port of this limit. -/
def Instr.wf (limit : PktLimit) (i : Instr) : Bool :=
  i.countFits && limit.admits i.packetWords

end Sys2Proof
end

