-- ==== Sys2Proof/Safety.lean ====
section
/-! DEFINITION. The notions claims are stated in: classes of instructions (30_encoding.md R82, R104; 20_memory.md R65), what a
drawing operation paints, the panel's answers and a script's events (44_panel_protocol.md R217, R218, R223), what a panel
operation does, and the invariant of the machine. -/

namespace Sys2Proof.Machine

/-! ### Classes of instructions -/

/-- The operations the gate may refuse (30_encoding.md R104). -/
def isGated : Instr → Bool
  | .init => false
  | .display => true
  | .clear => true
  | .fillBlack => true
  | .sleep => true
  | .resetDisplay => false
  | .getStatus => false
  | .fbFill _ => true
  | .fbSetpx _ _ _ => true
  | .fbGetpx _ _ => false
  | .fbRead _ => false
  | .setOrient _ => true
  | .getDims _ => false
  | .map _ _ _ => false
  | .unmap _ _ _ => false
  | .pixel _ _ _ => true
  | .hline _ _ _ _ => true
  | .vline _ _ _ _ => true
  | .line _ _ _ _ _ => true
  | .rect _ _ _ _ _ => true
  | .fillRect _ _ _ _ _ => true
  | .circle _ _ _ _ => true
  | .text _ _ _ _ => true
  | .drawBmp _ _ _ _ _ _ _ => true

/-- The operations that may write FB (20_memory.md R65). -/
def mayWriteFB : Instr → Bool
  | .init => false
  | .display => false
  | .clear => true
  | .fillBlack => true
  | .sleep => false
  | .resetDisplay => false
  | .getStatus => false
  | .fbFill _ => true
  | .fbSetpx _ _ _ => true
  | .fbGetpx _ _ => false
  | .fbRead _ => false
  | .setOrient _ => false
  | .getDims _ => false
  | .map _ _ _ => false
  | .unmap _ _ _ => false
  | .pixel _ _ _ => true
  | .hline _ _ _ _ => true
  | .vline _ _ _ _ => true
  | .line _ _ _ _ _ => true
  | .rect _ _ _ _ _ => true
  | .fillRect _ _ _ _ _ => true
  | .circle _ _ _ _ => true
  | .text _ _ _ _ => true
  | .drawBmp _ _ _ _ _ _ _ => true

/-- PSTATE after a panel operation that succeeds, none for the operations that run no panel sequence
(44_panel_protocol.md R230). -/
def panelFinal : Instr → Option PState
  | .init => some .awake
  | .display => some .awake
  | .clear => some .awake
  | .fillBlack => some .awake
  | .sleep => some .asleep
  | .resetDisplay => some .awake
  | _ => none

/-- The number of result words of an OK response (30_encoding.md R82). -/
def resultWords : Instr → Nat
  | .getStatus => 1
  | .fbGetpx _ _ => 1
  | .fbRead _ => 1
  | .getDims _ => 2
  | .map _ _ _ => 2
  | .unmap _ _ _ => 2
  | _ => 0

/-- How a gated operation's result depends on PSTATE (30_encoding.md R104; 60_exceptions.md R251, R252): NotInitialized and
DisplayAsleep with nothing changed but the response, and in Awake what `run` says. -/
def RunsWhenAwake (s : State) (r : Result) (run : Result → Prop) : Prop :=
  (s.pstate = .uninitialized → r = .next { s with responses := s.responses ++ [⟨1, []⟩] }) ∧
  (s.pstate = .asleep → r = .next { s with responses := s.responses ++ [⟨2, []⟩] }) ∧
  (s.pstate = .awake → run r)

/-- A result with its next state changed by `f`; a stop stays as it is. -/
def onNext (f : State → State) : Result → Result
  | .next t => .next (f t)
  | .fault e => .fault e
  | .refused e => .refused e

/-- The bytes of an instruction's packet before the padding of its byte area (30_encoding.md R86, R87). -/
def payloadBytes : Instr → Nat
  | .text _ _ _ str => 16 + str.length
  | .drawBmp _ _ _ _ _ _ bytes => 32 + bytes.length
  | i => 4 * i.packetWords

/-! ### Drawing -/

/-- Inside the logical rectangle of an orientation (41_orientation.md R143, R145). -/
def inCanvas (o : Orientation) (lx ly : Int) : Prop :=
  0 ≤ lx ∧ lx < (logicalDims o).1 ∧ 0 ≤ ly ∧ ly < (logicalDims o).2

/-- The colour of a logical point. -/
def logicalPixel (o : Orientation) (fb : Memory) (lx ly : Int) : Color := getPhys fb (toPhys o ⟨lx, ly⟩)

/-- The byte of FB that holds a logical point. -/
def byteOfLogical (o : Orientation) (lx ly : Int) : Nat := byteIndex (toPhys o ⟨lx, ly⟩)

/-- From `s` to `t`, exactly the points of `ink` inside the canvas are painted, each with its colour: every other point of
the canvas keeps its colour, every byte of FB that holds no painted point keeps its value, and of the rest of the state
only the response stream changes, by one OK response. -/
def Paints (s t : State) (ink : Int → Int → Color → Prop) : Prop :=
  (∀ lx ly, inCanvas s.orient lx ly →
    (∀ c, ink lx ly c → logicalPixel s.orient t.fb lx ly = c) ∧
    ((∀ c, ¬ ink lx ly c) → logicalPixel s.orient t.fb lx ly = logicalPixel s.orient s.fb lx ly)) ∧
  (∀ a, (∀ lx ly c, inCanvas s.orient lx ly → ink lx ly c → byteOfLogical s.orient lx ly ≠ a) →
    t.fb.read a = s.fb.read a) ∧
  t = { s with fb := t.fb, responses := s.responses ++ [⟨0, []⟩] }

/-- The points of Line by the closed form of 42_rasterizer.md R165: the ends ordered along the major axis, and each minor
coordinate the exact line's value rounded to nearest, halves away from the first end. -/
def lineShape (x1 y1 x2 y2 lx ly : Int) : Prop :=
  if |x2 - x1| ≥ |y2 - y1| then
    if x1 ≤ x2 then onMajorRun x1 y1 x2 y2 lx ly else onMajorRun x2 y2 x1 y1 lx ly
  else
    if y1 ≤ y2 then onMajorRun y1 x1 y2 x2 ly lx else onMajorRun y2 x2 y1 x1 ly lx
where
  /-- The point (major, minor) is point `i` of the run from the first end to the second. -/
  onMajorRun (major1 minor1 major2 minor2 major minor : Int) : Prop :=
    ∃ i : Int, 0 ≤ i ∧ i ≤ major2 - major1 ∧ major = major1 + i ∧
      minor = minor1 + (minor2 - minor1).sign *
        ((2 * i * |minor2 - minor1| + (major2 - major1)) / (2 * (major2 - major1)))

/-- The points of CIRCLE: none for r < 0, the centre for r = 0, and for r > 0 those whose greater and lesser distances
`u ≥ v` from the centre's axes have `u` the integer nearest the circle, that is u² - u + v² < r² ≤ u² + u + v². Derived
from the loop of 42_rasterizer.md R169, whose decision variable is u² - u + (v + 1)² - r². -/
def circleShape (x y r lx ly : Int) : Prop :=
  (r = 0 ∧ lx = x ∧ ly = y) ∨
    (0 < r ∧
      (max |lx - x| |ly - y|) ^ 2 - max |lx - x| |ly - y| + (min |lx - x| |ly - y|) ^ 2 < r ^ 2 ∧
      r ^ 2 ≤ (max |lx - x| |ly - y|) ^ 2 + max |lx - x| |ly - y| + (min |lx - x| |ly - y|) ^ 2)

/-- The state with one more response and nothing else changed. -/
def answered (s : State) (status : Word) (results : List Word) : State :=
  { s with responses := s.responses ++ [⟨status, results⟩] }

/-! ### The panel's answers and a script's events -/

/-- The panel's answer to the `k`-th poll from now, counting from 0. -/
def answerAt (s : State) (k : Nat) : Bool :=
  if k < s.busyIn.length then s.busyIn.getD k false else Config.freeBusy (s.draws + (k - s.busyIn.length))

/-- The panel's answers to the next `n` polls. -/
def nextAnswers (n : Nat) (s : State) : List Bool := (List.range n).map (answerAt s)

/-- The state after `n` answers have been taken and the events `evs` have been added to the trace. -/
def afterPolls (n : Nat) (evs : List PanelEvent) (s : State) : State :=
  { s with busyIn := s.busyIn.drop n, draws := s.draws + (n - s.busyIn.length), trace := s.trace ++ evs }

/-- The state after a panel operation that took `n` answers, added the events `evs`, left the frame buffer `fb` and PSTATE
`p`, and gave a response of this status without result words. -/
def afterOperation (n : Nat) (evs : List PanelEvent) (fb : Memory) (p : PState) (status : Word) (s : State) : State :=
  { s with
    busyIn := s.busyIn.drop n, draws := s.draws + (n - s.busyIn.length), trace := s.trace ++ evs,
    fb := fb, pstate := p, responses := s.responses ++ [⟨status, []⟩] }

/-- The answers of waits that each end: the `i`-th wait is answered busy `ks[i]` times, then idle. -/
def idlePattern (ks : List Nat) : List Bool := ks.flatMap fun k => List.replicate k true ++ [false]

/-- The number of waits of a script. -/
def waitCount : List PanelStep → Nat
  | [] => 0
  | .waitIdle :: rest => waitCount rest + 1
  | _ :: rest => waitCount rest

/-- The events of a script whose `i`-th wait is answered busy `ks[i]` times and then idle (44_panel_protocol.md R223). -/
def scriptEvents : List PanelStep → List Nat → List PanelEvent
  | [], _ => []
  | .cmd b :: rest, ks => .cmd b :: scriptEvents rest ks
  | .data bs :: rest, ks => .data bs :: scriptEvents rest ks
  | .dataFill b n :: rest, ks => .data (List.replicate n b) :: scriptEvents rest ks
  | .delay _ :: rest, ks => scriptEvents rest ks
  | .waitIdle :: rest, k :: ks =>
    List.replicate k (.poll true) ++ .poll false :: scriptEvents rest ks
  | .waitIdle :: rest, [] => scriptEvents rest []

/-- What an operation does that runs a panel script from `s` after the events `lead` and with the frame buffer `fb`:
if every wait is answered idle in time, the script's events, PSTATE = `final` and an OK response; if some wait is answered
busy at every poll, the events up to and including that wait's polls, PSTATE = Uninitialized and a HardwareTimeout
response; nothing else changes but the answers taken (44_panel_protocol.md R218, R223, R230; 60_exceptions.md R258). -/
def RunsPanelScript (s : State) (r : Result) (lead : List PanelEvent) (fb : Memory) (script : List PanelStep)
    (final : PState) : Prop :=
  (∀ ks : List Nat, ks.length = waitCount script → (∀ k ∈ ks, k < s.cfg.busyMaxPolls) →
    nextAnswers (idlePattern ks).length s = idlePattern ks →
    r = .next (afterOperation (idlePattern ks).length (lead ++ scriptEvents script ks) fb final 0 s)) ∧
  (∀ (before after : List PanelStep) (ks : List Nat), script = before ++ .waitIdle :: after →
    ks.length = waitCount before → (∀ k ∈ ks, k < s.cfg.busyMaxPolls) →
    nextAnswers ((idlePattern ks).length + s.cfg.busyMaxPolls) s =
      idlePattern ks ++ List.replicate s.cfg.busyMaxPolls true →
    r = .next (afterOperation ((idlePattern ks).length + s.cfg.busyMaxPolls)
      (lead ++ scriptEvents before ks ++ List.replicate s.cfg.busyMaxPolls (.poll true))
      fb .uninitialized 3 s))

/-! ### The invariant -/

/-- A response has the form of 30_encoding.md R100 and a code of 60_exceptions.md R250. -/
def Response.wf (r : Response) : Bool :=
  decide (r.status.toNat ≤ 6) && (r.status == 0 || r.results.isEmpty) && decide (r.results.length ≤ 2)

/-- The invariant of the machine: FB is in canonical form and inside its 5,808 bytes (20_memory.md R52), PSTATE is not Busy
between packets (44_panel_protocol.md R231), DEBUG holds P_DEBUG (10_state.md R27), every response has its form. -/
structure Inv (s : State) : Prop where
  memory : Memory.wf s.fb
  notBusy : s.pstate ≠ .busy
  debugConst : s.debug = s.cfg.debug
  responsesWf : ∀ r ∈ s.responses, Response.wf r = true

end Sys2Proof.Machine
end

