-- ==== Sys2Proof/Certificates/Slice0/Obligations.lean ====
section
/-! DEFINITION. The statements about the model, for the provers. Each docstring names the rules of spec/ it formalises. The
packets of the per-instruction statements are written out from 30_encoding.md R81 to R87. -/

section ObligationStatements

open Sys2Proof Sys2Proof.Machine

/-! ### Packets: encoding, decoding, the step -/

/-- Words written out from 30_encoding.md R81 to R87 and spec/95_test_vectors.md decode to the instructions they stand for. -/
def Obligations.SpecWordsDecode : Prop :=
  decode .unbounded [0x01000000] = .ok .init ∧
  decode .unbounded [0x07000000] = .ok .getStatus ∧
  decode .unbounded [0x11000001, 0xFFFFFFFF, 0x00000000] = .ok (.fbSetpx .black 0xFFFFFFFF 0) ∧
  decode .unbounded [0x13000000, 0x00000016] = .ok (.fbRead 22) ∧
  decode .unbounded [0x22000001, 0x00000002, 0x00000000] = .ok (.map .deg90 2 0) ∧
  decode .unbounded [0x33000001, 0x00000000, 0x00000000, 0x00000007, 0x00000002] = .ok (.line .black 0 0 7 2) ∧
  decode .unbounded [0x37000001, 0x00000000, 0x00000000, 0x00000003, 0x00413F41] =
    .ok (.text .black 0 0 [0x41, 0x3F, 0x41]) ∧
  decode .unbounded [0x38000000, 0x00000000, 0x00000008, 0x00000004, 0x00000002, 0x00000001, 0x00000001, 0x00000002,
    0x0000A050] = .ok (.drawBmp 0 8 4 2 1 .inverted [0x50, 0xA0])

/-- Decoding the packet of a well-formed instruction gives the instruction back, every operand at every value
(30_encoding.md R81 to R87). -/
def Obligations.DecodeOfEncode : Prop :=
  ∀ (limit : PktLimit) (i : Instr), i.wf limit = true → decode limit (encode i) = .ok i

/-- The packets that decode to an instruction are exactly those of its length whose bytes before the padding are the
encoder's: padding bytes may hold any value (30_encoding.md R87), nothing else may differ. -/
def Obligations.DecodesExactlyItsPackets : Prop :=
  ∀ (limit : PktLimit) (pkt : Packet) (i : Instr), decode limit pkt = .ok i ↔
    i.wf limit = true ∧ pkt.length = i.packetWords ∧ ∀ k < payloadBytes i, byteAt pkt k = byteAt (encode i) k

/-- 30_encoding.md R89: the unassigned OP values, and what a packet with one of them does. The packet is one the port takes:
a longer one is refused before its opcode is looked at (30_encoding.md R91, 60_exceptions.md R260). -/
def Obligations.UnassignedOpcodesAreIllegal : Prop :=
  (∀ b : Byte, Opcode.ofByte b = none ↔
    (b.toNat = 0x00 ∨ (0x08 ≤ b.toNat ∧ b.toNat ≤ 0x0F) ∨ (0x14 ≤ b.toNat ∧ b.toNat ≤ 0x1F) ∨
      (0x24 ≤ b.toNat ∧ b.toNat ≤ 0x2F) ∨ (0x39 ≤ b.toNat ∧ b.toNat ≤ 0xFF))) ∧
  ∀ (s : State) (w0 : Word) (ops : List Word) (rest : List Packet), s.packets = (w0 :: ops) :: rest →
    s.cfg.maxPktWords.admits (ops.length + 1) = true → Opcode.ofByte (w0.extractLsb' 24 8) = none →
    step s = .next { s with packets := rest, responses := s.responses ++ [⟨5, []⟩] }

/-- 30_encoding.md R91: exactly when decoding raises each of its two errors. -/
def Obligations.DecodeErrorsExactly : Prop :=
  ∀ (limit : PktLimit) (pkt : Packet),
    (decode limit pkt = .error .illegalCommand ↔
      ∃ w0 ops, pkt = w0 :: ops ∧ limit.admits pkt.length = true ∧ Opcode.ofByte (w0.extractLsb' 24 8) = none) ∧
    (decode limit pkt = .error .malformedPacket ↔
      pkt = [] ∨ limit.admits pkt.length = false ∨
      ∃ w0 ops op, pkt = w0 :: ops ∧ Opcode.ofByte (w0.extractLsb' 24 8) = some op ∧
        (w0.extractLsb' 8 16 ≠ 0 ∨
          (op.form = .colour ∧ w0.extractLsb' 1 7 ≠ 0) ∨ (op.form = .orient ∧ w0.extractLsb' 2 6 ≠ 0) ∨
          (op.form = .zero ∧ w0.extractLsb' 0 8 ≠ 0) ∨ op.length ops ≠ some pkt.length ∨
          (op = .drawBmp ∧ ∃ p, ops[5]? = some p ∧ 1 < p.toNat)))

/-- A step takes the packet at the head of the stream: if it decodes, the step is the execution of its instruction with the
packet taken; if not, its error is the response and nothing else changes. -/
def Obligations.StepRunsDecodedInstruction : Prop :=
  ∀ (s : State) (pkt : Packet) (rest : List Packet), s.packets = pkt :: rest →
    (∀ i, decode s.cfg.maxPktWords pkt = .ok i → step s = exec i { s with packets := rest }) ∧
    (decode s.cfg.maxPktWords pkt = .error .illegalCommand →
      step s = .next { s with packets := rest, responses := s.responses ++ [⟨5, []⟩] }) ∧
    (decode s.cfg.maxPktWords pkt = .error .malformedPacket →
      step s = .next { s with packets := rest, responses := s.responses ++ [⟨6, []⟩] })

/-- With no packet in the stream a step changes nothing: the model's choice (log entry 8) for a block that waits. -/
def Obligations.EmptyStreamWaits : Prop :=
  ∀ s : State, s.packets = [] → step s = .next s

/-! ### Responses, errors, the gate -/

/-- 30_encoding.md R100: one response per packet; its form. -/
def Obligations.OneResponsePerPacket : Prop :=
  ∀ (s : State) (pkt : Packet) (rest : List Packet) (t : State), s.packets = pkt :: rest → step s = .next t →
    t.packets = rest ∧ ∃ r : Response, t.responses = s.responses ++ [r] ∧
      r.status.extractLsb' 8 24 = 0 ∧ (r.status.extractLsb' 0 8).toNat ≤ 6 ∧
      (r.status ≠ 0 → r.results = []) ∧
      (r.status = 0 → ∃ i, decode s.cfg.maxPktWords pkt = .ok i ∧ r.results.length = resultWords i)

/-- 60_exceptions.md R256: an error other than HardwareTimeout has no effect but its response. -/
def Obligations.PreciseErrorsOnlyRespond : Prop :=
  ∀ (s : State) (pkt : Packet) (rest : List Packet) (t : State) (r : Response), s.packets = pkt :: rest →
    step s = .next t → t.responses.getLast? = some r →
    (r.status = 1 ∨ r.status = 2 ∨ r.status = 4 ∨ r.status = 5 ∨ r.status = 6) →
    t = { s with packets := rest, responses := s.responses ++ [⟨r.status, []⟩] }

/-- 30_encoding.md R104: the operations the gate refuses, and with which error, in each PSTATE it can see. -/
def Obligations.GateRefusesAsTabled : Prop :=
  ∀ (i : Instr) (s : State), s.pstate ≠ .busy →
    ∃ t r, exec i s = .next t ∧ t.responses = s.responses ++ [r] ∧
      (r.status = 1 ↔ isGated i = true ∧ s.pstate = .uninitialized) ∧
      (r.status = 2 ↔ isGated i = true ∧ s.pstate = .asleep)

/-- The model stops in one case only: a gated operation while PSTATE is Busy (the model's choice, log entry 9; no run from
reset reaches it). No instruction is refused. -/
def Obligations.StopsOnlyWhileBusy : Prop :=
  ∀ (i : Instr) (s : State),
    ((∃ f, exec i s = .fault f) ↔ isGated i = true ∧ s.pstate = .busy) ∧ ∀ r, exec i s ≠ .refused r

/-! ### Registers and the frame of the machine -/

/-- 70_reset_and_hazards.md R280: every state element after reset, and the defaults. -/
def Obligations.ResetState : Prop :=
  (∀ cfg : Config,
    (∀ a < 5808, (State.resetWith cfg).fb.read a = if cfg.initFill = .white then 0x00 else 0xFF) ∧
    (State.resetWith cfg).orient = cfg.initOrient ∧ (State.resetWith cfg).pstate = .uninitialized ∧
    (State.resetWith cfg).debug = cfg.debug ∧ (State.resetWith cfg).responses = [] ∧
    (State.resetWith cfg).trace = [] ∧ (State.resetWith cfg).packets = []) ∧
  (∃ cfg : Config, State.reset = State.resetWith cfg ∧ cfg.initFill = .white ∧ cfg.initOrient = .deg0)

/-- 44_panel_protocol.md R238: GET_STATUS. PSTATE never reads 2, since no packet is taken in PSTATE Busy (R231). -/
def Obligations.GetStatusReadsRegisters : Prop :=
  ∀ s : State, step (sendFirst [0x07000000] s) = exec .getStatus s ∧
    ∃ w : Word, exec .getStatus s = .next { s with responses := s.responses ++ [⟨0, [w]⟩] } ∧
      w.extractLsb' 0 2 =
        (match s.pstate with | .uninitialized => 0 | .awake => 1 | .busy => 2 | .asleep => 3) ∧
      w.extractLsb' 2 2 = (match s.orient with | .deg0 => 0 | .deg90 => 1 | .deg180 => 2 | .deg270 => 3) ∧
      w.getLsbD 4 = s.debug ∧ w.extractLsb' 5 27 = 0 ∧ (s.pstate ≠ .busy → w.extractLsb' 0 2 ≠ 2)

/-- 44_panel_protocol.md R230: PSTATE after every packet, and Busy for the whole of every panel sequence. -/
def Obligations.PStateChangesAsTabled : Prop :=
  (∀ (s : State) (pkt : Packet) (rest : List Packet) (t : State) (r : Response), s.packets = pkt :: rest →
    step s = .next t → t.responses.getLast? = some r →
    (∀ i final, decode s.cfg.maxPktWords pkt = .ok i → panelFinal i = some final →
      (r.status = 0 ∨ r.status = 3 → isGated i = true → s.pstate = .awake) ∧
      (r.status = 0 → t.pstate = final) ∧ (r.status = 3 → t.pstate = .uninitialized) ∧
      (r.status ≠ 0 → r.status ≠ 3 → t.pstate = s.pstate)) ∧
    (∀ i, decode s.cfg.maxPktWords pkt = .ok i → panelFinal i = none → t.pstate = s.pstate) ∧
    (∀ e, decode s.cfg.maxPktWords pkt = .error e → t.pstate = s.pstate)) ∧
  (∀ s u : State,
    (initBody s = .done u ∨ initBody s = .timedOut u → u.pstate = .busy) ∧
    (displayBody s = .done u ∨ displayBody s = .timedOut u → u.pstate = .busy) ∧
    (runScript s.cfg.sleepSeq (enterBusy s) = .done u ∨ runScript s.cfg.sleepSeq (enterBusy s) = .timedOut u →
      u.pstate = .busy))

/-- 20_memory.md R65: FB changes only by the operations listed there, and only when they are not refused. -/
def Obligations.FbWrittenOnlyByWriters : Prop :=
  ∀ (s : State) (pkt : Packet) (rest : List Packet) (t : State) (r : Response), s.packets = pkt :: rest →
    step s = .next t → t.responses.getLast? = some r → t.fb ≠ s.fb →
    (r.status = 0 ∨ r.status = 3) ∧
    ∃ i, decode s.cfg.maxPktWords pkt = .ok i ∧
      (i = .clear ∨ i = .fillBlack ∨ (∃ c, i = .fbFill c) ∨ (∃ c px py, i = .fbSetpx c px py) ∨
        (∃ c x y, i = .pixel c x y) ∨ (∃ c x y w, i = .hline c x y w) ∨ (∃ c x y h, i = .vline c x y h) ∨
        (∃ c x1 y1 x2 y2, i = .line c x1 y1 x2 y2) ∨ (∃ c x y w h, i = .rect c x y w h) ∨
        (∃ c x y w h, i = .fillRect c x y w h) ∨ (∃ c x y d, i = .circle c x y d) ∨
        (∃ c x y str, i = .text c x y str) ∨ ∃ x y bw bh d p bs, i = .drawBmp x y bw bh d p bs)

/-- What no instruction changes: the parameters, DEBUG and the packets not yet taken; and ORIENT, which only SET_ORIENT
changes (10_state.md R25, R27, R20). -/
def Obligations.RegisterFrame : Prop :=
  ∀ (i : Instr) (s t : State), exec i s = .next t →
    t.cfg = s.cfg ∧ t.debug = s.debug ∧ t.packets = s.packets ∧ ((∀ o, i ≠ .setOrient o) → t.orient = s.orient)

/-- 10_state.md R27: DEBUG is constant and nothing but GET_STATUS depends on it. -/
def Obligations.DebugHasNoEffect : Prop :=
  (∀ cfg : Config, (State.resetWith cfg).debug = cfg.debug) ∧
  (∀ s t : State, step s = .next t → t.debug = s.debug) ∧
  (∀ (s : State) (b : Bool),
    (∀ pkt rest, s.packets = pkt :: rest → decode s.cfg.maxPktWords pkt ≠ .ok .getStatus) →
    step { s with debug := b } = onNext (fun t => { t with debug := b }) (step s))

/-- The block never reads RS and PT back (10_state.md R29, R30): with other responses and events before it, a step does the
same and keeps them in front. So both streams only grow. -/
def Obligations.StreamsNeverReadBack : Prop :=
  ∀ (s : State) (rs : List Response) (pt : List PanelEvent),
    step { s with responses := rs ++ s.responses, trace := pt ++ s.trace } =
      onNext (fun t => { t with responses := rs ++ t.responses, trace := pt ++ t.trace }) (step s)

/-- P_POLL_INTERVAL and P_BUSY_ACTIVE_LEVEL have no effect on any step (00_scope.md R10, 44_panel_protocol.md R216, R218). -/
def Obligations.TimeAndLevelHaveNoEffect : Prop :=
  ∀ (s : State) (n : Nat) (level : Level),
    step { s with cfg := { s.cfg with pollInterval := n, busyActiveLevel := level } } =
      onNext (fun t => { t with cfg := { t.cfg with pollInterval := n, busyActiveLevel := level } }) (step s)

/-! ### The frame buffer -/

/-- 40_framebuffer.md R122: FB_FILL. -/
def Obligations.FbFillSetsEveryByte : Prop :=
  ∀ (c : Color) (s : State), step (sendFirst [0x10000000 + colourWord c] s) = exec (.fbFill c) s ∧
    RunsWhenAwake s (exec (.fbFill c) s) fun r =>
      ∃ fb, r = .next { s with fb := fb, responses := s.responses ++ [⟨0, []⟩] } ∧ Memory.wf fb ∧
        ∀ a < 5808, fb.read a = if c = .black then 0xFF else 0x00

/-- 40_framebuffer.md R125: the pixels after FB_FILL, as long as FB is not written. -/
def Obligations.FillThenEveryPixelReads : Prop :=
  ∀ (c : Color) (s : State), s.pstate = .awake →
    ∃ t, exec (.fbFill c) s = .next t ∧
      ∀ (later : State) (px py : Int), later.fb = t.fb →
        getPhys later.fb ⟨px, py⟩ = if 0 ≤ px ∧ px < 176 ∧ 0 ≤ py ∧ py < 264 then c else .white

/-- 40_framebuffer.md R123 with R121: FB_SETPX. On the panel exactly one bit of one byte is written; off it nothing is. -/
def Obligations.FbSetpxWritesOnePixel : Prop :=
  ∀ (c : Color) (px py : Word) (s : State), Memory.wf s.fb →
    step (sendFirst [0x11000000 + colourWord c, px, py] s) = exec (.fbSetpx c px py) s ∧
    RunsWhenAwake s (exec (.fbSetpx c px py) s) fun r =>
      ∃ fb, r = .next { s with fb := fb, responses := s.responses ++ [⟨0, []⟩] } ∧ Memory.wf fb ∧
        if 0 ≤ px.toInt ∧ px.toInt < 176 ∧ 0 ≤ py.toInt ∧ py.toInt < 264 then
          ∀ a b : Nat, b < 8 →
            (fb.read a).getLsbD b =
              if a = py.toNat * 22 + px.toNat / 8 ∧ b = 7 - px.toNat % 8 then decide (c = .black)
              else (s.fb.read a).getLsbD b
        else fb = s.fb

/-- 40_framebuffer.md R124 with R120: FB_GETPX, in every PSTATE. -/
def Obligations.FbGetpxReadsOnePixel : Prop :=
  ∀ (px py : Word) (s : State), step (sendFirst [0x12000000, px, py] s) = exec (.fbGetpx px py) s ∧
    exec (.fbGetpx px py) s = .next { s with responses := s.responses ++ [⟨0,
      [if 0 ≤ px.toInt ∧ px.toInt < 176 ∧ 0 ≤ py.toInt ∧ py.toInt < 264 ∧
          (s.fb.read (py.toNat * 22 + px.toNat / 8)).getLsbD (7 - px.toNat % 8) = true then 1 else 0]⟩] }

/-- 40_framebuffer.md R126: FB_READ, in every PSTATE. -/
def Obligations.FbReadReadsOneByte : Prop :=
  ∀ (idx : Word) (s : State), step (sendFirst [0x13000000, idx] s) = exec (.fbRead idx) s ∧
    exec (.fbRead idx) s = .next { s with responses := s.responses ++ [⟨0,
      [BitVec.ofNat 32 (if idx.toNat < 5808 then (s.fb.read idx.toNat).toNat else 0)]⟩] }

/-- The frame buffer's data form: equal bytes are equal memories, a write changes its byte alone and keeps the form (the
model's representation, log entry 10; 20_memory.md R52). -/
def Obligations.MemoryReadWrite : Prop :=
  (∀ m m' : Memory, Memory.wf m → Memory.wf m' → (∀ a < 5808, m.read a = m'.read a) → m = m') ∧
  (∀ (m : Memory) (a : Nat) (v : Byte), Memory.wf m → a < 5808 →
    Memory.wf (m.write a v) ∧ ∀ b, (m.write a v).read b = if b = a then v else m.read b)

/-! ### Orientation -/

/-- 41_orientation.md R147: SET_ORIENT. FB, PSTATE and the panel trace stay as they are (R146). -/
def Obligations.SetOrientWritesOrient : Prop :=
  ∀ (o : Orientation) (s : State),
    step (sendFirst [0x20000000 + o.index.zeroExtend 32] s) = exec (.setOrient o) s ∧
    RunsWhenAwake s (exec (.setOrient o) s) fun r =>
      r = .next { s with orient := o, responses := s.responses ++ [⟨0, []⟩] }

/-- 41_orientation.md R148: GET_DIMS, in every PSTATE. -/
def Obligations.GetDimsAnswersDims : Prop :=
  ∀ (o : Orientation) (s : State),
    step (sendFirst [0x21000000 + o.index.zeroExtend 32] s) = exec (.getDims o) s ∧
    exec (.getDims o) s = .next { s with responses := s.responses ++ [⟨0,
      if o = .deg0 ∨ o = .deg180 then [176, 264] else [264, 176]⟩] }

/-- 41_orientation.md R149 with R141: MAP, in every PSTATE; result words are the low 32 bits. -/
def Obligations.MapAppliesTransform : Prop :=
  ∀ (o : Orientation) (lx ly : Word) (s : State),
    step (sendFirst [0x22000000 + o.index.zeroExtend 32, lx, ly] s) = exec (.map o lx ly) s ∧
    ∃ px py : Int, exec (.map o lx ly) s = .next { s with responses := s.responses ++ [⟨0,
        [BitVec.ofInt 32 px, BitVec.ofInt 32 py]⟩] } ∧
      (px, py) = match o with
        | .deg0 => (lx.toInt, ly.toInt)
        | .deg90 => (175 - ly.toInt, lx.toInt)
        | .deg180 => (175 - lx.toInt, 263 - ly.toInt)
        | .deg270 => (ly.toInt, 263 - lx.toInt)

/-- 41_orientation.md R150 with R142: UNMAP, in every PSTATE. -/
def Obligations.UnmapAppliesInverse : Prop :=
  ∀ (o : Orientation) (px py : Word) (s : State),
    step (sendFirst [0x23000000 + o.index.zeroExtend 32, px, py] s) = exec (.unmap o px py) s ∧
    ∃ lx ly : Int, exec (.unmap o px py) s = .next { s with responses := s.responses ++ [⟨0,
        [BitVec.ofInt 32 lx, BitVec.ofInt 32 ly]⟩] } ∧
      (lx, ly) = match o with
        | .deg0 => (px.toInt, py.toInt)
        | .deg90 => (py.toInt, 175 - px.toInt)
        | .deg180 => (175 - px.toInt, 263 - py.toInt)
        | .deg270 => (263 - py.toInt, px.toInt)

/-- 41_orientation.md R142: the inverse, on all integers. -/
def Obligations.TransformsAreInverse : Prop :=
  ∀ (o : Orientation) (x y : Int),
    toLogical o ⟨x, y⟩ =
      (match o with
        | .deg0 => ⟨x, y⟩
        | .deg90 => ⟨y, 175 - x⟩
        | .deg180 => ⟨175 - x, 263 - y⟩
        | .deg270 => ⟨263 - y, x⟩) ∧
    toLogical o (toPhys o ⟨x, y⟩) = ⟨x, y⟩ ∧ toPhys o (toLogical o ⟨x, y⟩) = ⟨x, y⟩

/-- 41_orientation.md R143: a bijection of the logical onto the physical rectangle. -/
def Obligations.TransformIsBijection : Prop :=
  ∀ o : Orientation, Set.BijOn (toPhys o) { p | inCanvas o p.x p.y }
    { p | 0 ≤ p.x ∧ p.x < 176 ∧ 0 ≤ p.y ∧ p.y < 264 }

/-- 41_orientation.md R145: Plot writes a bit exactly inside the logical canvas. -/
def Obligations.PlotClipsToCanvas : Prop :=
  ∀ (o : Orientation) (fb : Memory) (lx ly : Int) (c : Color), Memory.wf fb →
    (inCanvas o lx ly ↔ onPanel (toPhys o ⟨lx, ly⟩)) ∧
    (¬ inCanvas o lx ly → plot o fb ⟨lx, ly⟩ c = fb) ∧
    (inCanvas o lx ly → ∀ x y : Int, inCanvas o x y →
      logicalPixel o (plot o fb ⟨lx, ly⟩ c) x y = if x = lx ∧ y = ly then c else logicalPixel o fb x y)

/-! ### The rasterizer -/

/-- 42_rasterizer.md R160: PIXEL. -/
def Obligations.PixelPaintsOnePoint : Prop :=
  ∀ (c : Color) (x y : Word) (s : State), Memory.wf s.fb →
    step (sendFirst [0x30000000 + colourWord c, x, y] s) = exec (.pixel c x y) s ∧
    RunsWhenAwake s (exec (.pixel c x y) s) fun r => ∃ t, r = .next t ∧
      Paints s t fun lx ly c' => c' = c ∧ lx = x.toInt ∧ ly = y.toInt

/-- 42_rasterizer.md R161: HLINE. -/
def Obligations.HlinePaintsRun : Prop :=
  ∀ (c : Color) (x y w : Word) (s : State), Memory.wf s.fb →
    step (sendFirst [0x31000000 + colourWord c, x, y, w] s) = exec (.hline c x y w) s ∧
    RunsWhenAwake s (exec (.hline c x y w) s) fun r => ∃ t, r = .next t ∧
      Paints s t fun lx ly c' => c' = c ∧ ly = y.toInt ∧ x.toInt ≤ lx ∧ lx < x.toInt + w.toInt

/-- 42_rasterizer.md R162: VLINE. -/
def Obligations.VlinePaintsRun : Prop :=
  ∀ (c : Color) (x y h : Word) (s : State), Memory.wf s.fb →
    step (sendFirst [0x32000000 + colourWord c, x, y, h] s) = exec (.vline c x y h) s ∧
    RunsWhenAwake s (exec (.vline c x y h) s) fun r => ∃ t, r = .next t ∧
      Paints s t fun lx ly c' => c' = c ∧ lx = x.toInt ∧ y.toInt ≤ ly ∧ ly < y.toInt + h.toInt

/-- 42_rasterizer.md R163: an axis-parallel run is the line between its ends. -/
def Obligations.RunsAreLines : Prop :=
  (∀ x y w : Int, 1 ≤ w → ∀ p, p ∈ hlinePoints x y w ↔ p ∈ linePoints x y (x + w - 1) y) ∧
  (∀ x y h : Int, 1 ≤ h → ∀ p, p ∈ vlinePoints x y h ↔ p ∈ linePoints x y x (y + h - 1)) ∧
  (∀ (c : Color) (x y w x2 : Word) (s : State), Memory.wf s.fb → 1 ≤ w.toInt → x2.toInt = x.toInt + w.toInt - 1 →
    exec (.hline c x y w) s = exec (.line c x y x2 y) s) ∧
  (∀ (c : Color) (x y h y2 : Word) (s : State), Memory.wf s.fb → 1 ≤ h.toInt → y2.toInt = y.toInt + h.toInt - 1 →
    exec (.vline c x y h) s = exec (.line c x y x y2) s)

/-- LINE paints the points of the closed form of 42_rasterizer.md R165, and the order of the two ends does not matter
(R164). -/
def Obligations.LinePaintsClosedForm : Prop :=
  ∀ (c : Color) (x1 y1 x2 y2 : Word) (s : State), Memory.wf s.fb →
    step (sendFirst [0x33000000 + colourWord c, x1, y1, x2, y2] s) = exec (.line c x1 y1 x2 y2) s ∧
    exec (.line c x1 y1 x2 y2) s = exec (.line c x2 y2 x1 y1) s ∧
    RunsWhenAwake s (exec (.line c x1 y1 x2 y2) s) fun r => ∃ t, r = .next t ∧
      Paints s t fun lx ly c' => c' = c ∧ lineShape x1.toInt y1.toInt x2.toInt y2.toInt lx ly

/-- 42_rasterizer.md R165: the points of Line are the closed form's, the same for both orders of the ends; both ends are
plotted; consecutive points differ by one step along the major axis and at most one along the minor. -/
def Obligations.LineClosedForm : Prop :=
  ∀ x1 y1 x2 y2 : Int,
    (∀ p, p ∈ linePoints x1 y1 x2 y2 ↔ lineShape x1 y1 x2 y2 p.x p.y) ∧
    (∀ p, p ∈ linePoints x1 y1 x2 y2 ↔ p ∈ linePoints x2 y2 x1 y1) ∧
    (⟨x1, y1⟩ : Point) ∈ linePoints x1 y1 x2 y2 ∧ (⟨x2, y2⟩ : Point) ∈ linePoints x1 y1 x2 y2 ∧
    (linePoints x1 y1 x2 y2).IsChain (fun p q =>
      if |x2 - x1| ≥ |y2 - y1| then q.x = p.x + 1 ∧ |q.y - p.y| ≤ 1 else q.y = p.y + 1 ∧ |q.x - p.x| ≤ 1)

/-- 42_rasterizer.md R166: RECT, the union of its four edges; nothing for a negative width or height. -/
def Obligations.RectPaintsFourEdges : Prop :=
  ∀ (c : Color) (x y w h : Word) (s : State), Memory.wf s.fb →
    step (sendFirst [0x34000000 + colourWord c, x, y, w, h] s) = exec (.rect c x y w h) s ∧
    RunsWhenAwake s (exec (.rect c x y w h) s) fun r => ∃ t, r = .next t ∧
      Paints s t fun lx ly c' => c' = c ∧ 0 ≤ w.toInt ∧ 0 ≤ h.toInt ∧
        ((ly = y.toInt ∧ x.toInt ≤ lx ∧ lx ≤ x.toInt + w.toInt) ∨
          (ly = y.toInt + h.toInt ∧ x.toInt ≤ lx ∧ lx ≤ x.toInt + w.toInt) ∨
          (lx = x.toInt ∧ y.toInt ≤ ly ∧ ly ≤ y.toInt + h.toInt) ∨
          (lx = x.toInt + w.toInt ∧ y.toInt ≤ ly ∧ ly ≤ y.toInt + h.toInt))

/-- 42_rasterizer.md R168: RECT is the boundary of FILL_RECT. -/
def Obligations.RectIsBoundaryOfBlock : Prop :=
  ∀ x y w h : Int, 0 ≤ w → 0 ≤ h → ∀ p : Point,
    p ∈ rectPoints x y w h ↔
      p ∈ fillRectPoints x y w h ∧ (p.x = x ∨ p.x = x + w ∨ p.y = y ∨ p.y = y + h)

/-- 42_rasterizer.md R167: FILL_RECT, the solid block; nothing for a negative width or height; a block that covers the whole
logical canvas, wherever its corners lie, is FB_FILL. -/
def Obligations.FillRectPaintsBlock : Prop :=
  (∀ (c : Color) (x y w h : Word) (s : State), Memory.wf s.fb →
    step (sendFirst [0x35000000 + colourWord c, x, y, w, h] s) = exec (.fillRect c x y w h) s ∧
    RunsWhenAwake s (exec (.fillRect c x y w h) s) fun r => ∃ t, r = .next t ∧
      Paints s t fun lx ly c' => c' = c ∧ 0 ≤ w.toInt ∧ 0 ≤ h.toInt ∧
        x.toInt ≤ lx ∧ lx ≤ x.toInt + w.toInt ∧ y.toInt ≤ ly ∧ ly ≤ y.toInt + h.toInt) ∧
  (∀ (c : Color) (x y w h : Word) (s : State), Memory.wf s.fb → x.toInt ≤ 0 → y.toInt ≤ 0 →
    (logicalDims s.orient).1 - 1 ≤ x.toInt + w.toInt → (logicalDims s.orient).2 - 1 ≤ y.toInt + h.toInt →
    exec (.fillRect c x y w h) s = exec (.fbFill c) s)

/-- CIRCLE paints the points nearest the circle, by a closed form derived from the loop of 42_rasterizer.md R169: none for
r < 0, the centre for r = 0. -/
def Obligations.CirclePaintsClosedForm : Prop :=
  ∀ (c : Color) (x y r : Word) (s : State), Memory.wf s.fb →
    step (sendFirst [0x36000000 + colourWord c, x, y, r] s) = exec (.circle c x y r) s ∧
    RunsWhenAwake s (exec (.circle c x y r) s) fun res => ∃ t, res = .next t ∧
      Paints s t fun lx ly c' => c' = c ∧ circleShape x.toInt y.toInt r.toInt lx ly

/-- 42_rasterizer.md R170: the symmetries of CIRCLE, and eight points a step. -/
def Obligations.CircleIsSymmetric : Prop :=
  ∀ x y r : Int, 0 < r →
    (∀ dx dy : Int,
      ((⟨x + dx, y + dy⟩ : Point) ∈ circlePoints x y r ↔ (⟨x - dy, y + dx⟩ : Point) ∈ circlePoints x y r) ∧
      ((⟨x + dx, y + dy⟩ : Point) ∈ circlePoints x y r ↔ (⟨x + dx, y - dy⟩ : Point) ∈ circlePoints x y r) ∧
      ((⟨x + dx, y + dy⟩ : Point) ∈ circlePoints x y r ↔ (⟨x - dx, y + dy⟩ : Point) ∈ circlePoints x y r) ∧
      ((⟨x + dx, y + dy⟩ : Point) ∈ circlePoints x y r ↔ (⟨x + dy, y + dx⟩ : Point) ∈ circlePoints x y r) ∧
      ((⟨x + dx, y + dy⟩ : Point) ∈ circlePoints x y r ↔ (⟨x - dy, y - dx⟩ : Point) ∈ circlePoints x y r)) ∧
    (circlePoints x y r).length = 8 * (circleSteps (r.toNat + 1) r 0 (1 - r)).length

/-- 40_framebuffer.md R127: writes off the panel change nothing, so a drawing operation none of whose points lies in the
logical canvas, on whichever side they lie, changes nothing but its response. -/
def Obligations.OffCanvasDrawsNothing : Prop :=
  (∀ (fb : Memory) (px py : Int) (c : Color), ¬ (0 ≤ px ∧ px < 176 ∧ 0 ≤ py ∧ py < 264) →
    setPhys fb ⟨px, py⟩ c = fb) ∧
  (∀ (o : Orientation) (fb : Memory) (pts : List (Point × Color)), (∀ pc ∈ pts, ¬ inCanvas o pc.1.x pc.1.y) →
    plotAll o fb pts = fb) ∧
  (∀ (i : Instr) (s : State), s.pstate = .awake →
    ((∃ c px py, i = .fbSetpx c px py ∧ ¬ (0 ≤ px.toInt ∧ px.toInt < 176 ∧ 0 ≤ py.toInt ∧ py.toInt < 264)) ∨
      (∃ c x y, i = .pixel c x y ∧ ¬ inCanvas s.orient x.toInt y.toInt) ∨
      (∃ c x y w, i = .hline c x y w ∧
        ∀ lx, x.toInt ≤ lx → lx < x.toInt + w.toInt → ¬ inCanvas s.orient lx y.toInt) ∨
      (∃ c x y h, i = .vline c x y h ∧
        ∀ ly, y.toInt ≤ ly → ly < y.toInt + h.toInt → ¬ inCanvas s.orient x.toInt ly) ∨
      (∃ c x1 y1 x2 y2, i = .line c x1 y1 x2 y2 ∧
        ∀ lx ly, lineShape x1.toInt y1.toInt x2.toInt y2.toInt lx ly → ¬ inCanvas s.orient lx ly) ∨
      (∃ c x y w h, i = .rect c x y w h ∧
        ∀ lx ly, x.toInt ≤ lx → lx ≤ x.toInt + w.toInt → y.toInt ≤ ly → ly ≤ y.toInt + h.toInt →
          (lx = x.toInt ∨ lx = x.toInt + w.toInt ∨ ly = y.toInt ∨ ly = y.toInt + h.toInt) →
          ¬ inCanvas s.orient lx ly) ∨
      (∃ c x y w h, i = .fillRect c x y w h ∧
        ∀ lx ly, x.toInt ≤ lx → lx ≤ x.toInt + w.toInt → y.toInt ≤ ly → ly ≤ y.toInt + h.toInt →
          ¬ inCanvas s.orient lx ly) ∨
      (∃ c x y r, i = .circle c x y r ∧
        ∀ lx ly, circleShape x.toInt y.toInt r.toInt lx ly → ¬ inCanvas s.orient lx ly) ∨
      (∃ c x y str, i = .text c x y str ∧
        ∀ (k row col : Nat) (ch : Byte) (g : List Byte), str[k]? = some ch → glyphOf s.cfg ch = some g →
          row < s.cfg.glyphH → col < 8 → (g.getD row 0).getLsbD (7 - col) = true →
          ¬ inCanvas s.orient (x.toInt + 8 * k + col) (y.toInt + row)) ∨
      (∃ x y bw bh p bs, i = .drawBmp x y bw bh 1 p bs ∧ (bw.toNat + 7) / 8 * bh.toNat ≤ bs.length ∧
        ∀ a b : Nat, a < bw.toNat → b < bh.toNat → ¬ inCanvas s.orient (x.toInt + a) (y.toInt + b))) →
    exec i s = .next { s with responses := s.responses ++ [⟨0, []⟩] })

/-! ### Text and bitmaps -/

/-- 43_text_blit.md R193 with R190, R192: TEXT. Cell k starts at x + 8k; its ink points are painted and nothing else. -/
def Obligations.TextPaintsGlyphs : Prop :=
  ∀ (c : Color) (x y len : Word) (area : List Word) (str : List Byte) (s : State), Memory.wf s.fb →
    area.length = (len.toNat + 3) / 4 → s.cfg.maxPktWords.admits (area.length + 4) = true →
    str = (List.range len.toNat).map (fun k => (area.getD (k / 4) 0).extractLsb' (8 * (k % 4)) 8) →
    step (sendFirst ((0x37000000 + colourWord c) :: x :: y :: len :: area) s) = exec (.text c x y str) s ∧
    RunsWhenAwake s (exec (.text c x y str) s) fun r => ∃ t, r = .next t ∧
      Paints s t fun lx ly c' => c' = c ∧
        ∃ (k row col : Nat) (ch : Byte) (g : List Byte), str[k]? = some ch ∧ glyphOf s.cfg ch = some g ∧
          row < s.cfg.glyphH ∧ col < 8 ∧ (g.getD row 0).getLsbD (7 - col) = true ∧
          lx = x.toInt + 8 * k + col ∧ ly = y.toInt + row

/-- 43_text_blit.md R198 and R199: a DRAW_BMP that passes validation paints every pixel of the bitmap's rectangle with its
bitmap colour; it plots no point twice, and the order of its Plot calls does not matter. -/
def Obligations.DrawBmpPaintsBitmap : Prop :=
  (∀ (x y : Int) (bw bh : Nat) (pol : Polarity) (bytes : List Byte),
    ((bmpPoints x y bw bh pol bytes).map Prod.fst).Nodup ∧
    ∀ (o : Orientation) (fb : Memory) (calls : List (Point × Color)), Memory.wf fb →
      calls.Perm (bmpPoints x y bw bh pol bytes) → plotAll o fb calls = plotAll o fb (bmpPoints x y bw bh pol bytes)) ∧
  ∀ (x y bw bh depth polw len : Word) (pol : Polarity) (area : List Word) (bytes : List Byte) (s : State),
    Memory.wf s.fb → area.length = (len.toNat + 3) / 4 → s.cfg.maxPktWords.admits (area.length + 8) = true →
    bytes = (List.range len.toNat).map (fun k => (area.getD (k / 4) 0).extractLsb' (8 * (k % 4)) 8) →
    polw = (if pol = .inverted then 1 else 0) →
    step (sendFirst (0x38000000 :: x :: y :: bw :: bh :: depth :: polw :: len :: area) s) =
      exec (.drawBmp x y bw bh depth pol bytes) s ∧
    (depth = 1 → (bw.toNat + 7) / 8 * bh.toNat ≤ bytes.length →
      RunsWhenAwake s (exec (.drawBmp x y bw bh depth pol bytes) s) fun r => ∃ t, r = .next t ∧
        Paints s t fun lx ly c' => ∃ i j : Nat, i < bw.toNat ∧ j < bh.toNat ∧
          lx = x.toInt + i ∧ ly = y.toInt + j ∧
          c' = if (((bytes.getD (j * ((bw.toNat + 7) / 8) + i / 8) 0).getLsbD (7 - i % 8)).xor
              (decide (pol = .inverted))) = true then .black else .white)

/-- 43_text_blit.md R197 and R200: a DRAW_BMP of another depth or with too few bytes answers UnsupportedFormat in Awake, and
the gate's error elsewhere; nothing else changes. -/
def Obligations.DrawBmpUnsupported : Prop :=
  ∀ (x y bw bh depth : Word) (pol : Polarity) (bytes : List Byte) (s : State),
    (depth ≠ 1 ∨ bytes.length < (bw.toNat + 7) / 8 * bh.toNat) →
    RunsWhenAwake s (exec (.drawBmp x y bw bh depth pol bytes) s) fun r =>
      r = .next { s with responses := s.responses ++ [⟨4, []⟩] }

/-! ### The panel -/

/-- 44_panel_protocol.md R218: WaitIdle ends at the first idle answer within its polls, else times out after all of them;
one of the two happens. -/
def Obligations.WaitIdlePolls : Prop :=
  ∀ s : State,
    (∀ k, k < s.cfg.busyMaxPolls → nextAnswers (k + 1) s = List.replicate k true ++ [false] →
      waitIdle s = .done (afterPolls (k + 1) (List.replicate k (.poll true) ++ [.poll false]) s)) ∧
    (nextAnswers s.cfg.busyMaxPolls s = List.replicate s.cfg.busyMaxPolls true →
      waitIdle s = .timedOut (afterPolls s.cfg.busyMaxPolls (List.replicate s.cfg.busyMaxPolls (.poll true)) s)) ∧
    ((∃ k, k < s.cfg.busyMaxPolls ∧ nextAnswers (k + 1) s = List.replicate k true ++ [false]) ∨
      nextAnswers s.cfg.busyMaxPolls s = List.replicate s.cfg.busyMaxPolls true)

/-- 44_panel_protocol.md R232: INIT, in every PSTATE. -/
def Obligations.InitRunsInitSequence : Prop :=
  ∀ s : State, step (sendFirst [0x01000000] s) = exec .init s ∧
    RunsPanelScript s (exec .init s) [.reset] s.fb s.cfg.initSeq .awake

/-- 44_panel_protocol.md R233 with R224: DISPLAY sends P_DISP_PRE, the frame, P_DISP_POST. -/
def Obligations.DisplaySendsFrame : Prop :=
  ∀ s : State, step (sendFirst [0x02000000] s) = exec .display s ∧
    RunsWhenAwake s (exec .display s) fun r =>
      RunsPanelScript s r [] s.fb
        (s.cfg.dispPre ++ [.cmd s.cfg.dtmCmd, .data ((List.range 5808).map s.fb.read)] ++ s.cfg.dispPost) .awake

/-- 44_panel_protocol.md R234: CLEAR fills FB with WHITE, then displays it; the fill is kept on a timeout. -/
def Obligations.ClearFillsAndDisplays : Prop :=
  ∀ s : State, step (sendFirst [0x03000000] s) = exec .clear s ∧
    RunsWhenAwake s (exec .clear s) fun r => ∃ fb, Memory.wf fb ∧ (∀ a < 5808, fb.read a = 0x00) ∧
      RunsPanelScript s r [] fb
        (s.cfg.dispPre ++ [.cmd s.cfg.dtmCmd, .data (List.replicate 5808 0x00)] ++ s.cfg.dispPost) .awake

/-- 44_panel_protocol.md R235: FILL_BLACK fills FB with BLACK, then displays it; the fill is kept on a timeout. -/
def Obligations.FillBlackFillsAndDisplays : Prop :=
  ∀ s : State, step (sendFirst [0x04000000] s) = exec .fillBlack s ∧
    RunsWhenAwake s (exec .fillBlack s) fun r => ∃ fb, Memory.wf fb ∧ (∀ a < 5808, fb.read a = 0xFF) ∧
      RunsPanelScript s r [] fb
        (s.cfg.dispPre ++ [.cmd s.cfg.dtmCmd, .data (List.replicate 5808 0xFF)] ++ s.cfg.dispPost) .awake

/-- 44_panel_protocol.md R236: SLEEP. -/
def Obligations.SleepRunsSleepSequence : Prop :=
  ∀ s : State, step (sendFirst [0x05000000] s) = exec .sleep s ∧
    RunsWhenAwake s (exec .sleep s) fun r => RunsPanelScript s r [] s.fb s.cfg.sleepSeq .asleep

/-- 44_panel_protocol.md R237: RESET_DISPLAY, in every PSTATE, with its two reset pulses. -/
def Obligations.ResetDisplayRunsTwoPulses : Prop :=
  ∀ s : State, step (sendFirst [0x06000000] s) = exec .resetDisplay s ∧
    RunsPanelScript s (exec .resetDisplay s) [.reset, .reset] s.fb s.cfg.initSeq .awake

/-- Every panel operation the gate lets run ends: OK with PSTATE as tabled, or HardwareTimeout with PSTATE Uninitialized and
the P_BUSY_MAX_POLLS busy polls of the failed wait last in the trace; ORIENT and the rest are kept (44_panel_protocol.md
R230, 60_exceptions.md R258). -/
def Obligations.PanelOperationsEnd : Prop :=
  ∀ (i : Instr) (final : PState) (s : State), panelFinal i = some final → (isGated i = true → s.pstate = .awake) →
    ∃ t evs status, exec i s = .next t ∧ t.trace = s.trace ++ evs ∧
      t.responses = s.responses ++ [⟨status, []⟩] ∧ t.cfg = s.cfg ∧ t.orient = s.orient ∧ t.debug = s.debug ∧
      t.packets = s.packets ∧
      ((status = 0 ∧ t.pstate = final) ∨
        (status = 3 ∧ t.pstate = .uninitialized ∧
          List.replicate s.cfg.busyMaxPolls (.poll true) <:+ evs))

/-- 44_panel_protocol.md R213: a data message reaches the transport in pieces of 64 bytes, the last of 1 to 64, in order, with
DC high and inside one chip-select bracket. -/
def Obligations.DataMessagesAreChunked : Prop :=
  ∀ bs : List Byte, bs ≠ [] →
    ∃ pieces : List (List Byte),
      PanelEvent.calls (.data bs) = [.setDc true, .assertCs] ++ pieces.map .write ++ [.deassertCs] ∧
      pieces.flatten = bs ∧ pieces.length = (bs.length + 63) / 64 ∧
      (∀ piece ∈ pieces.dropLast, piece.length = 64) ∧
      (∀ piece ∈ pieces.getLast?, 1 ≤ piece.length ∧ piece.length ≤ 64)

/-- The image the panel shows, under the assumption of 44_panel_protocol.md R240 about the panel (log entry 14). A DISPLAY,
CLEAR or FILL_BLACK that ended with OK has put into PT the events of P_DISP_PRE, the frame transfer and the events of
P_DISP_POST; the shown bytes are those of the frame transfer's data message, and they give every physical pixel the colour
FB gave it, WHITE for CLEAR, BLACK for FILL_BLACK. After every other step the shown bytes are as before. -/
def Obligations.DisplayShowsFrameBuffer : Prop :=
  (∀ (s t : State) (pkt : Packet) (rest : List Packet) (i : Instr) (shown : Option (List Byte)),
    s.packets = pkt :: rest → decode s.cfg.maxPktWords pkt = .ok i → (i = .display ∨ i = .clear ∨ i = .fillBlack) →
    step s = .next t → lastStatus t = some 0 →
    ∃ (ks ks' : List Nat) (bytes : List Byte), ks.length = waitCount s.cfg.dispPre ∧
      ks'.length = waitCount s.cfg.dispPost ∧ bytes.length = 5808 ∧
      t.trace = s.trace ++ scriptEvents s.cfg.dispPre ks ++ [.cmd s.cfg.dtmCmd, .data bytes] ++
        scriptEvents s.cfg.dispPost ks' ∧
      shownAfter shown s = some bytes ∧
      ∀ px py : Int, 0 ≤ px → px < 176 → 0 ≤ py → py < 264 →
        shownPixel bytes ⟨px, py⟩ =
          if i = .clear then .white else if i = .fillBlack then .black else getPhys s.fb ⟨px, py⟩) ∧
  (∀ (s t : State) (shown : Option (List Byte)), step s = .next t →
    ((∀ pkt rest i, s.packets = pkt :: rest → decode s.cfg.maxPktWords pkt = .ok i →
        i ≠ .display ∧ i ≠ .clear ∧ i ≠ .fillBlack) ∨ lastStatus t ≠ some 0) →
    shownAfter shown s = shown)

/-! ### The invariant -/

/-- Every step keeps the invariant: FB in canonical form and inside its 5,808 bytes, PSTATE not Busy between packets, DEBUG as
configured, every response of the spec's form. -/
def Obligations.StepKeepsInv : Prop :=
  ∀ s t : State, Inv s → step s = .next t → Inv t

/-- The invariant holds after reset, at every configuration. -/
def Obligations.ResetHasInv : Prop :=
  Inv State.reset ∧ ∀ cfg : Config, Inv (State.resetWith cfg)

/-- 70_reset_and_hazards.md R295: every packet ends. In a state with the invariant a step answers a next state. -/
def Obligations.EveryPacketEnds : Prop :=
  ∀ s : State, Inv s → ∃ t, step s = .next t

end ObligationStatements
end

