-- ==== Sys2Proof/Laws/Curves.lean ====
section
/-! SUPPORT. The closed forms of the line (42_rasterizer.md R165) and of the circle. -/

namespace Sys2Proof.Machine

/-! ### Line -/

/-- The loop of Line in closed form: with the error term in its range, point `j` has taken
`(err + 2 * dMajor + 2 * j * dMinor) / (2 * dMajor)` minor steps. -/
theorem bresenham_eq {dMajor dMinor step : Int} (hM : 0 < dMajor) (hm : 0 ≤ dMinor) (hle : dMinor ≤ dMajor)
    (n : Nat) (major minor err : Int) (h1 : -(2 * dMajor) ≤ err) (h2 : err < 0) :
    bresenham dMajor dMinor step n major minor err =
      (List.range n).map fun (j : Nat) =>
        (major + j, minor + step * ((err + 2 * dMajor + 2 * j * dMinor) / (2 * dMajor))) := by
  induction n generalizing major minor err with
  | zero => rfl
  | succ n ih =>
    have h0 : (err + 2 * dMajor) / (2 * dMajor) = 0 := Int.ediv_eq_zero_of_lt (by omega) (by omega)
    rw [List.range_succ_eq_map, List.map_cons, List.map_map, bresenham]
    congr 1
    · simp [h0]
    · split_ifs with hs
      · rw [ih _ _ _ (by omega) (by omega)]
        refine List.map_congr_left fun j _ => ?_
        have hd : (err + 2 * dMajor + 2 * ((j + 1 : Nat) : Int) * dMinor) / (2 * dMajor) =
            (err + 2 * dMinor - 2 * dMajor + 2 * dMajor + 2 * j * dMinor) / (2 * dMajor) + 1 := by
          rw [← Int.add_mul_ediv_right _ _ (by omega : (2 * dMajor) ≠ 0)]
          congr 1; push_cast; ring
        simp only [Function.comp_apply, Nat.succ_eq_add_one, hd, Prod.mk.injEq]
        exact ⟨by push_cast; ring, by ring⟩
      · rw [ih _ _ _ (by omega) (by omega)]
        refine List.map_congr_left fun j _ => ?_
        simp only [Function.comp_apply, Nat.succ_eq_add_one, Prod.mk.injEq]
        refine ⟨by push_cast; ring, ?_⟩
        congr 3
        push_cast; ring

/-- The points of a run along the major axis (42_rasterizer.md R165). -/
theorem mem_majorRun {major1 minor1 major2 minor2 : Int} (hle : major1 ≤ major2)
    (hmaj : |minor2 - minor1| ≤ major2 - major1) {q : Int × Int} :
    q ∈ majorRun major1 minor1 major2 minor2 ↔
      lineShape.onMajorRun major1 minor1 major2 minor2 q.1 q.2 := by
  have hM : ((major2 - major1).natAbs : Int) = major2 - major1 := by omega
  have hm : ((minor2 - minor1).natAbs : Int) = |minor2 - minor1| := Int.natCast_natAbs _
  obtain ⟨a, b⟩ := q
  unfold majorRun lineShape.onMajorRun
  rw [hM, hm]
  rcases Int.lt_or_eq_of_le hle with hlt | heq
  · rw [bresenham_eq (by omega) (abs_nonneg _) hmaj _ _ _ _ (by omega) (by omega)]
    simp only [List.mem_map, List.mem_range, Prod.mk.injEq]
    have harg : ∀ j : Int, -(major2 - major1) + 2 * (major2 - major1) + 2 * j * |minor2 - minor1| =
        2 * j * |minor2 - minor1| + (major2 - major1) := fun j => by ring
    constructor
    · rintro ⟨j, hj, rfl, rfl⟩
      exact ⟨j, by omega, by omega, rfl, by rw [harg]⟩
    · rintro ⟨i, h0, h1, rfl, rfl⟩
      refine ⟨i.toNat, by omega, by omega, ?_⟩
      rw [Int.toNat_of_nonneg h0, harg]
  · subst heq
    have : minor2 = minor1 := by
      have := abs_nonneg (minor2 - minor1)
      have : |minor2 - minor1| = 0 := by omega
      have := abs_eq_zero.1 this
      omega
    subst this
    have hone : ((major1 - major1).natAbs + 1) = 1 := by simp
    rw [hone]
    simp only [bresenham, ite_self, List.mem_singleton, Prod.mk.injEq]
    constructor
    · rintro ⟨rfl, rfl⟩; exact ⟨0, by simp⟩
    · rintro ⟨i, h0, h1, rfl, rfl⟩; exact ⟨by omega, by simp⟩

/-- LINE draws the points of its closed form. -/
theorem mem_linePoints {x1 y1 x2 y2 : Int} {p : Point} :
    p ∈ linePoints x1 y1 x2 y2 ↔ lineShape x1 y1 x2 y2 p.x p.y := by
  obtain ⟨a, b⟩ := p
  have hx : ((x2 - x1).natAbs : Int) = |x2 - x1| := Int.natCast_natAbs _
  have hy : ((y2 - y1).natAbs : Int) = |y2 - y1| := Int.natCast_natAbs _
  have hcx : |x1 - x2| = |x2 - x1| := abs_sub_comm _ _
  have hcy : |y1 - y2| = |y2 - y1| := abs_sub_comm _ _
  have hiff : (x2 - x1).natAbs ≥ (y2 - y1).natAbs ↔ |x2 - x1| ≥ |y2 - y1| := by omega
  unfold linePoints lineShape
  by_cases hmaj : |x2 - x1| ≥ |y2 - y1|
  · rw [if_pos (hiff.2 hmaj), if_pos hmaj]
    have hmap : ∀ l : List (Int × Int), (⟨a, b⟩ : Point) ∈ l.map (fun q => (⟨q.1, q.2⟩ : Point)) ↔ (a, b) ∈ l := by
      intro l; simp
    rw [hmap]
    by_cases hs : x1 ≤ x2
    · rw [if_neg (by omega), if_pos hs]
      exact mem_majorRun hs (by rw [abs_of_nonneg (by omega : 0 ≤ x2 - x1)] at hmaj; exact hmaj)
    · rw [if_pos (by omega), if_neg hs]
      exact mem_majorRun (by omega)
        (by rw [hcy]; rw [abs_of_nonpos (by omega : x2 - x1 ≤ 0)] at hmaj; omega)
  · rw [if_neg (fun h => hmaj (hiff.1 h)), if_neg hmaj]
    have hmap : ∀ l : List (Int × Int), (⟨a, b⟩ : Point) ∈ l.map (fun q => (⟨q.2, q.1⟩ : Point)) ↔ (b, a) ∈ l := by
      intro l; simp [and_comm]
    rw [hmap]
    by_cases hs : y1 ≤ y2
    · rw [if_neg (by omega), if_pos hs]
      exact mem_majorRun hs (by rw [abs_of_nonneg (by omega : 0 ≤ y2 - y1)] at hmaj; omega)
    · rw [if_pos (by omega), if_neg hs]
      exact mem_majorRun (by omega)
        (by rw [hcx]; rw [abs_of_nonpos (by omega : y2 - y1 ≤ 0)] at hmaj; omega)

/-! ### Circle -/

/-- `u` is the integer nearest the circle at distance `v`. -/
def onOctant (r u v : Int) : Prop := u ^ 2 - u + v ^ 2 < r ^ 2 ∧ r ^ 2 ≤ u ^ 2 + u + v ^ 2

/-- From a step on the circle with enough fuel, CIRCLE's loop visits the rest of the octant. -/
theorem mem_circleSteps {r : Int} (fuel : Nat) (px py d : Int) (h0 : 0 ≤ py) (hle : py ≤ px)
    (hfuel : px - py < fuel) (hon : onOctant r px py) (hd : d = px ^ 2 - px + (py + 1) ^ 2 - r ^ 2) (u v : Int) :
    (u, v) ∈ circleSteps fuel px py d ↔ py ≤ v ∧ v ≤ u ∧ onOctant r u v := by
  induction fuel generalizing px py d with
  | zero => omega
  | succ fuel ih =>
    obtain ⟨hlo, hhi⟩ := hon
    have huniq : ∀ u, 0 ≤ u → onOctant r u py → u = px := by
      rintro u hu ⟨h1, h2⟩
      rcases lt_trichotomy u px with h | h | h
      · exfalso; nlinarith
      · exact h
      · exfalso; nlinarith
    rw [circleSteps, if_pos hle, List.mem_cons, Prod.mk.injEq]
    by_cases hneg : d < 0
    · rw [if_pos hneg]
      have hgt : py + 1 ≤ px := by
        by_contra hc
        have : px = py := by omega
        subst this
        nlinarith
      rw [ih px (py + 1) _ (by omega) hgt (by push_cast at hfuel; omega)
        ⟨by nlinarith, by nlinarith⟩ (by rw [hd]; ring)]
      constructor
      · rintro (⟨rfl, rfl⟩ | ⟨h1, h2, h3⟩)
        · exact ⟨le_refl _, hle, hlo, hhi⟩
        · exact ⟨by omega, h2, h3⟩
      · rintro ⟨h1, h2, h3⟩
        rcases Int.lt_or_eq_of_le h1 with h | h
        · exact .inr ⟨by omega, h2, h3⟩
        · subst h; exact .inl ⟨huniq u (by omega) h3, rfl⟩
    · rw [if_neg hneg]
      by_cases hgt : py + 1 ≤ px - 1
      · rw [ih (px - 1) (py + 1) _ (by omega) hgt (by push_cast at hfuel; omega)
          ⟨by nlinarith, by nlinarith⟩ (by rw [hd]; ring)]
        constructor
        · rintro (⟨rfl, rfl⟩ | ⟨h1, h2, h3⟩)
          · exact ⟨le_refl _, hle, hlo, hhi⟩
          · exact ⟨by omega, h2, h3⟩
        · rintro ⟨h1, h2, h3⟩
          rcases Int.lt_or_eq_of_le h1 with h | h
          · exact .inr ⟨by omega, h2, h3⟩
          · subst h; exact .inl ⟨huniq u (by omega) h3, rfl⟩
      · have hend : circleSteps fuel (px - 1) (py + 1)
            (d + 2 * (py + 1 - (px - 1)) + 1) = [] := by
          cases fuel with
          | zero => rfl
          | succ fuel => rw [circleSteps, if_neg (by omega)]
        rw [hend]
        simp only [List.not_mem_nil, or_false]
        constructor
        · rintro ⟨rfl, rfl⟩; exact ⟨le_refl _, hle, hlo, hhi⟩
        · rintro ⟨h1, h2, h3⟩
          rcases Int.lt_or_eq_of_le h1 with h | h
          · exfalso
            obtain ⟨h4, h5⟩ := h3
            have hu : px ≤ u := by omega
            nlinarith
          · subst h; exact ⟨huniq u (by omega) h3, rfl⟩

theorem mem_octants {x y px py : Int} (hx : 0 ≤ px) (hy : 0 ≤ py) {p : Point} :
    p ∈ octants x y px py ↔
      (|p.x - x| = px ∧ |p.y - y| = py) ∨ (|p.x - x| = py ∧ |p.y - y| = px) := by
  obtain ⟨a, b⟩ := p
  simp only [octants, List.mem_cons, List.not_mem_nil, Point.mk.injEq, or_false]
  rw [abs_eq hx, abs_eq hy, abs_eq hx, abs_eq hy]
  omega

/-- CIRCLE draws the points of its closed form. -/
theorem mem_circlePoints {x y r : Int} {p : Point} :
    p ∈ circlePoints x y r ↔ circleShape x y r p.x p.y := by
  obtain ⟨a, b⟩ := p
  unfold circlePoints circleShape
  rcases lt_trichotomy r 0 with hr | hr | hr
  · rw [if_neg (by omega)]
    simp only [List.not_mem_nil, false_iff]
    omega
  · subst hr
    rw [if_pos le_rfl]
    simp [circleSteps, octants]
  · rw [if_pos (by omega)]
    simp only [List.mem_flatMap]
    have hsteps := fun u v => mem_circleSteps (r := r) (r.toNat + 1) r 0 (1 - r) le_rfl (by omega)
      (by omega) ⟨by nlinarith, by nlinarith⟩ (by ring) u v
    have hor : ∀ u v : Int, (max |a - x| |b - y| = u ∧ min |a - x| |b - y| = v ∧ v ≤ u) ↔
        (v ≤ u ∧ ((|a - x| = u ∧ |b - y| = v) ∨ (|a - x| = v ∧ |b - y| = u))) := by
      intro u v; omega
    constructor
    · rintro ⟨⟨u, v⟩, hq, hp⟩
      obtain ⟨hv, huv, hon⟩ := (hsteps u v).1 hq
      have := (mem_octants (by omega) hv).1 hp
      obtain ⟨rfl, rfl, -⟩ := (hor u v).2 ⟨huv, this⟩
      exact .inr ⟨hr, hon⟩
    · rintro (⟨h, -⟩ | ⟨-, hon⟩)
      · omega
      · have ha := abs_nonneg (a - x)
        have hb := abs_nonneg (b - y)
        refine ⟨(max |a - x| |b - y|, min |a - x| |b - y|), (hsteps _ _).2 ⟨by omega, by omega, hon⟩, ?_⟩
        exact (mem_octants (by omega) (by omega)).2 ((hor _ _).1 ⟨rfl, rfl, by omega⟩).2

/-! ### Consequences for Line (42_rasterizer.md R165) -/

/-- The closed form does not depend on the order of the ends. -/
theorem lineShape_swap (x1 y1 x2 y2 lx ly : Int) : lineShape x1 y1 x2 y2 lx ly ↔ lineShape x2 y2 x1 y1 lx ly := by
  unfold lineShape
  have hx : |x1 - x2| = |x2 - x1| := abs_sub_comm _ _
  have hy : |y1 - y2| = |y2 - y1| := abs_sub_comm _ _
  rw [hx, hy]
  split_ifs with h1 h2 h3 h4 h5 <;> first | rfl | skip
  · have : x1 = x2 := by omega
    subst this
    have : y2 = y1 := by simp at h1; omega
    subst this; rfl
  · omega
  · have : y1 = y2 := by omega
    subst this; simp at h1
  · omega

/-- Both ends lie on a run. -/
theorem onMajorRun_ends {M1 m1 M2 m2 : Int} (h : M1 ≤ M2) (hle : |m2 - m1| ≤ M2 - M1) :
    lineShape.onMajorRun M1 m1 M2 m2 M1 m1 ∧ lineShape.onMajorRun M1 m1 M2 m2 M2 m2 := by
  unfold lineShape.onMajorRun
  constructor
  · refine ⟨0, le_refl _, by omega, by omega, ?_⟩
    have : (2 * 0 * |m2 - m1| + (M2 - M1)) / (2 * (M2 - M1)) = 0 := by
      rcases eq_or_lt_of_le h with e | e
      · subst e; simp
      · rw [mul_zero, zero_mul, zero_add]; exact Int.ediv_eq_zero_of_lt (by omega) (by omega)
    rw [this]; ring
  · refine ⟨M2 - M1, by omega, le_refl _, by omega, ?_⟩
    rcases eq_or_lt_of_le h with e | e
    · subst e
      have : m2 = m1 := by have := abs_nonneg (m2 - m1); have h0 : |m2 - m1| = 0 := by omega
                           have := abs_eq_zero.1 h0; omega
      subst this; simp
    · have : (2 * (M2 - M1) * |m2 - m1| + (M2 - M1)) / (2 * (M2 - M1)) = |m2 - m1| := by
        rw [Int.add_comm, Int.add_mul_ediv_left _ _ (by omega), Int.ediv_eq_zero_of_lt (by omega) (by omega), zero_add]
      rw [this, Int.sign_mul_abs]; ring

/-- Both ends lie on the line. -/
theorem lineShape_ends (x1 y1 x2 y2 : Int) : lineShape x1 y1 x2 y2 x1 y1 ∧ lineShape x1 y1 x2 y2 x2 y2 := by
  have hx : |x1 - x2| = |x2 - x1| := abs_sub_comm _ _
  have hy : |y1 - y2| = |y2 - y1| := abs_sub_comm _ _
  unfold lineShape
  split_ifs with h1 h2 h2
  · have e := abs_of_nonneg (show 0 ≤ x2 - x1 by omega)
    exact onMajorRun_ends h2 (by omega)
  · have e := abs_of_neg (show x2 - x1 < 0 by omega)
    exact (onMajorRun_ends (by omega) (by omega)).symm
  · have e := abs_of_nonneg (show 0 ≤ y2 - y1 by omega)
    exact onMajorRun_ends h2 (by omega)
  · have e := abs_of_neg (show y2 - y1 < 0 by omega)
    exact (onMajorRun_ends (by omega) (by omega)).symm

/-- Consecutive points of the loop differ by one major step and at most one minor step. -/
theorem bresenham_chain (dM dm step : Int) (hs : |step| ≤ 1) (n : Nat) (M m e : Int) :
    (bresenham dM dm step n M m e).IsChain (fun p q => q.1 = p.1 + 1 ∧ |q.2 - p.2| ≤ 1) ∧
      ∀ q ∈ (bresenham dM dm step n M m e).head?, q = (M, m) := by
  induction n generalizing M m e with
  | zero => simp [bresenham]
  | succ n ih =>
    simp only [bresenham]
    refine ⟨?_, by simp⟩
    rw [List.isChain_cons]
    split_ifs
    · refine ⟨fun q hq => ?_, (ih _ _ _).1⟩
      rw [(ih _ _ _).2 q hq]
      exact ⟨rfl, by simpa using hs⟩
    · refine ⟨fun q hq => ?_, (ih _ _ _).1⟩
      rw [(ih _ _ _).2 q hq]
      exact ⟨rfl, by simp⟩

theorem majorRun_chain (M1 m1 M2 m2 : Int) : (majorRun M1 m1 M2 m2).IsChain (fun p q => q.1 = p.1 + 1 ∧ |q.2 - p.2| ≤ 1) := by
  refine (bresenham_chain _ _ _ ?_ _ _ _ _).1
  rcases Int.sign_trichotomy (m2 - m1) with h | h | h <;> rw [h] <;> decide

end Sys2Proof.Machine
end

