-- ==== Sys2Proof/Laws/Decode.lean ====
section
/-! SUPPORT. The laws of decoding and encoding: the fields of a command word, the opcode map, byte areas, lengths. -/

namespace Sys2Proof

/-! ### The command word -/

@[simp] theorem opField_commandWord (op : Opcode) (m : Byte) : opField (commandWord op m) = op.byte := by
  unfold opField commandWord
  apply BitVec.eq_of_getLsbD_eq
  intro i hi
  simp only [BitVec.getLsbD_extractLsb', BitVec.getLsbD_append, hi, decide_true, Bool.true_and]
  have h1 : ¬ (24 + i < 8) := by omega
  have h2 : ¬ (24 + i - 8 < 16) := by omega
  have h3 : 24 + i - 8 - 16 = i := by omega
  simp [h1, h2, h3]

@[simp] theorem rsvField_commandWord (op : Opcode) (m : Byte) : rsvField (commandWord op m) = 0 := by
  unfold rsvField commandWord
  apply BitVec.eq_of_getLsbD_eq
  intro i hi
  simp only [BitVec.getLsbD_extractLsb', BitVec.getLsbD_append, hi, decide_true, Bool.true_and]
  have h1 : ¬ (8 + i < 8) := by omega
  have h2 : 8 + i - 8 < 16 := by omega
  simp only [h1, h2, if_false, if_true]
  simp

@[simp] theorem modField_commandWord (op : Opcode) (m : Byte) : modField (commandWord op m) = m := by
  unfold modField commandWord
  apply BitVec.eq_of_getLsbD_eq
  intro i hi
  simp only [BitVec.getLsbD_extractLsb', BitVec.getLsbD_append, hi, decide_true, Bool.true_and,
    Nat.zero_add, if_true]

/-- A word is its three fields (30_encoding.md R81). -/
theorem word_eq_fields (w : Word) : opField w ++ rsvField w ++ modField w = w := by
  apply BitVec.eq_of_getLsbD_eq
  intro i hi
  simp only [opField, rsvField, modField, BitVec.getLsbD_extractLsb', BitVec.getLsbD_append]
  by_cases h1 : i < 8
  · simp [h1]
  · by_cases h2 : i - 8 < 16
    · have : 8 + (i - 8) = i := by omega
      simp [h1, h2, this]
    · have h3 : i - 8 - 16 < 8 := by omega
      have : 24 + (i - 8 - 16) = i := by omega
      simp [h1, h2, h3, this]

/-! ### Opcodes and modifiers -/

@[simp] theorem ofByte_byte (op : Opcode) : Opcode.ofByte op.byte = some op := by
  cases op <;> rfl

/-- The opcode found for an OP value has that value. -/
theorem byte_of_ofByte {b : Byte} {op : Opcode} (h : Opcode.ofByte b = some op) : op.byte = b := by
  have := List.find?_some h
  simpa using this

@[simp] theorem colourOfMod_modOfColour (c : Color) : colourOfMod (modOfColour c) = c := by
  cases c <;> rfl

@[simp] theorem orientOfMod_modOfOrient (o : Orientation) : orientOfMod (modOfOrient o) = o := by
  cases o <;> rfl

@[simp] theorem reservedSet_colour (c : Color) : ModForm.colour.reservedSet (modOfColour c) = false := by
  cases c <;> rfl

@[simp] theorem reservedSet_orient (o : Orientation) : ModForm.orient.reservedSet (modOfOrient o) = false := by
  cases o <;> rfl

@[simp] theorem reservedSet_zero : ModForm.zero.reservedSet 0 = false := rfl

/-- Without a reserved bit MOD of form C is the colour's. -/
theorem modOfColour_colourOfMod {m : Byte} (h : ModForm.colour.reservedSet m = false) :
    modOfColour (colourOfMod m) = m := by
  revert h; revert m; decide

/-- Without a reserved bit MOD of form O is the orientation's. -/
theorem modOfOrient_orientOfMod {m : Byte} (h : ModForm.orient.reservedSet m = false) :
    modOfOrient (orientOfMod m) = m := by
  revert h; revert m; decide

/-- Without a reserved bit MOD of form Z is 0. -/
theorem zero_of_reservedSet {m : Byte} (h : ModForm.zero.reservedSet m = false) : m = 0 := by
  simpa [ModForm.reservedSet] using h

@[simp] theorem polarityOf_word (p : Polarity) : polarityOf p.word = some p := by cases p <;> rfl

theorem word_of_polarityOf {w : Word} {p : Polarity} (h : polarityOf w = some p) : p.word = w := by
  unfold polarityOf at h
  split_ifs at h with h0 h1
  · cases h; exact h0.symm
  · cases h; exact h1.symm

/-- POL is taken for 0 and 1 and for no other word (30_encoding.md R88). -/
theorem polarityOf_eq_none {w : Word} : polarityOf w = none ↔ 1 < w.toNat := by
  unfold polarityOf
  split_ifs with h0 h1
  · subst h0; simp
  · subst h1; simp
  · simp only [true_iff]
    have h2 : w.toNat ≠ 0 := fun h => h0 (BitVec.eq_of_toNat_eq (by simpa using h))
    have h3 : w.toNat ≠ 1 := fun h => h1 (BitVec.eq_of_toNat_eq (by simpa using h))
    omega

/-! ### Byte areas -/

theorem byteAt_packWord (b0 b1 b2 b3 : Byte) (rest : List Word) :
    byteAt (packWord b0 b1 b2 b3 :: rest) 0 = b0 ∧ byteAt (packWord b0 b1 b2 b3 :: rest) 1 = b1 ∧
      byteAt (packWord b0 b1 b2 b3 :: rest) 2 = b2 ∧ byteAt (packWord b0 b1 b2 b3 :: rest) 3 = b3 := by
  refine ⟨?_, ?_, ?_, ?_⟩ <;>
  · apply BitVec.eq_of_getLsbD_eq
    intro i hi
    simp only [byteAt, packWord, List.getD_cons_zero, Nat.reduceDiv, Nat.reduceMod, Nat.reduceMul,
      BitVec.getLsbD_extractLsb', BitVec.getLsbD_append, hi, decide_true, Bool.true_and]
    split_ifs <;> first | omega | (congr 1; omega)

theorem byteAt_cons (w : Word) (area : List Word) (k : Nat) : byteAt (w :: area) (k + 4) = byteAt area k := by
  unfold byteAt
  have h1 : (k + 4) / 4 = k / 4 + 1 := by omega
  have h2 : (k + 4) % 4 = k % 4 := by omega
  rw [h1, h2, List.getD_cons_succ]

/-- The bytes of a packed area (30_encoding.md R87). -/
theorem byteAt_packBytes (bs : List Byte) (k : Nat) (hk : k < bs.length) :
    byteAt (packBytes bs) k = bs[k] := by
  induction bs using packBytes.induct generalizing k with
  | case1 => simp at hk
  | case2 b0 =>
    obtain ⟨h0, -⟩ := byteAt_packWord b0 0 0 0 []
    have : k = 0 := by simpa using hk
    subst this; exact h0
  | case3 b0 b1 =>
    obtain ⟨h0, h1, -⟩ := byteAt_packWord b0 b1 0 0 []
    have : k < 2 := by simpa using hk
    interval_cases k
    · exact h0
    · exact h1
  | case4 b0 b1 b2 =>
    obtain ⟨h0, h1, h2, -⟩ := byteAt_packWord b0 b1 b2 0 []
    have : k < 3 := by simpa using hk
    interval_cases k
    · exact h0
    · exact h1
    · exact h2
  | case5 b0 b1 b2 b3 rest ih =>
    obtain ⟨h0, h1, h2, h3⟩ := byteAt_packWord b0 b1 b2 b3 (packBytes rest)
    by_cases h : k < 4
    · interval_cases k
      · exact h0
      · exact h1
      · exact h2
      · exact h3
    · obtain ⟨k, rfl⟩ : ∃ j, k = j + 4 := ⟨k - 4, by omega⟩
      rw [packBytes, byteAt_cons, ih k (by simpa using hk)]
      simp

/-- Reading back a packed area gives the bytes. -/
theorem bytesOfArea_packBytes (bs : List Byte) : bytesOfArea bs.length (packBytes bs) = bs := by
  refine List.ext_getElem (by simp [bytesOfArea]) fun k h1 h2 => ?_
  simp only [bytesOfArea, List.getElem_map, List.getElem_range]
  exact byteAt_packBytes bs k h2

/-- The words of a packed area (30_encoding.md R86). -/
@[simp] theorem length_packBytes (bs : List Byte) : (packBytes bs).length = areaWords bs.length := by
  induction bs using packBytes.induct with
  | case1 => rfl
  | case2 b0 => simp [packBytes, areaWords]
  | case3 b0 b1 => simp [packBytes, areaWords]
  | case4 b0 b1 b2 => simp [packBytes, areaWords]
  | case5 b0 b1 b2 b3 rest ih =>
    simp only [packBytes, List.length_cons, ih, areaWords]
    omega

@[simp] theorem length_bytesOfArea (n : Nat) (area : List Word) : (bytesOfArea n area).length = n := by
  simp [bytesOfArea]

/-! ### The operands of the variable-length forms -/

theorem operands_text (m : Byte) (x y len : Word) (area : List Word) :
    operands .text m (x :: y :: len :: area) =
      some (.text (colourOfMod m) x y (bytesOfArea len.toNat area)) := rfl

theorem operands_drawBmp (m : Byte) (x y bw bh depth pol len : Word) (area : List Word) :
    operands .drawBmp m (x :: y :: bw :: bh :: depth :: pol :: len :: area) =
      (polarityOf pol).map fun p => .drawBmp x y bw bh depth p (bytesOfArea len.toNat area) := rfl

/-! ### The packet limit -/

/-- A packet is too long exactly when the port does not take its length (30_encoding.md R88). -/
theorem exceededBy_eq (limit : PktLimit) (n : Nat) : limit.exceededBy n = !limit.admits n := by
  cases limit with
  | unbounded => simp [PktLimit.exceededBy, PktLimit.admits]
  | beyondEight extra =>
    simp only [PktLimit.exceededBy, PktLimit.admits]
    by_cases h : n ≤ 8 + extra
    · have h' : ¬ (8 + extra < n) := by omega
      simp [h, h']
    · have h' : 8 + extra < n := by omega
      have h8 : 8 < n := by omega
      simp [h, h', h8]

/-- What decoding a packet that is not too long, of an assigned opcode, without reserved bits and of the right length gives. -/
theorem decode_of_tests {limit : PktLimit} {w0 : Word} {ops : List Word} {op : Opcode}
    (h1 : limit.admits (ops.length + 1) = true) (h2 : Opcode.ofByte (opField w0) = some op)
    (h3 : rsvField w0 = 0) (h4 : op.form.reservedSet (modField w0) = false)
    (h5 : op.length ops = some (ops.length + 1)) :
    decode limit (w0 :: ops) =
      match operands op (modField w0) ops with
      | none => .error .malformedPacket
      | some i => .ok i := by
  simp only [decode, exceededBy_eq, h1, h2, h3, h4, h5, Bool.not_true, Bool.false_eq_true, if_false, ne_eq,
    not_true_eq_false]
  all_goals cases operands op (modField w0) ops <;> rfl

/-- What a packet that decodes has passed (30_encoding.md R91). -/
theorem tests_of_decode {limit : PktLimit} {pkt : Packet} {i : Instr} (h : decode limit pkt = .ok i) :
    ∃ w0 ops op, pkt = w0 :: ops ∧ limit.admits (ops.length + 1) = true ∧
      Opcode.ofByte (opField w0) = some op ∧ rsvField w0 = 0 ∧ op.form.reservedSet (modField w0) = false ∧
      op.length ops = some (ops.length + 1) ∧ operands op (modField w0) ops = some i := by
  cases pkt with
  | nil => simp [decode] at h
  | cons w0 ops =>
    simp only [decode, exceededBy_eq] at h
    by_cases h1 : limit.admits (ops.length + 1) = true
    · cases h2 : Opcode.ofByte (opField w0) with
      | none => simp [h1, h2] at h
      | some op =>
        simp only [h1, h2, Bool.not_true, Bool.false_eq_true, if_false] at h
        split_ifs at h with h3 h4 h5
        cases h6 : operands op (modField w0) ops with
        | none => simp [h6] at h
        | some j =>
          simp only [h6, Except.ok.injEq] at h
          subst h
          exact ⟨w0, ops, op, rfl, h1, h2, by simpa using h3, by simpa using h4, by simpa using h5, h6⟩
    · simp [h1] at h

/-! ### Packets and their bytes -/

theorem commandWord_of_fields {w0 : Word} {op : Opcode} (h1 : Opcode.ofByte (opField w0) = some op)
    (h2 : rsvField w0 = 0) : w0 = commandWord op (modField w0) := by
  have h := word_eq_fields w0
  rw [h2, ← byte_of_ofByte h1] at h
  exact h.symm

theorem word_ext_bytes {v w : Word} (h : ∀ b < 4, v.extractLsb' (8 * b) 8 = w.extractLsb' (8 * b) 8) : v = w := by
  apply BitVec.eq_of_getLsbD_eq
  intro i hi
  have := congrArg (fun x => x.getLsbD (i % 8)) (h (i / 8) (by omega))
  simp only [BitVec.getLsbD_extractLsb'] at this
  have h8 : i % 8 < 8 := by omega
  have hs : 8 * (i / 8) + i % 8 = i := by omega
  simpa [h8, hs] using this

theorem getElem_eq_of_bytes {p q : List Word} {j n : Nat} (h : ∀ k < n, byteAt p k = byteAt q k) (hj : 4 * j + 4 ≤ n) :
    p.getD j 0 = q.getD j 0 := by
  refine word_ext_bytes fun b hb => ?_
  have := h (4 * j + b) (by omega)
  simp only [byteAt] at this
  have e1 : (4 * j + b) / 4 = j := by omega
  have e2 : (4 * j + b) % 4 = b := by omega
  rwa [e1, e2] at this

theorem eq_of_bytes {p q : List Word} (hl : p.length = q.length) (h : ∀ k < 4 * q.length, byteAt p k = byteAt q k) :
    p = q := by
  refine List.ext_getElem hl fun j h1 h2 => ?_
  have := getElem_eq_of_bytes (j := j) h (by omega)
  rwa [List.getD_eq_getElem _ _ h1, List.getD_eq_getElem _ _ h2] at this

theorem byteAt_cons4 (a b c d : Word) (area : List Word) (k : Nat) : byteAt (a :: b :: c :: d :: area) (16 + k) = byteAt area k := by
  rw [show 16 + k = k + 4 + 4 + 4 + 4 by omega, byteAt_cons, byteAt_cons, byteAt_cons, byteAt_cons]

theorem byteAt_cons8 (a b c d e f g h : Word) (area : List Word) (k : Nat) :
    byteAt (a :: b :: c :: d :: e :: f :: g :: h :: area) (32 + k) = byteAt area k := by
  rw [show 32 + k = 16 + (16 + k) by omega, byteAt_cons4, byteAt_cons4]

theorem byteAt_bytesOfArea (n : Nat) (area : List Word) (k : Nat) (hk : k < n) :
    byteAt (packBytes (bytesOfArea n area)) k = byteAt area k := by
  rw [byteAt_packBytes _ _ (by simpa using hk)]
  simp [bytesOfArea]

theorem byteAt_head (p q : List Word) (n k : Nat) (h : ∀ j < n, p.getD j 0 = q.getD j 0) (hk : k < 4 * n) : byteAt p k = byteAt q k := by
  unfold byteAt
  rw [h (k / 4) (by omega)]

theorem text_bytes {w0 x y len : Word} {area : List Word} (h4 : ModForm.colour.reservedSet (modField w0) = false)
    (hw : w0 = commandWord .text (modField w0)) (k : Nat) (hk : k < 16 + len.toNat) :
    byteAt (w0 :: x :: y :: len :: area) k =
      byteAt (encode (.text (colourOfMod (modField w0)) x y (bytesOfArea len.toNat area))) k := by
  have he : encode (.text (colourOfMod (modField w0)) x y (bytesOfArea len.toNat area)) =
      w0 :: x :: y :: len :: packBytes (bytesOfArea len.toNat area) := by
    rw [encode, modOfColour_colourOfMod h4, ← hw, length_bytesOfArea, BitVec.ofNat_toNat, BitVec.setWidth_eq]
  rw [he]
  by_cases hk' : k < 16
  · exact byteAt_head _ _ 4 k (fun j hj => by interval_cases j <;> rfl) hk'
  · obtain ⟨m, rfl⟩ : ∃ m, k = 16 + m := ⟨k - 16, by omega⟩
    rw [byteAt_cons4, byteAt_cons4, byteAt_bytesOfArea _ _ _ (by omega)]

theorem drawBmp_bytes {w0 x y bw bh depth pol len : Word} {area : List Word} {p : Polarity} 
    (h4 : ModForm.zero.reservedSet (modField w0) = false) (hp : polarityOf pol = some p)
    (hw : w0 = commandWord .drawBmp (modField w0)) (k : Nat) (hk : k < 32 + len.toNat) :
    byteAt (w0 :: x :: y :: bw :: bh :: depth :: pol :: len :: area) k =
      byteAt (encode (.drawBmp x y bw bh depth p (bytesOfArea len.toNat area))) k := by
  have he : encode (.drawBmp x y bw bh depth p (bytesOfArea len.toNat area)) =
      w0 :: x :: y :: bw :: bh :: depth :: pol :: len :: packBytes (bytesOfArea len.toNat area) := by
    rw [encode, ← zero_of_reservedSet h4, ← hw, word_of_polarityOf hp, length_bytesOfArea, BitVec.ofNat_toNat, BitVec.setWidth_eq]
  rw [he]
  by_cases hk' : k < 32
  · exact byteAt_head _ _ 8 k (fun j hj => by interval_cases j <;> rfl) hk'
  · obtain ⟨m, rfl⟩ : ∃ m, k = 32 + m := ⟨k - 32, by omega⟩
    rw [byteAt_cons8, byteAt_cons8, byteAt_bytesOfArea _ _ _ (by omega)]

theorem operands_cases {op : Opcode} {m : Byte} {ops : List Word} {i : Instr} (h : operands op m ops = some i) 
    (h4 : op.form.reservedSet m = false) (hlen : op.length ops = some (ops.length + 1)) :
    (i.countFits = true ∧ ops.length + 1 = i.packetWords) ∧
    (encode i = commandWord op m :: ops ∨
    (∃ x y len area, op = .text ∧ ops = x :: y :: len :: area ∧ i = .text (colourOfMod m) x y (bytesOfArea len.toNat area)) ∨
    (∃ x y bw bh depth pol len area p, op = .drawBmp ∧ ops = x :: y :: bw :: bh :: depth :: pol :: len :: area ∧
      polarityOf pol = some p ∧ i = .drawBmp x y bw bh depth p (bytesOfArea len.toNat area))) := by
  have z : op.form = .zero → m = 0 := fun e => zero_of_reservedSet (by rwa [e] at h4)
  have cc : op.form = .colour → modOfColour (colourOfMod m) = m := fun e => modOfColour_colourOfMod (by rwa [e] at h4)
  have oo : op.form = .orient → modOfOrient (orientOfMod m) = m := fun e => modOfOrient_orientOfMod (by rwa [e] at h4)
  cases op with
  | text =>
    match ops, h, hlen with
    | x :: y :: len :: area, h, hlen =>
      cases h
      simp only [Opcode.length, List.getElem?_cons_succ, List.getElem?_cons_zero, Option.map_some, Option.some.injEq] at hlen
      refine ⟨⟨?_, ?_⟩, .inr (.inl ⟨x, y, len, area, rfl, rfl, rfl⟩)⟩
      · simp only [Instr.countFits, length_bytesOfArea, decide_eq_true_eq]; exact len.isLt
      · rw [← hlen]; simp only [Instr.packetWords, length_bytesOfArea, areaWords]
    | [], h, _ => cases h
    | [_], h, _ => cases h
    | [_, _], h, _ => cases h
  | drawBmp =>
    match ops, h, hlen with
    | x :: y :: bw :: bh :: depth :: pol :: len :: area, h, hlen =>
      obtain ⟨p, hp, h⟩ := Option.map_eq_some_iff.1 h
      subst h
      simp only [Opcode.length, List.getElem?_cons_succ, List.getElem?_cons_zero, Option.map_some, Option.some.injEq] at hlen
      refine ⟨⟨?_, ?_⟩, .inr (.inr ⟨x, y, bw, bh, depth, pol, len, area, p, rfl, rfl, hp, rfl⟩)⟩
      · simp only [Instr.countFits, length_bytesOfArea, decide_eq_true_eq]; exact len.isLt
      · rw [← hlen]; simp only [Instr.packetWords, length_bytesOfArea, areaWords]
    | [], h, _ => cases h
    | [_], h, _ => cases h
    | [_, _], h, _ => cases h
    | [_, _, _], h, _ => cases h
    | [_, _, _, _], h, _ => cases h
    | [_, _, _, _, _], h, _ => cases h
    | [_, _, _, _, _, _], h, _ => cases h
  | init | display | clear | fillBlack | sleep | resetDisplay | getStatus =>
    match ops, h with
    | [], h => cases h; exact ⟨⟨rfl, rfl⟩, .inl (by rw [z rfl]; rfl)⟩
    | _ :: _, h => cases h
  | fbGetpx =>
    match ops, h with
    | [_, _], h => cases h; exact ⟨⟨rfl, rfl⟩, .inl (by rw [z rfl]; rfl)⟩
    | [], h => cases h
    | [_], h => cases h
    | _ :: _ :: _ :: _, h => cases h
  | fbRead =>
    match ops, h with
    | [_], h => cases h; exact ⟨⟨rfl, rfl⟩, .inl (by rw [z rfl]; rfl)⟩
    | [], h => cases h
    | _ :: _ :: _, h => cases h
  | fbFill =>
    match ops, h with
    | [], h => cases h; exact ⟨⟨rfl, rfl⟩, .inl (by rw [encode, cc rfl])⟩
    | _ :: _, h => cases h
  | setOrient | getDims =>
    match ops, h with
    | [], h => cases h; exact ⟨⟨rfl, rfl⟩, .inl (by rw [encode, oo rfl])⟩
    | _ :: _, h => cases h
  | fbSetpx | pixel =>
    match ops, h with
    | [_, _], h => cases h; exact ⟨⟨rfl, rfl⟩, .inl (by rw [encode, cc rfl])⟩
    | [], h => cases h
    | [_], h => cases h
    | _ :: _ :: _ :: _, h => cases h
  | map | unmap =>
    match ops, h with
    | [_, _], h => cases h; exact ⟨⟨rfl, rfl⟩, .inl (by rw [encode, oo rfl])⟩
    | [], h => cases h
    | [_], h => cases h
    | _ :: _ :: _ :: _, h => cases h
  | hline | vline | circle =>
    match ops, h with
    | [_, _, _], h => cases h; exact ⟨⟨rfl, rfl⟩, .inl (by rw [encode, cc rfl])⟩
    | [], h => cases h
    | [_], h => cases h
    | [_, _], h => cases h
    | _ :: _ :: _ :: _ :: _, h => cases h
  | line | rect | fillRect =>
    match ops, h with
    | [_, _, _, _], h => cases h; exact ⟨⟨rfl, rfl⟩, .inl (by rw [encode, cc rfl])⟩
    | [], h => cases h
    | [_], h => cases h
    | [_, _], h => cases h
    | [_, _, _], h => cases h
    | _ :: _ :: _ :: _ :: _ :: _, h => cases h

theorem operands_eq_none {op : Opcode} {m : Byte} {ops : List Word} (hlen : op.length ops = some (ops.length + 1)) :
    operands op m ops = none ↔ op = .drawBmp ∧ ∃ p, ops[5]? = some p ∧ 1 < p.toNat := by
  cases op with
  | drawBmp =>
    match ops, hlen with
    | x :: y :: bw :: bh :: depth :: pol :: len :: area, _ =>
      rw [operands_drawBmp, Option.map_eq_none_iff, polarityOf_eq_none]
      simp
    | [], h => cases h
    | [_], h => cases h
    | [_, _], h => cases h
    | [_, _, _], h => cases h
    | [_, _, _, _], h => cases h
    | [_, _, _, _, _], h => cases h
    | [_, _, _, _, _, _], h => cases h
  | text =>
    match ops, hlen with
    | x :: y :: len :: area, _ => rw [operands_text]; simp
    | [], h => cases h
    | [_], h => cases h
    | [_, _], h => cases h
  | init | display | clear | fillBlack | sleep | resetDisplay | getStatus | fbFill | setOrient | getDims =>
    match ops, hlen with
    | [], _ => exact ⟨fun h => (by cases h), fun h => (by cases h.1)⟩
    | _ :: _, h => simp [Opcode.length] at h
  | fbRead =>
    match ops, hlen with
    | [_], _ => exact ⟨fun h => (by cases h), fun h => (by cases h.1)⟩
    | [], h => simp [Opcode.length] at h
    | _ :: _ :: _, h => simp [Opcode.length] at h
  | fbSetpx | fbGetpx | pixel | map | unmap =>
    match ops, hlen with
    | [_, _], _ => exact ⟨fun h => (by cases h), fun h => (by cases h.1)⟩
    | [], h => simp [Opcode.length] at h
    | [_], h => simp [Opcode.length] at h
    | _ :: _ :: _ :: _, h => simp [Opcode.length] at h
  | hline | vline | circle =>
    match ops, hlen with
    | [_, _, _], _ => exact ⟨fun h => (by cases h), fun h => (by cases h.1)⟩
    | [], h => simp [Opcode.length] at h
    | [_], h => simp [Opcode.length] at h
    | [_, _], h => simp [Opcode.length] at h
    | _ :: _ :: _ :: _ :: _, h => simp [Opcode.length] at h
  | line | rect | fillRect =>
    match ops, hlen with
    | [_, _, _, _], _ => exact ⟨fun h => (by cases h), fun h => (by cases h.1)⟩
    | [], h => simp [Opcode.length] at h
    | [_], h => simp [Opcode.length] at h
    | [_, _], h => simp [Opcode.length] at h
    | [_, _, _], h => simp [Opcode.length] at h
    | _ :: _ :: _ :: _ :: _ :: _, h => simp [Opcode.length] at h

theorem reservedSet_iff (op : Opcode) (w0 : Word) : op.form.reservedSet (modField w0) = true ↔
        ((op.form = .colour ∧ w0.extractLsb' 1 7 ≠ 0) ∨ (op.form = .orient ∧ w0.extractLsb' 2 6 ≠ 0) ∨
          (op.form = .zero ∧ w0.extractLsb' 0 8 ≠ 0)) := by
      have e1 : (modField w0).extractLsb' 1 7 = w0.extractLsb' 1 7 := by
        apply BitVec.eq_of_getLsbD_eq; intro i hi
        simp only [modField, BitVec.getLsbD_extractLsb', hi, decide_true, Bool.true_and, Nat.zero_add, show 1 + i < 8 by omega]
      have e2 : (modField w0).extractLsb' 2 6 = w0.extractLsb' 2 6 := by
        apply BitVec.eq_of_getLsbD_eq; intro i hi
        simp only [modField, BitVec.getLsbD_extractLsb', hi, decide_true, Bool.true_and, Nat.zero_add, show 2 + i < 8 by omega]
      cases hf : op.form
      · simp [ModForm.reservedSet, e1]
      · simp [ModForm.reservedSet, e2]
      · simp [ModForm.reservedSet, modField]


end Sys2Proof
end

