-- ==== Sys2Proof/Laws/Memory.lean ====
section
/-! SUPPORT. The laws of the frame buffer as memory: reading after writing, the canonical form, equality by content. -/

namespace Sys2Proof.Machine.Memory

/-- The indices of a memory rise strictly. -/
abbrev Sorted (m : Memory) : Prop := m.Pairwise (fun x y => x.1 < y.1)

@[simp] theorem read_nil (a : Nat) : Memory.read [] a = Memory.unlisted := rfl

/-- Below every listed index, memory reads as unlisted. -/
theorem read_below {m : Memory} {a : Nat} (h : ∀ e ∈ m, a < e.1) : Memory.read m a = Memory.unlisted := by
  cases m with
  | nil => rfl
  | cons e m =>
    have := h e (by simp)
    simp only [Memory.read]
    rw [if_neg (by omega), if_pos this]

theorem read_entry {m : Memory} {a : Nat} (v : Byte) (b : Nat) (h : ∀ e ∈ m, a < e.1) :
    Memory.read (entry a v m) b = if b = a then v else Memory.read m b := by
  unfold entry
  by_cases hv : v = Memory.unlisted
  · rw [if_pos hv]
    by_cases hb : b = a
    · subst hb; simp [hv, read_below h]
    · simp [hb]
  · rw [if_neg hv]
    simp only [Memory.read]
    by_cases hb : b = a
    · simp [hb]
    · rw [if_neg hb, if_neg hb]
      by_cases hlt : b < a
      · rw [if_pos hlt, read_below fun e he => lt_trans hlt (h e he)]
      · rw [if_neg hlt]

/-- Reading after writing: the written byte has the new value, every other byte the old one. -/
theorem read_write {m : Memory} (h : Sorted m) (a : Nat) (v : Byte) (b : Nat) :
    Memory.read (write m a v) b = if b = a then v else Memory.read m b := by
  induction m with
  | nil => simpa [write] using read_entry (m := []) (a := a) v b (by simp)
  | cons e m ih =>
    obtain ⟨k, w⟩ := e
    obtain ⟨hk, hm⟩ := List.pairwise_cons.1 h
    simp only [write]
    by_cases h1 : a < k
    · rw [if_pos h1]
      refine read_entry v b fun e he => ?_
      rcases List.mem_cons.1 he with rfl | he
      · exact h1
      · exact lt_trans h1 (hk e he)
    · rw [if_neg h1]
      by_cases h2 : a = k
      · subst h2
        rw [if_pos rfl, read_entry v b hk]
        by_cases hb : b = a
        · simp [hb]
        · simp only [hb, if_false, Memory.read]
          by_cases hlt : b < a
          · rw [if_pos hlt, read_below fun e he => lt_trans hlt (hk e he)]
          · rw [if_neg hlt]
      · rw [if_neg h2]
        simp only [Memory.read, ih hm]
        by_cases hb : b = a
        · rw [if_neg (by omega), if_neg (by omega), if_pos hb, if_pos hb]
        · simp [hb]

theorem mem_entry {m : Memory} {a : Nat} {v : Byte} {e : Host.Cell} (h : e ∈ entry a v m) :
    (e = (a, v) ∧ v ≠ Memory.unlisted) ∨ e ∈ m := by
  unfold entry at h
  split_ifs at h with hv
  · exact .inr h
  · rcases List.mem_cons.1 h with h | h
    · exact .inl ⟨h, hv⟩
    · exact .inr h

theorem mem_write {m : Memory} {a : Nat} {v : Byte} {e : Host.Cell} (h : e ∈ write m a v) :
    (e = (a, v) ∧ v ≠ Memory.unlisted) ∨ e ∈ m := by
  induction m with
  | nil => simpa using mem_entry h
  | cons f m ih =>
    obtain ⟨k, w⟩ := f
    simp only [write] at h
    split_ifs at h with h1 h2
    · exact mem_entry h
    · exact (mem_entry h).imp id (List.mem_cons_of_mem _)
    · rcases List.mem_cons.1 h with h | h
      · exact .inr (by simp [h])
      · exact (ih h).imp id (List.mem_cons_of_mem _)

theorem sorted_entry {m : Memory} {a : Nat} (v : Byte) (hm : Sorted m) (h : ∀ e ∈ m, a < e.1) :
    Sorted (entry a v m) := by
  unfold entry
  split_ifs
  · exact hm
  · exact List.pairwise_cons.2 ⟨h, hm⟩

theorem sorted_write {m : Memory} (h : Sorted m) (a : Nat) (v : Byte) : Sorted (write m a v) := by
  induction m with
  | nil => exact sorted_entry v .nil (by simp)
  | cons e m ih =>
    obtain ⟨k, w⟩ := e
    obtain ⟨hk, hm⟩ := List.pairwise_cons.1 h
    simp only [write]
    split_ifs with h1 h2
    · refine sorted_entry v h fun e he => ?_
      rcases List.mem_cons.1 he with rfl | he
      · exact h1
      · exact lt_trans h1 (hk e he)
    · subst h2; exact sorted_entry v hm hk
    · refine List.pairwise_cons.2 ⟨fun e he => ?_, ih hm⟩
      rcases mem_write he with ⟨rfl, -⟩ | he
      · simp only; omega
      · exact hk e he

/-- A write inside FB keeps the canonical form. -/
theorem wf_write {m : Memory} (h : wf m) {a : Nat} (ha : a < fbBytes) (v : Byte) : wf (write m a v) := by
  obtain ⟨hs, hr, hu⟩ := h
  refine ⟨sorted_write hs a v, fun e he => ?_, fun e he => ?_⟩
  · rcases mem_write he with ⟨rfl, -⟩ | he
    · exact ha
    · exact hr e he
  · rcases mem_write he with ⟨rfl, hv⟩ | he
    · exact hv
    · exact hu e he

theorem wf_nil : wf [] := by simp [wf]

theorem wf_listed {v : Byte} (hv : v ≠ Memory.unlisted) :
    wf ((List.range fbBytes).map fun i => (i, v)) := by
  refine ⟨?_, ?_, ?_⟩
  · rw [List.pairwise_map]; exact List.pairwise_lt_range
  · intro e he
    obtain ⟨i, hi, rfl⟩ := List.mem_map.1 he
    exact List.mem_range.1 hi
  · intro e he
    obtain ⟨i, -, rfl⟩ := List.mem_map.1 he
    exact hv

/-- The fill is in canonical form. -/
theorem wf_fill (v : Byte) : wf (fill v) := by
  unfold fill
  split_ifs with hv
  · exact wf_nil
  · exact wf_listed hv

theorem read_of_mem {m : Memory} (h : Sorted m) {a : Nat} {v : Byte} (hm : (a, v) ∈ m) :
    Memory.read m a = v := by
  induction m with
  | nil => simp at hm
  | cons e m ih =>
    obtain ⟨k, w⟩ := e
    obtain ⟨hk, hs⟩ := List.pairwise_cons.1 h
    rcases List.mem_cons.1 hm with heq | hm
    · cases heq; simp [Memory.read]
    · have := hk _ hm
      simp only at this
      simp only [Memory.read]
      rw [if_neg (by omega), if_neg (by omega), ih hs hm]

theorem read_of_not_mem {m : Memory} {a : Nat} (h : ∀ e ∈ m, e.1 ≠ a) :
    Memory.read m a = Memory.unlisted := by
  induction m with
  | nil => rfl
  | cons e m ih =>
    have h1 := h e (by simp)
    simp only [Memory.read]
    rw [if_neg (Ne.symm h1)]
    split_ifs
    · rfl
    · exact ih fun e he => h e (List.mem_cons_of_mem _ he)

/-- After a fill every byte of FB has the filled value. -/
theorem read_fill (v : Byte) {a : Nat} (ha : a < fbBytes) : Memory.read (fill v) a = v := by
  unfold fill
  split_ifs with hv
  · simp [hv]
  · exact read_of_mem (wf_listed hv).1 (List.mem_map.2 ⟨a, List.mem_range.2 ha, rfl⟩)

/-- Outside FB a memory in canonical form reads as unlisted. -/
theorem read_outside {m : Memory} (h : wf m) {a : Nat} (ha : fbBytes ≤ a) :
    Memory.read m a = Memory.unlisted :=
  read_of_not_mem fun e he => by have := h.2.1 e he; omega

theorem mem_of_read {m : Memory} {a : Nat} (h : Memory.read m a ≠ Memory.unlisted) :
    ∃ v, (a, v) ∈ m := by
  by_contra hc
  refine h (read_of_not_mem fun e he hea => hc ⟨e.2, ?_⟩)
  subst hea; exact he

/-- The least listed index of a canonical memory that reads as another one is that one's least too. -/
theorem head_le {m m' : Memory} {k : Nat} {w : Byte} {e : Host.Cell}
    (h : wf ((k, w) :: m)) (heq : ∀ a, Memory.read ((k, w) :: m) a = Memory.read (e :: m') a) :
    e.1 ≤ k := by
  by_contra hlt
  have h1 : Memory.read ((k, w) :: m) k = w := by simp [Memory.read]
  have h2 : Memory.read (e :: m') k = Memory.unlisted := by
    simp only [Memory.read]; rw [if_neg (by omega), if_pos (by omega)]
  have h3 := h.2.2 (k, w) (by simp)
  rw [heq, h2] at h1
  exact h3 h1.symm

theorem wf_tail {e : Host.Cell} {m : Memory} (h : wf (e :: m)) : wf m :=
  ⟨(List.pairwise_cons.1 h.1).2, fun f hf => h.2.1 f (List.mem_cons_of_mem _ hf),
    fun f hf => h.2.2 f (List.mem_cons_of_mem _ hf)⟩

/-- The rest of a canonical memory reads as the whole does, but for the least listed index. -/
theorem read_tail {k : Nat} {w : Byte} {m : Memory} (h : Sorted ((k, w) :: m)) (a : Nat) :
    Memory.read m a = if a = k then Memory.unlisted else Memory.read ((k, w) :: m) a := by
  obtain ⟨hk, hm⟩ := List.pairwise_cons.1 h
  simp only [Memory.read]
  split_ifs with h1 h2
  · subst h1; exact read_below hk
  · exact read_below fun e he => lt_trans h2 (hk e he)
  · rfl

/-- Memories in canonical form with the same contents are the same list. -/
theorem ext_of_wf {m m' : Memory} (h : wf m) (h' : wf m')
    (heq : ∀ a, Memory.read m a = Memory.read m' a) : m = m' := by
  induction m generalizing m' with
  | nil =>
    cases m' with
    | nil => rfl
    | cons e m' =>
      have := heq e.1
      simp only [Memory.read, if_true] at this
      exact absurd this.symm (h'.2.2 e (by simp))
  | cons e m ih =>
    cases m' with
    | nil =>
      have := heq e.1
      simp only [Memory.read, if_true] at this
      exact absurd this (h.2.2 e (by simp))
    | cons e' m' =>
      obtain ⟨k, w⟩ := e
      obtain ⟨k', w'⟩ := e'
      have hle : k' ≤ k := head_le h heq
      have hge : k ≤ k' := head_le h' fun a => (heq a).symm
      obtain rfl : k = k' := le_antisymm hge hle
      have hw := heq k
      simp only [Memory.read, if_true] at hw
      subst hw
      congr 1
      refine ih (wf_tail h) (wf_tail h') fun a => ?_
      rw [read_tail h.1, read_tail h'.1, heq a]

/-- The raw bytes are the 5,808 bytes of FB in order. -/
@[simp] theorem length_rawBytes (fb : Memory) : (rawBytes fb).length = fbBytes := by
  simp [rawBytes]

theorem getElem_rawBytes (fb : Memory) (i : Nat) (h : i < (rawBytes fb).length) :
    (rawBytes fb)[i] = fb.read i := by
  simp [rawBytes]

/-- The raw bytes of a fill are all the filled value. -/
theorem rawBytes_fill (v : Byte) : rawBytes (fill v) = List.replicate fbBytes v := by
  refine List.ext_getElem (by simp) fun i h1 h2 => ?_
  rw [getElem_rawBytes, List.getElem_replicate]
  exact read_fill v (by simpa using h1)

end Sys2Proof.Machine.Memory
end

