-- ==== Sys2Proof/Laws/State.lean ====
section
/-! SUPPORT. One lemma per field per update of State. -/

namespace Sys2Proof.Machine

/-! ### respond -/

@[simp] theorem respond_cfg (code : Byte) (results : List Word) (s : State) : (respond code results s).cfg = s.cfg := rfl
@[simp] theorem respond_fb (code : Byte) (results : List Word) (s : State) : (respond code results s).fb = s.fb := rfl
@[simp] theorem respond_orient (code : Byte) (results : List Word) (s : State) : (respond code results s).orient = s.orient := rfl
@[simp] theorem respond_pstate (code : Byte) (results : List Word) (s : State) : (respond code results s).pstate = s.pstate := rfl
@[simp] theorem respond_debug (code : Byte) (results : List Word) (s : State) : (respond code results s).debug = s.debug := rfl
@[simp] theorem respond_packets (code : Byte) (results : List Word) (s : State) : (respond code results s).packets = s.packets := rfl
@[simp] theorem respond_responses (code : Byte) (results : List Word) (s : State) : (respond code results s).responses = s.responses ++ [⟨statusWord code, results⟩] := rfl
@[simp] theorem respond_trace (code : Byte) (results : List Word) (s : State) : (respond code results s).trace = s.trace := rfl
@[simp] theorem respond_busyIn (code : Byte) (results : List Word) (s : State) : (respond code results s).busyIn = s.busyIn := rfl
@[simp] theorem respond_draws (code : Byte) (results : List Word) (s : State) : (respond code results s).draws = s.draws := rfl

/-! ### raise -/

@[simp] theorem raise_cfg (e : Error) (s : State) : (raise e s).cfg = s.cfg := rfl
@[simp] theorem raise_fb (e : Error) (s : State) : (raise e s).fb = s.fb := rfl
@[simp] theorem raise_orient (e : Error) (s : State) : (raise e s).orient = s.orient := rfl
@[simp] theorem raise_pstate (e : Error) (s : State) : (raise e s).pstate = s.pstate := rfl
@[simp] theorem raise_debug (e : Error) (s : State) : (raise e s).debug = s.debug := rfl
@[simp] theorem raise_packets (e : Error) (s : State) : (raise e s).packets = s.packets := rfl
@[simp] theorem raise_responses (e : Error) (s : State) : (raise e s).responses = s.responses ++ [⟨statusWord e.code, []⟩] := rfl
@[simp] theorem raise_trace (e : Error) (s : State) : (raise e s).trace = s.trace := rfl
@[simp] theorem raise_busyIn (e : Error) (s : State) : (raise e s).busyIn = s.busyIn := rfl
@[simp] theorem raise_draws (e : Error) (s : State) : (raise e s).draws = s.draws := rfl

/-! ### emit -/

@[simp] theorem emit_cfg (ev : PanelEvent) (s : State) : (emit ev s).cfg = s.cfg := rfl
@[simp] theorem emit_fb (ev : PanelEvent) (s : State) : (emit ev s).fb = s.fb := rfl
@[simp] theorem emit_orient (ev : PanelEvent) (s : State) : (emit ev s).orient = s.orient := rfl
@[simp] theorem emit_pstate (ev : PanelEvent) (s : State) : (emit ev s).pstate = s.pstate := rfl
@[simp] theorem emit_debug (ev : PanelEvent) (s : State) : (emit ev s).debug = s.debug := rfl
@[simp] theorem emit_packets (ev : PanelEvent) (s : State) : (emit ev s).packets = s.packets := rfl
@[simp] theorem emit_responses (ev : PanelEvent) (s : State) : (emit ev s).responses = s.responses := rfl
@[simp] theorem emit_trace (ev : PanelEvent) (s : State) : (emit ev s).trace = s.trace ++ [ev] := rfl
@[simp] theorem emit_busyIn (ev : PanelEvent) (s : State) : (emit ev s).busyIn = s.busyIn := rfl
@[simp] theorem emit_draws (ev : PanelEvent) (s : State) : (emit ev s).draws = s.draws := rfl

/-! ### enterBusy -/

@[simp] theorem enterBusy_cfg (s : State) : (enterBusy s).cfg = s.cfg := rfl
@[simp] theorem enterBusy_fb (s : State) : (enterBusy s).fb = s.fb := rfl
@[simp] theorem enterBusy_orient (s : State) : (enterBusy s).orient = s.orient := rfl
@[simp] theorem enterBusy_pstate (s : State) : (enterBusy s).pstate = .busy := rfl
@[simp] theorem enterBusy_debug (s : State) : (enterBusy s).debug = s.debug := rfl
@[simp] theorem enterBusy_packets (s : State) : (enterBusy s).packets = s.packets := rfl
@[simp] theorem enterBusy_responses (s : State) : (enterBusy s).responses = s.responses := rfl
@[simp] theorem enterBusy_trace (s : State) : (enterBusy s).trace = s.trace := rfl
@[simp] theorem enterBusy_busyIn (s : State) : (enterBusy s).busyIn = s.busyIn := rfl
@[simp] theorem enterBusy_draws (s : State) : (enterBusy s).draws = s.draws := rfl

/-! ### fillFB -/

@[simp] theorem fillFB_cfg (c : Color) (s : State) : (fillFB c s).cfg = s.cfg := rfl
@[simp] theorem fillFB_fb (c : Color) (s : State) : (fillFB c s).fb = Memory.fill (if colourBit c then 0xFF else 0x00) := rfl
@[simp] theorem fillFB_orient (c : Color) (s : State) : (fillFB c s).orient = s.orient := rfl
@[simp] theorem fillFB_pstate (c : Color) (s : State) : (fillFB c s).pstate = s.pstate := rfl
@[simp] theorem fillFB_debug (c : Color) (s : State) : (fillFB c s).debug = s.debug := rfl
@[simp] theorem fillFB_packets (c : Color) (s : State) : (fillFB c s).packets = s.packets := rfl
@[simp] theorem fillFB_responses (c : Color) (s : State) : (fillFB c s).responses = s.responses := rfl
@[simp] theorem fillFB_trace (c : Color) (s : State) : (fillFB c s).trace = s.trace := rfl
@[simp] theorem fillFB_busyIn (c : Color) (s : State) : (fillFB c s).busyIn = s.busyIn := rfl
@[simp] theorem fillFB_draws (c : Color) (s : State) : (fillFB c s).draws = s.draws := rfl

/-! ### drawPoints -/

@[simp] theorem drawPoints_cfg (c : Color) (pts : List Point) (s : State) : (drawPoints c pts s).cfg = s.cfg := rfl
@[simp] theorem drawPoints_fb (c : Color) (pts : List Point) (s : State) : (drawPoints c pts s).fb = plotAll s.orient s.fb (pts.map fun p => (p, c)) := rfl
@[simp] theorem drawPoints_orient (c : Color) (pts : List Point) (s : State) : (drawPoints c pts s).orient = s.orient := rfl
@[simp] theorem drawPoints_pstate (c : Color) (pts : List Point) (s : State) : (drawPoints c pts s).pstate = s.pstate := rfl
@[simp] theorem drawPoints_debug (c : Color) (pts : List Point) (s : State) : (drawPoints c pts s).debug = s.debug := rfl
@[simp] theorem drawPoints_packets (c : Color) (pts : List Point) (s : State) : (drawPoints c pts s).packets = s.packets := rfl
@[simp] theorem drawPoints_responses (c : Color) (pts : List Point) (s : State) : (drawPoints c pts s).responses = s.responses := rfl
@[simp] theorem drawPoints_trace (c : Color) (pts : List Point) (s : State) : (drawPoints c pts s).trace = s.trace := rfl
@[simp] theorem drawPoints_busyIn (c : Color) (pts : List Point) (s : State) : (drawPoints c pts s).busyIn = s.busyIn := rfl
@[simp] theorem drawPoints_draws (c : Color) (pts : List Point) (s : State) : (drawPoints c pts s).draws = s.draws := rfl

/-! ### frameTransfer -/

@[simp] theorem frameTransfer_cfg (s : State) : (frameTransfer s).cfg = s.cfg := rfl
@[simp] theorem frameTransfer_fb (s : State) : (frameTransfer s).fb = s.fb := rfl
@[simp] theorem frameTransfer_orient (s : State) : (frameTransfer s).orient = s.orient := rfl
@[simp] theorem frameTransfer_pstate (s : State) : (frameTransfer s).pstate = s.pstate := rfl
@[simp] theorem frameTransfer_debug (s : State) : (frameTransfer s).debug = s.debug := rfl
@[simp] theorem frameTransfer_packets (s : State) : (frameTransfer s).packets = s.packets := rfl
@[simp] theorem frameTransfer_responses (s : State) : (frameTransfer s).responses = s.responses := rfl
@[simp] theorem frameTransfer_trace (s : State) : (frameTransfer s).trace = s.trace ++ [.cmd s.cfg.dtmCmd] ++ [.data (rawBytes s.fb)] := rfl
@[simp] theorem frameTransfer_busyIn (s : State) : (frameTransfer s).busyIn = s.busyIn := rfl
@[simp] theorem frameTransfer_draws (s : State) : (frameTransfer s).draws = s.draws := rfl

/-! ### sendFirst -/

@[simp] theorem sendFirst_cfg (pkt : Packet) (s : State) : (sendFirst pkt s).cfg = s.cfg := rfl
@[simp] theorem sendFirst_fb (pkt : Packet) (s : State) : (sendFirst pkt s).fb = s.fb := rfl
@[simp] theorem sendFirst_orient (pkt : Packet) (s : State) : (sendFirst pkt s).orient = s.orient := rfl
@[simp] theorem sendFirst_pstate (pkt : Packet) (s : State) : (sendFirst pkt s).pstate = s.pstate := rfl
@[simp] theorem sendFirst_debug (pkt : Packet) (s : State) : (sendFirst pkt s).debug = s.debug := rfl
@[simp] theorem sendFirst_packets (pkt : Packet) (s : State) : (sendFirst pkt s).packets = pkt :: s.packets := rfl
@[simp] theorem sendFirst_responses (pkt : Packet) (s : State) : (sendFirst pkt s).responses = s.responses := rfl
@[simp] theorem sendFirst_trace (pkt : Packet) (s : State) : (sendFirst pkt s).trace = s.trace := rfl
@[simp] theorem sendFirst_busyIn (pkt : Packet) (s : State) : (sendFirst pkt s).busyIn = s.busyIn := rfl
@[simp] theorem sendFirst_draws (pkt : Packet) (s : State) : (sendFirst pkt s).draws = s.draws := rfl

/-! ### answered -/

@[simp] theorem answered_cfg (s : State) (w : Word) (ws : List Word) : (answered s w ws).cfg = s.cfg := rfl
@[simp] theorem answered_fb (s : State) (w : Word) (ws : List Word) : (answered s w ws).fb = s.fb := rfl
@[simp] theorem answered_orient (s : State) (w : Word) (ws : List Word) : (answered s w ws).orient = s.orient := rfl
@[simp] theorem answered_pstate (s : State) (w : Word) (ws : List Word) : (answered s w ws).pstate = s.pstate := rfl
@[simp] theorem answered_debug (s : State) (w : Word) (ws : List Word) : (answered s w ws).debug = s.debug := rfl
@[simp] theorem answered_packets (s : State) (w : Word) (ws : List Word) : (answered s w ws).packets = s.packets := rfl
@[simp] theorem answered_responses (s : State) (w : Word) (ws : List Word) : (answered s w ws).responses = s.responses ++ [⟨w, ws⟩] := rfl
@[simp] theorem answered_trace (s : State) (w : Word) (ws : List Word) : (answered s w ws).trace = s.trace := rfl
@[simp] theorem answered_busyIn (s : State) (w : Word) (ws : List Word) : (answered s w ws).busyIn = s.busyIn := rfl
@[simp] theorem answered_draws (s : State) (w : Word) (ws : List Word) : (answered s w ws).draws = s.draws := rfl

/-! ### afterPolls -/

@[simp] theorem afterPolls_cfg (n : Nat) (evs : List PanelEvent) (s : State) :
    (afterPolls n evs s).cfg = s.cfg := rfl
@[simp] theorem afterPolls_fb (n : Nat) (evs : List PanelEvent) (s : State) :
    (afterPolls n evs s).fb = s.fb := rfl
@[simp] theorem afterPolls_orient (n : Nat) (evs : List PanelEvent) (s : State) :
    (afterPolls n evs s).orient = s.orient := rfl
@[simp] theorem afterPolls_pstate (n : Nat) (evs : List PanelEvent) (s : State) :
    (afterPolls n evs s).pstate = s.pstate := rfl
@[simp] theorem afterPolls_debug (n : Nat) (evs : List PanelEvent) (s : State) :
    (afterPolls n evs s).debug = s.debug := rfl
@[simp] theorem afterPolls_packets (n : Nat) (evs : List PanelEvent) (s : State) :
    (afterPolls n evs s).packets = s.packets := rfl
@[simp] theorem afterPolls_responses (n : Nat) (evs : List PanelEvent) (s : State) :
    (afterPolls n evs s).responses = s.responses := rfl
@[simp] theorem afterPolls_trace (n : Nat) (evs : List PanelEvent) (s : State) :
    (afterPolls n evs s).trace = s.trace ++ evs := rfl
@[simp] theorem afterPolls_busyIn (n : Nat) (evs : List PanelEvent) (s : State) :
    (afterPolls n evs s).busyIn = s.busyIn.drop n := rfl
@[simp] theorem afterPolls_draws (n : Nat) (evs : List PanelEvent) (s : State) :
    (afterPolls n evs s).draws = s.draws + (n - s.busyIn.length) := rfl

/-! ### takeAnswer and pollBusy -/

@[simp] theorem takeAnswer_cfg (s : State) : (takeAnswer s).cfg = s.cfg := by
  unfold takeAnswer; split <;> simp_all
@[simp] theorem takeAnswer_fb (s : State) : (takeAnswer s).fb = s.fb := by
  unfold takeAnswer; split <;> simp_all
@[simp] theorem takeAnswer_orient (s : State) : (takeAnswer s).orient = s.orient := by
  unfold takeAnswer; split <;> simp_all
@[simp] theorem takeAnswer_pstate (s : State) : (takeAnswer s).pstate = s.pstate := by
  unfold takeAnswer; split <;> simp_all
@[simp] theorem takeAnswer_debug (s : State) : (takeAnswer s).debug = s.debug := by
  unfold takeAnswer; split <;> simp_all
@[simp] theorem takeAnswer_packets (s : State) : (takeAnswer s).packets = s.packets := by
  unfold takeAnswer; split <;> simp_all
@[simp] theorem takeAnswer_responses (s : State) : (takeAnswer s).responses = s.responses := by
  unfold takeAnswer; split <;> simp_all
@[simp] theorem takeAnswer_trace (s : State) : (takeAnswer s).trace = s.trace := by
  unfold takeAnswer; split <;> simp_all
@[simp] theorem takeAnswer_busyIn (s : State) : (takeAnswer s).busyIn = s.busyIn.drop 1 := by
  unfold takeAnswer; split <;> simp_all
@[simp] theorem takeAnswer_draws (s : State) : (takeAnswer s).draws = s.draws + (1 - s.busyIn.length) := by
  unfold takeAnswer; split <;> simp_all
@[simp] theorem pollBusy_cfg (s : State) : (pollBusy s).cfg = s.cfg := by
  simp [pollBusy]
@[simp] theorem pollBusy_fb (s : State) : (pollBusy s).fb = s.fb := by
  simp [pollBusy]
@[simp] theorem pollBusy_orient (s : State) : (pollBusy s).orient = s.orient := by
  simp [pollBusy]
@[simp] theorem pollBusy_pstate (s : State) : (pollBusy s).pstate = s.pstate := by
  simp [pollBusy]
@[simp] theorem pollBusy_debug (s : State) : (pollBusy s).debug = s.debug := by
  simp [pollBusy]
@[simp] theorem pollBusy_packets (s : State) : (pollBusy s).packets = s.packets := by
  simp [pollBusy]
@[simp] theorem pollBusy_responses (s : State) : (pollBusy s).responses = s.responses := by
  simp [pollBusy]
@[simp] theorem pollBusy_trace (s : State) : (pollBusy s).trace = s.trace ++ [.poll (nextAnswer s)] := by
  simp [pollBusy]
@[simp] theorem pollBusy_busyIn (s : State) : (pollBusy s).busyIn = s.busyIn.drop 1 := by
  simp [pollBusy]
@[simp] theorem pollBusy_draws (s : State) : (pollBusy s).draws = s.draws + (1 - s.busyIn.length) := by
  simp [pollBusy]

/-! ### closeSequence: the response and PSTATE of a finished panel sequence -/

/-- Two states with the same fields are equal. -/
theorem state_ext {s t : State} (h1 : s.cfg = t.cfg) (h2 : s.fb = t.fb) (h3 : s.orient = t.orient)
    (h4 : s.pstate = t.pstate) (h5 : s.debug = t.debug) (h6 : s.packets = t.packets)
    (h7 : s.responses = t.responses) (h8 : s.trace = t.trace) (h9 : s.busyIn = t.busyIn)
    (h10 : s.draws = t.draws) : s = t := by
  cases s; cases t; simp_all

end Sys2Proof.Machine
end

