-- ==== Sys2Proof/Laws/Panel.lean ====
section
/-! SUPPORT. The laws of the panel port: the answers of polls, the busy wait (44_panel_protocol.md R218), scripts (R223), and
what a panel sequence leaves unchanged. -/

namespace Sys2Proof.Machine

/-! ### Answers -/

@[simp] theorem answerAt_zero (s : State) : answerAt s 0 = nextAnswer s := by
  unfold answerAt nextAnswer
  cases h : s.busyIn <;> simp

/-- Taking one answer moves the later ones up by one. -/
@[simp] theorem answerAt_pollBusy (s : State) (k : Nat) : answerAt (pollBusy s) k = answerAt s (k + 1) := by
  unfold answerAt
  cases h : s.busyIn with
  | nil =>
    simp [h]
    congr 1; omega
  | cons b rest => simp [h]

theorem nextAnswers_succ (n : Nat) (s : State) :
    nextAnswers (n + 1) s = nextAnswer s :: nextAnswers n (pollBusy s) := by
  unfold nextAnswers
  rw [List.range_succ_eq_map, List.map_cons, List.map_map, answerAt_zero]
  congr 1
  exact List.map_congr_left fun k _ => (answerAt_pollBusy s k).symm

theorem nextAnswers_add (m n : Nat) (s : State) :
    nextAnswers (m + n) s = nextAnswers m s ++ nextAnswers n (afterPolls m [] s) := by
  unfold nextAnswers
  rw [List.range_add, List.map_append, List.map_map]
  congr 1
  refine List.map_congr_left fun k _ => ?_
  simp only [Function.comp_apply, answerAt, afterPolls_busyIn, afterPolls_draws, List.length_drop]
  by_cases h : m + k < s.busyIn.length
  · rw [if_pos h, if_pos (by omega)]
    simp [List.getD_eq_getElem?_getD]
  · rw [if_neg h, if_neg (by omega)]
    congr 1; omega

/-- The answers depend on the answer fields alone. -/
theorem nextAnswers_congr {s t : State} (hb : s.busyIn = t.busyIn) (hd : s.draws = t.draws) (n : Nat) :
    nextAnswers n s = nextAnswers n t := by
  have : answerAt s = answerAt t := by funext k; simp [answerAt, hb, hd]
  rw [nextAnswers, nextAnswers, this]

@[simp] theorem length_nextAnswers (n : Nat) (s : State) : (nextAnswers n s).length = n := by
  simp [nextAnswers]

@[simp] theorem afterPolls_zero (s : State) : afterPolls 0 [] s = s := by
  apply state_ext <;> simp

/-- Taking answers twice is taking their sum. -/
theorem afterPolls_add (m n : Nat) (evs evs' : List PanelEvent) (s : State) :
    afterPolls n evs' (afterPolls m evs s) = afterPolls (m + n) (evs ++ evs') s := by
  apply state_ext <;> simp
  omega

/-- A poll takes one answer and records it. -/
theorem pollBusy_eq (s : State) : pollBusy s = afterPolls 1 [.poll (nextAnswer s)] s := by
  apply state_ext <;> simp

/-- An event takes no answer. -/
theorem emit_eq (ev : PanelEvent) (s : State) : emit ev s = afterPolls 0 [ev] s := by
  apply state_ext <;> simp

/-! ### The busy wait -/

/-- A wait answered busy `k` times and then idle, within its polls, ends after `k + 1` polls. -/
theorem waitPolls_idle (polls k : Nat) (s : State) (hk : k < polls)
    (hans : nextAnswers (k + 1) s = List.replicate k true ++ [false]) :
    waitPolls polls s = .done (afterPolls (k + 1) (List.replicate k (.poll true) ++ [.poll false]) s) := by
  induction k generalizing polls s with
  | zero =>
    obtain ⟨polls, rfl⟩ : ∃ n, polls = n + 1 := ⟨polls - 1, by omega⟩
    rw [nextAnswers_succ] at hans
    have h0 : nextAnswer s = false := by simpa [nextAnswers] using hans
    simp [waitPolls, h0, pollBusy_eq]
  | succ k ih =>
    obtain ⟨polls, rfl⟩ : ∃ n, polls = n + 1 := ⟨polls - 1, by omega⟩
    rw [nextAnswers_succ, List.replicate_succ, List.cons_append, List.cons.injEq] at hans
    obtain ⟨h0, hrest⟩ := hans
    simp only [waitPolls, h0, if_true]
    rw [ih polls (pollBusy s) (by omega) hrest, pollBusy_eq, afterPolls_add, h0]
    simp [List.replicate_succ, Nat.add_comm]

/-- A wait answered busy at every poll times out after all its polls. -/
theorem waitPolls_busy (polls : Nat) (s : State) (hans : nextAnswers polls s = List.replicate polls true) :
    waitPolls polls s = .timedOut (afterPolls polls (List.replicate polls (.poll true)) s) := by
  induction polls generalizing s with
  | zero => simp [waitPolls]
  | succ polls ih =>
    rw [nextAnswers_succ, List.replicate_succ, List.cons.injEq] at hans
    obtain ⟨h0, hrest⟩ := hans
    simp only [waitPolls, h0, if_true]
    rw [ih (pollBusy s) hrest, pollBusy_eq, afterPolls_add, h0]
    simp [List.replicate_succ, Nat.add_comm]

/-- Every wait ends one of two ways: some poll is answered idle in time, or all are answered busy. -/
theorem wait_cases (polls : Nat) (s : State) :
    (∃ k < polls, nextAnswers (k + 1) s = List.replicate k true ++ [false]) ∨
      nextAnswers polls s = List.replicate polls true := by
  induction polls generalizing s with
  | zero => right; simp [nextAnswers]
  | succ polls ih =>
    by_cases h0 : nextAnswer s = true
    · rcases ih (pollBusy s) with ⟨k, hk, h⟩ | h
      · exact .inl ⟨k + 1, by omega, by rw [nextAnswers_succ, h, h0]; rfl⟩
      · exact .inr (by rw [nextAnswers_succ, h, h0]; rfl)
    · refine .inl ⟨0, by omega, ?_⟩
      rw [nextAnswers_succ]
      simp [nextAnswers, h0]

/-! ### What a sequence leaves unchanged -/

/-- The state a piece of a sequence ends in, done or timed out. -/
def Progress.state : Progress → State
  | .done s => s
  | .timedOut s => s

/-- From `s` to `t` only the trace, which grows, and the answers taken change. -/
structure PanelFrame (s t : State) : Prop where
  cfg : t.cfg = s.cfg
  fb : t.fb = s.fb
  orient : t.orient = s.orient
  pstate : t.pstate = s.pstate
  debug : t.debug = s.debug
  packets : t.packets = s.packets
  responses : t.responses = s.responses
  trace : ∃ evs, t.trace = s.trace ++ evs

theorem PanelFrame.refl (s : State) : PanelFrame s s :=
  ⟨rfl, rfl, rfl, rfl, rfl, rfl, rfl, [], by simp⟩

theorem PanelFrame.trans {s t u : State} (h : PanelFrame s t) (h' : PanelFrame t u) : PanelFrame s u := by
  obtain ⟨evs, he⟩ := h.trace
  obtain ⟨evs', he'⟩ := h'.trace
  exact ⟨h'.cfg.trans h.cfg, h'.fb.trans h.fb, h'.orient.trans h.orient, h'.pstate.trans h.pstate,
    (h'.debug).trans h.debug, h'.packets.trans h.packets, h'.responses.trans h.responses,
    evs ++ evs', by rw [he', he, List.append_assoc]⟩

theorem panelFrame_emit (ev : PanelEvent) (s : State) : PanelFrame s (emit ev s) :=
  ⟨rfl, rfl, rfl, rfl, rfl, rfl, rfl, [ev], rfl⟩

theorem panelFrame_pollBusy (s : State) : PanelFrame s (pollBusy s) :=
  ⟨by simp, by simp, by simp, by simp, by simp, by simp, by simp, [.poll (nextAnswer s)], by simp⟩

theorem panelFrame_waitPolls (polls : Nat) (s : State) : PanelFrame s (waitPolls polls s).state := by
  induction polls generalizing s with
  | zero => exact .refl s
  | succ polls ih =>
    unfold waitPolls
    split
    · exact (panelFrame_pollBusy s).trans (ih _)
    · exact panelFrame_pollBusy s

theorem panelFrame_runStep (st : PanelStep) (s : State) : PanelFrame s (runStep st s).state := by
  cases st with
  | cmd b => exact panelFrame_emit _ s
  | data bs => exact panelFrame_emit _ s
  | dataFill b n => exact panelFrame_emit _ s
  | waitIdle => exact panelFrame_waitPolls _ s
  | delay t => exact .refl s

theorem panelFrame_andThen {s : State} {p : Progress} {k : State → Progress} (h : PanelFrame s p.state)
    (hk : ∀ t, PanelFrame t (k t).state) : PanelFrame s (p.andThen k).state := by
  cases p with
  | done t => exact h.trans (hk t)
  | timedOut t => exact h

theorem panelFrame_runScript (script : List PanelStep) (s : State) : PanelFrame s (runScript script s).state := by
  induction script generalizing s with
  | nil => exact .refl s
  | cons st rest ih => exact panelFrame_andThen (panelFrame_runStep st s) ih

theorem panelFrame_frameTransfer (s : State) : PanelFrame s (frameTransfer s) :=
  (panelFrame_emit _ s).trans (panelFrame_emit _ _)

/-! ### Scripts -/

theorem andThen_assoc (p : Progress) (f g : State → Progress) :
    (p.andThen f).andThen g = p.andThen fun s => (f s).andThen g := by
  cases p <;> rfl

/-- Running two scripts one after the other is running their concatenation. -/
theorem runScript_append (a b : List PanelStep) (s : State) :
    runScript (a ++ b) s = (runScript a s).andThen (runScript b) := by
  induction a generalizing s with
  | nil => rfl
  | cons st a ih =>
    show (runStep st s).andThen (runScript (a ++ b)) = _
    have : runScript (a ++ b) = fun s => (runScript a s).andThen (runScript b) := funext ih
    rw [this, runScript, andThen_assoc]

theorem idlePattern_cons (k : Nat) (ks : List Nat) :
    idlePattern (k :: ks) = (List.replicate k true ++ [false]) ++ idlePattern ks := by
  simp [idlePattern]

/-- The answers to the first `m` polls and to those after them, from a pattern in two parts. -/
theorem nextAnswers_split {m n : Nat} {s : State} {p q : List Bool} (evs : List PanelEvent) (hp : p.length = m)
    (h : nextAnswers (m + n) s = p ++ q) :
    nextAnswers m s = p ∧ nextAnswers n (afterPolls m evs s) = q := by
  rw [nextAnswers_add] at h
  obtain ⟨h1, h2⟩ := List.append_inj h (by simp [hp])
  exact ⟨h1, (nextAnswers_congr rfl rfl n).trans h2⟩

/-- A script whose every wait is answered idle in time is performed to its end, with the events of its steps and polls
(44_panel_protocol.md R218, R223). -/
theorem runScript_done (script : List PanelStep) (ks : List Nat) (s : State) (hlen : ks.length = waitCount script)
    (hks : ∀ k ∈ ks, k < s.cfg.busyMaxPolls)
    (hans : nextAnswers (idlePattern ks).length s = idlePattern ks) :
    runScript script s = .done (afterPolls (idlePattern ks).length (scriptEvents script ks) s) := by
  induction script generalizing ks s with
  | nil =>
    obtain rfl := List.length_eq_zero_iff.1 (hlen.trans rfl)
    simp [runScript, scriptEvents, idlePattern]
  | cons st rest ih =>
    have hemit : ∀ ev, ks.length = waitCount rest → runScript rest (emit ev s) =
        .done (afterPolls (idlePattern ks).length (ev :: scriptEvents rest ks) s) := fun ev hl => by
      rw [ih ks (emit ev s) hl hks ((nextAnswers_congr rfl rfl _).trans hans), emit_eq, afterPolls_add]
      simp
    cases st with
    | cmd b => exact hemit _ hlen
    | data bs => exact hemit _ hlen
    | dataFill b n => exact hemit _ hlen
    | delay t => exact ih ks s hlen hks hans
    | waitIdle =>
      cases ks with
      | nil => simp [waitCount] at hlen
      | cons k ks =>
        rw [idlePattern_cons] at hans
        have hl : (List.replicate k true ++ [false]).length = k + 1 := by simp
        rw [List.length_append, hl] at hans
        obtain ⟨h1, h2⟩ := nextAnswers_split (List.replicate k (.poll true) ++ [.poll false]) hl hans
        simp only [runScript, runStep, waitIdle]
        rw [waitPolls_idle _ k s (hks k (by simp)) h1]
        simp only [Progress.andThen]
        have h3 := ih ks (afterPolls (k + 1) (List.replicate k (PanelEvent.poll true) ++ [.poll false]) s)
          (by simpa [waitCount] using hlen) (fun k' hk' => hks k' (by simp [hk'])) h2
        rw [h3, afterPolls_add, idlePattern_cons, List.length_append, hl]
        simp [scriptEvents]

/-- A script one of whose waits is answered busy at every poll stops there, with the events so far and the polls of that
wait (44_panel_protocol.md R218, 60_exceptions.md R258). -/
theorem runScript_timedOut (before after : List PanelStep) (ks : List Nat) (s : State)
    (hlen : ks.length = waitCount before) (hks : ∀ k ∈ ks, k < s.cfg.busyMaxPolls)
    (hans : nextAnswers ((idlePattern ks).length + s.cfg.busyMaxPolls) s =
      idlePattern ks ++ List.replicate s.cfg.busyMaxPolls true) :
    runScript (before ++ .waitIdle :: after) s =
      .timedOut (afterPolls ((idlePattern ks).length + s.cfg.busyMaxPolls)
        (scriptEvents before ks ++ List.replicate s.cfg.busyMaxPolls (.poll true)) s) := by
  obtain ⟨h1, h2⟩ := nextAnswers_split (scriptEvents before ks) rfl hans
  rw [runScript_append, runScript_done before ks s hlen hks h1]
  simp only [Progress.andThen, runScript, runStep, waitIdle, afterPolls_cfg]
  rw [waitPolls_busy _ _ h2, afterPolls_add]

/-- Every script ends one of two ways: every wait is answered idle in time, or some wait is answered busy at every poll. -/
theorem script_cases (script : List PanelStep) (s : State) :
    (∃ ks : List Nat, ks.length = waitCount script ∧ (∀ k ∈ ks, k < s.cfg.busyMaxPolls) ∧
      nextAnswers (idlePattern ks).length s = idlePattern ks) ∨
    (∃ (before after : List PanelStep) (ks : List Nat), script = before ++ .waitIdle :: after ∧
      ks.length = waitCount before ∧ (∀ k ∈ ks, k < s.cfg.busyMaxPolls) ∧
      nextAnswers ((idlePattern ks).length + s.cfg.busyMaxPolls) s =
        idlePattern ks ++ List.replicate s.cfg.busyMaxPolls true) := by
  induction script generalizing s with
  | nil => exact .inl ⟨[], rfl, by simp, by simp [nextAnswers, idlePattern]⟩
  | cons st rest ih =>
    by_cases hst : st = .waitIdle
    · subst hst
      rcases wait_cases s.cfg.busyMaxPolls s with ⟨k, hk, hans⟩ | hbusy
      · have hl : (List.replicate k true ++ [false]).length = k + 1 := by simp
        rcases ih (afterPolls (k + 1) [] s) with ⟨ks, h1, h2, h3⟩ | ⟨before, after, ks, h0, h1, h2, h3⟩
        · refine .inl ⟨k :: ks, by simp [waitCount, h1], ?_, ?_⟩
          · intro k' hk'
            rcases List.mem_cons.1 hk' with rfl | hk'
            · exact hk
            · exact h2 k' hk'
          · rw [idlePattern_cons, List.length_append, hl, nextAnswers_add, hans, h3]
        · refine .inr ⟨.waitIdle :: before, after, k :: ks, by simp [h0], by simp [waitCount, h1], ?_, ?_⟩
          · intro k' hk'
            rcases List.mem_cons.1 hk' with rfl | hk'
            · exact hk
            · exact h2 k' hk'
          · have h3' : nextAnswers ((idlePattern ks).length + s.cfg.busyMaxPolls) (afterPolls (k + 1) [] s) =
                idlePattern ks ++ List.replicate s.cfg.busyMaxPolls true := h3
            rw [idlePattern_cons, List.length_append, hl, Nat.add_assoc, nextAnswers_add, hans, h3',
              ← List.append_assoc]
      · exact .inr ⟨[], rest, [], rfl, rfl, by simp, by simpa [idlePattern] using hbusy⟩
    · have hw : ∀ l, waitCount (st :: l) = waitCount l := by
        intro l; cases st <;> first | rfl | exact absurd rfl hst
      rcases ih s with ⟨ks, h1, h2, h3⟩ | ⟨before, after, ks, h0, h1, h2, h3⟩
      · exact .inl ⟨ks, by rw [hw, h1], h2, h3⟩
      · exact .inr ⟨st :: before, after, ks, by simp [h0], by rw [hw, h1], h2, h3⟩

/-! ### Panel operations -/

/-- A panel operation that runs a script after some events, from a state with nothing but FB changed, and then closes. -/
theorem runsPanelScript_close {s : State} (lead : List PanelEvent) (fb : Memory) (script : List PanelStep)
    (final : PState) (start : State)
    (hstart : start = { s with fb := fb, pstate := .busy, trace := s.trace ++ lead }) :
    RunsPanelScript s (.next (closeSequence final (runScript script start))) lead fb script final := by
  have hcongr : ∀ n, nextAnswers n start = nextAnswers n s := fun n => by
    subst hstart; exact nextAnswers_congr rfl rfl n
  have hmax : start.cfg.busyMaxPolls = s.cfg.busyMaxPolls := by subst hstart; rfl
  refine ⟨fun ks h1 h2 h3 => ?_, fun before after ks h0 h1 h2 h3 => ?_⟩
  · rw [runScript_done script ks start h1 (by rw [hmax]; exact h2) (by rw [hcongr]; exact h3)]
    subst hstart
    congr 1
    apply state_ext <;> simp [closeSequence, afterOperation, respond, statusWord, okCode]
  · subst h0
    rw [runScript_timedOut before after ks start h1 (by rw [hmax]; exact h2)
      (by rw [hcongr, hmax]; exact h3), hmax]
    subst hstart
    congr 1
    apply state_ext <;> simp [closeSequence, afterOperation, raise, respond, statusWord, Error.code]

/-! ### The display -/

/-- DisplayBody is one script: P_DISP_PRE, the frame transfer, P_DISP_POST (44_panel_protocol.md R224, R233). -/
theorem displayBody_eq (s : State) : displayBody s =
    runScript (s.cfg.dispPre ++ [.cmd s.cfg.dtmCmd, .data (rawBytes s.fb)] ++ s.cfg.dispPost) (enterBusy s) := by
  unfold displayBody
  rw [runScript_append, runScript_append]
  have hf := panelFrame_runScript s.cfg.dispPre (enterBusy s)
  cases h : runScript s.cfg.dispPre (enterBusy s) with
  | timedOut t => simp only [Progress.andThen]
  | done t =>
    rw [h] at hf
    have hcfg : t.cfg = s.cfg := hf.cfg
    have hfb : t.fb = s.fb := hf.fb
    simp only [Progress.andThen, frameTransfer, hcfg, hfb]
    show runScript (emit _ (emit _ t)).cfg.dispPost _ = _
    rw [emit_cfg, emit_cfg, hcfg]; rfl

/-- What a script that ends in time adds to PT: its events, for some number of busy answers at each wait
(44_panel_protocol.md R223). -/
theorem trace_of_runScript_done {script : List PanelStep} {s u : State} (h : runScript script s = .done u) :
    ∃ ks : List Nat, ks.length = waitCount script ∧ (∀ k ∈ ks, k < s.cfg.busyMaxPolls) ∧
      u.trace = s.trace ++ scriptEvents script ks := by
  rcases script_cases script s with ⟨ks, h1, h2, h3⟩ | ⟨before, after, ks, h0, h1, h2, h3⟩
  · rw [runScript_done script ks s h1 h2 h3] at h
    cases h
    exact ⟨ks, h1, h2, rfl⟩
  · rw [h0, runScript_timedOut before after ks s h1 h2 h3] at h
    cases h

/-- What a script that ends in time adds to PT does not depend on FB, ORIENT, PSTATE, DEBUG or the streams. -/
theorem trace_of_runScript_congr {script : List PanelStep} {s s' u : State} (hc : s'.cfg = s.cfg)
    (hb : s'.busyIn = s.busyIn) (hd : s'.draws = s.draws) (ht : s'.trace = s.trace)
    (h : runScript script s = .done u) : ∃ u', runScript script s' = .done u' ∧ u'.trace = u.trace := by
  rcases script_cases script s with ⟨ks, h1, h2, h3⟩ | ⟨before, after, ks, h0, h1, h2, h3⟩
  · rw [runScript_done script ks s h1 h2 h3] at h
    cases h
    refine ⟨_, runScript_done script ks s' h1 (by rw [hc]; exact h2) ((nextAnswers_congr hb hd _).trans h3), ?_⟩
    simp [ht]
  · rw [h0, runScript_timedOut before after ks s h1 h2 h3] at h
    cases h

/-- What DisplayBody adds to PT when it ends in time: the events of P_DISP_PRE, the frame transfer, the events of P_DISP_POST
(44_panel_protocol.md R224, R233). -/
theorem trace_of_displayBody_done {s u : State} (h : displayBody s = .done u) :
    ∃ (v : State) (ks ks' : List Nat), runScript s.cfg.dispPre (enterBusy s) = .done v ∧
      ks.length = waitCount s.cfg.dispPre ∧ ks'.length = waitCount s.cfg.dispPost ∧
      (∀ k ∈ ks ++ ks', k < s.cfg.busyMaxPolls) ∧ v.trace = s.trace ++ scriptEvents s.cfg.dispPre ks ∧
      u.trace = s.trace ++ scriptEvents s.cfg.dispPre ks ++ [.cmd s.cfg.dtmCmd, .data (rawBytes s.fb)] ++
        scriptEvents s.cfg.dispPost ks' := by
  unfold displayBody at h
  have hf := panelFrame_runScript s.cfg.dispPre (enterBusy s)
  cases hv : runScript s.cfg.dispPre (enterBusy s) with
  | timedOut v => rw [hv] at h; cases h
  | done v =>
    rw [hv] at h hf
    have hcfg : v.cfg = s.cfg := hf.cfg
    have hfb : v.fb = s.fb := hf.fb
    obtain ⟨ks, h1, h2, h3⟩ := trace_of_runScript_done hv
    obtain ⟨ks', h1', h2', h3'⟩ := trace_of_runScript_done (show runScript _ (frameTransfer v) = .done u from h)
    have hcfg' : (frameTransfer v).cfg = s.cfg := (panelFrame_frameTransfer v).cfg.trans hcfg
    rw [hcfg'] at h1' h2' h3'
    refine ⟨v, ks, ks', rfl, h1, h1', fun k hk => ?_, h3, ?_⟩
    · rcases List.mem_append.1 hk with hk | hk
      · exact h2 k hk
      · exact h2' k hk
    · rw [h3']
      simp only [frameTransfer, emit_trace, hcfg, hfb, h3]
      simp [enterBusy]

/-! ### Pieces of a data message -/

/-- The first `n` pieces of 64 bytes, joined, are the first `64 n` bytes. -/
theorem flatten_pieces (bs : List Byte) : ∀ n, ((List.range n).map fun k => (bs.drop (64 * k)).take 64).flatten = bs.take (64 * n) := by
  intro n
  induction n with
  | zero => simp
  | succ n ih =>
    rw [List.range_succ, List.map_append, List.flatten_append, ih]
    simp [Nat.mul_succ, List.take_add]

end Sys2Proof.Machine
end

