-- ==== Sys2Proof/Laws/PerInstr.lean ====
section
/-! SUPPORT. Statements about every instruction as syntax, one lemma per constructor. -/

namespace Sys2Proof.Laws

/-- The encoder makes a packet of the length the encoding gives the instruction (30_encoding.md R82, R86). -/
def EncodeLength.Statement (i : Instr) : Prop := (encode i).length = i.packetWords

theorem EncodeLength.init : Statement .init := rfl

theorem EncodeLength.display : Statement .display := rfl

theorem EncodeLength.clear : Statement .clear := rfl

theorem EncodeLength.fillBlack : Statement .fillBlack := rfl

theorem EncodeLength.sleep : Statement .sleep := rfl

theorem EncodeLength.resetDisplay : Statement .resetDisplay := rfl

theorem EncodeLength.getStatus : Statement .getStatus := rfl

theorem EncodeLength.fbFill (c : Color) : Statement (.fbFill c) := rfl

theorem EncodeLength.fbSetpx (c : Color) (px py : Word) : Statement (.fbSetpx c px py) := rfl

theorem EncodeLength.fbGetpx (px py : Word) : Statement (.fbGetpx px py) := rfl

theorem EncodeLength.fbRead (idx : Word) : Statement (.fbRead idx) := rfl

theorem EncodeLength.setOrient (o : Orientation) : Statement (.setOrient o) := rfl

theorem EncodeLength.getDims (o : Orientation) : Statement (.getDims o) := rfl

theorem EncodeLength.map (o : Orientation) (lx ly : Word) : Statement (.map o lx ly) := rfl

theorem EncodeLength.unmap (o : Orientation) (px py : Word) : Statement (.unmap o px py) := rfl

theorem EncodeLength.pixel (c : Color) (x y : Word) : Statement (.pixel c x y) := rfl

theorem EncodeLength.hline (c : Color) (x y w : Word) : Statement (.hline c x y w) := rfl

theorem EncodeLength.vline (c : Color) (x y h : Word) : Statement (.vline c x y h) := rfl

theorem EncodeLength.line (c : Color) (x1 y1 x2 y2 : Word) : Statement (.line c x1 y1 x2 y2) := rfl

theorem EncodeLength.rect (c : Color) (x y w h : Word) : Statement (.rect c x y w h) := rfl

theorem EncodeLength.fillRect (c : Color) (x y w h : Word) : Statement (.fillRect c x y w h) := rfl

theorem EncodeLength.circle (c : Color) (x y r : Word) : Statement (.circle c x y r) := rfl

theorem EncodeLength.text (c : Color) (x y : Word) (str : List Byte) : Statement (.text c x y str) := by
  simp [Statement, encode, Instr.packetWords, length_packBytes, areaWords, Nat.add_comm]; omega

theorem EncodeLength.drawBmp (x y bw bh depth : Word) (pol : Polarity) (bytes : List Byte) : Statement (.drawBmp x y bw bh depth pol bytes) := by
  simp [Statement, encode, Instr.packetWords, length_packBytes, areaWords, Nat.add_comm]; omega

end Sys2Proof.Laws
end

