-- ==== Sys2Proof/Laws/Pixel.lean ====
section
/-! SUPPORT. The laws of the physical pixel, the orientation transform and Plot, and what a drawing operation paints. -/

namespace Sys2Proof.Machine

/-! ### Bits -/

/-- Setting a bit changes that bit and no other. -/
theorem getLsbD_setBit (v : Byte) {b : Nat} (hb : b < 8) (on : Bool) {j : Nat} (hj : j < 8) :
    (setBit v b on).getLsbD j = if j = b then on else v.getLsbD j := by
  unfold setBit
  cases on
  · simp only [Bool.false_eq_true, if_false, BitVec.getLsbD_and, BitVec.getLsbD_not,
      BitVec.getLsbD_shiftLeft]
    by_cases h : j = b
    · subst h; simp [hj]
    · by_cases hlt : j < b
      · simp [h, hlt, hj]
      · have : j - b ≠ 0 := by omega
        simp [h, hlt, hj, BitVec.getLsbD_one, this]
  · simp only [if_true, BitVec.getLsbD_or, BitVec.getLsbD_shiftLeft]
    by_cases h : j = b
    · subst h; simp [hj]
    · by_cases hlt : j < b
      · simp [h, hlt]
      · have : j - b ≠ 0 := by omega
        simp [h, hlt, BitVec.getLsbD_one, this]

@[simp] theorem colourOfBit_colourBit (c : Color) : colourOfBit (colourBit c) = c := by cases c <;> rfl

@[simp] theorem colourBit_colourOfBit (b : Bool) : colourBit (colourOfBit b) = b := by cases b <;> rfl

/-! ### Physical pixels -/

/-- A point on the panel has its byte inside FB (20_memory.md R51). -/
theorem byteIndex_lt {p : Point} (h : onPanel p) : byteIndex p < fbBytes := by
  unfold byteIndex fbBytes
  obtain ⟨h1, h2, h3, h4⟩ := h
  omega

theorem bitPos_lt (p : Point) : bitPos p < 8 := by unfold bitPos; omega

/-- No in-range pixel shares a bit with another (20_memory.md R51). -/
theorem point_eq_of_bit {p q : Point} (hp : onPanel p) (hq : onPanel q)
    (hi : byteIndex p = byteIndex q) (hb : bitPos p = bitPos q) : p = q := by
  obtain ⟨h1, h2, h3, h4⟩ := hp
  obtain ⟨g1, g2, g3, g4⟩ := hq
  obtain ⟨px, py⟩ := p
  obtain ⟨qx, qy⟩ := q
  simp only [byteIndex, bitPos] at *
  have hx : px = qx := by omega
  have hy : py = qy := by omega
  rw [hx, hy]

/-- Off the panel a pixel reads WHITE (40_framebuffer.md R120). -/
theorem getPhys_off (fb : Memory) {p : Point} (h : ¬ onPanel p) : getPhys fb p = .white := if_neg h

/-- Off the panel a write changes nothing (40_framebuffer.md R121). -/
theorem setPhys_off (fb : Memory) {p : Point} (c : Color) (h : ¬ onPanel p) : setPhys fb p c = fb := if_neg h

/-- What SetPhys does to a byte. -/
theorem read_setPhys {fb : Memory} (hs : Memory.Sorted fb) {p : Point} (c : Color) (hp : onPanel p) (a : Nat) :
    (setPhys fb p c).read a =
      if a = byteIndex p then setBit (fb.read (byteIndex p)) (bitPos p) (colourBit c) else fb.read a := by
  rw [setPhys, if_pos hp, Memory.read_write hs]

/-- What SetPhys does to a pixel. -/
theorem getPhys_setPhys {fb : Memory} (hs : Memory.Sorted fb) (p q : Point) (c : Color) :
    getPhys (setPhys fb p c) q = if onPanel p ∧ q = p then c else getPhys fb q := by
  by_cases hp : onPanel p
  · by_cases hq : onPanel q
    · simp only [getPhys, if_pos hq, read_setPhys hs c hp]
      by_cases hi : byteIndex q = byteIndex p
      · rw [if_pos hi, getLsbD_setBit _ (bitPos_lt p) _ (bitPos_lt q)]
        by_cases hb : bitPos q = bitPos p
        · have := point_eq_of_bit hq hp hi hb
          simp [this, hp]
        · have : q ≠ p := fun h => hb (h ▸ rfl)
          simp [hb, this, hi]
      · have : q ≠ p := fun h => hi (h ▸ rfl)
        simp [hi, this]
    · have : ¬ (onPanel p ∧ q = p) := fun h => hq (h.2 ▸ h.1)
      rw [if_neg this, getPhys_off _ hq, getPhys_off _ hq]
  · rw [setPhys_off _ _ hp, if_neg fun h => hp h.1]

/-- SetPhys keeps the canonical form. -/
theorem wf_setPhys {fb : Memory} (h : Memory.wf fb) (p : Point) (c : Color) : Memory.wf (setPhys fb p c) := by
  unfold setPhys
  split_ifs with hp
  · exact Memory.wf_write h (byteIndex_lt hp) _
  · exact h

/-- After a fill every pixel of the panel has the colour (40_framebuffer.md R125). -/
theorem getPhys_fill (c : Color) {p : Point} (hp : onPanel p) :
    getPhys (Memory.fill (if colourBit c then 0xFF else 0x00)) p = c := by
  rw [getPhys, if_pos hp, Memory.read_fill _ (byteIndex_lt hp)]
  have h7 : bitPos p ≤ 7 := by unfold bitPos; omega
  generalize bitPos p = n at h7
  cases c <;> interval_cases n <;> rfl

/-! ### The orientation transform -/

@[simp] theorem toLogical_toPhys (o : Orientation) (p : Point) : toLogical o (toPhys o p) = p := by
  cases o <;> simp [toLogical, toPhys]

@[simp] theorem toPhys_toLogical (o : Orientation) (p : Point) : toPhys o (toLogical o p) = p := by
  cases o <;> simp [toLogical, toPhys]

theorem toPhys_inj {o : Orientation} {p q : Point} : toPhys o p = toPhys o q ↔ p = q :=
  ⟨fun h => by rw [← toLogical_toPhys o p, h, toLogical_toPhys], fun h => h ▸ rfl⟩

/-- Inside the canvas is on the panel (41_orientation.md R145). -/
theorem onPanel_toPhys (o : Orientation) (lx ly : Int) :
    onPanel (toPhys o ⟨lx, ly⟩) ↔ inCanvas o lx ly := by
  cases o <;> simp only [onPanel, toPhys, inCanvas, logicalDims] <;> omega

/-! ### Plot -/

theorem wf_plotAll {fb : Memory} (h : Memory.wf fb) (o : Orientation) (pts : List (Point × Color)) :
    Memory.wf (plotAll o fb pts) := by
  induction pts generalizing fb with
  | nil => exact h
  | cons pc pts ih => exact ih (wf_setPhys h _ _)

/-- A pixel no Plot call of a packet names keeps its colour. -/
theorem getPhys_plotAll_of_not_mem {fb : Memory} (h : Memory.wf fb) (o : Orientation)
    (pts : List (Point × Color)) (q : Point) (hq : ∀ pc ∈ pts, pc.1 ≠ q) :
    getPhys (plotAll o fb pts) (toPhys o q) = getPhys fb (toPhys o q) := by
  induction pts generalizing fb with
  | nil => rfl
  | cons pc pts ih =>
    have h1 : toPhys o q ≠ toPhys o pc.1 := fun e => hq pc (by simp) (toPhys_inj.1 e).symm
    have := ih (wf_setPhys h (toPhys o pc.1) pc.2) fun x hx => hq x (List.mem_cons_of_mem _ hx)
    rw [getPhys_setPhys h.1, if_neg fun e => h1 e.2] at this
    exact this

/-- A pixel on the panel that the Plot calls of a packet name with one colour only has that colour. -/
theorem getPhys_plotAll_of_mem {fb : Memory} (h : Memory.wf fb) (o : Orientation)
    (pts : List (Point × Color)) (q : Point) (c : Color) (hq : onPanel (toPhys o q))
    (hmem : (q, c) ∈ pts) (hall : ∀ c', (q, c') ∈ pts → c' = c) :
    getPhys (plotAll o fb pts) (toPhys o q) = c := by
  induction pts generalizing fb with
  | nil => simp at hmem
  | cons pc pts ih =>
    by_cases hlater : ∃ c', (q, c') ∈ pts
    · obtain ⟨c', hc'⟩ := hlater
      have := hall c' (List.mem_cons_of_mem _ hc')
      subst this
      exact ih (wf_setPhys h _ _) hc' fun c'' hc'' => hall c'' (List.mem_cons_of_mem _ hc'')
    · have hpc : pc = (q, c) := by
        rcases List.mem_cons.1 hmem with e | e
        · exact e.symm
        · exact absurd ⟨c, e⟩ hlater
      subst hpc
      have := getPhys_plotAll_of_not_mem (wf_setPhys h (toPhys o q) c) o pts q
        fun x hx e => hlater ⟨x.2, by rw [← e]; exact hx⟩
      rw [getPhys_setPhys h.1, if_pos ⟨hq, rfl⟩] at this
      exact this

/-- A byte that holds no point of a packet's Plot calls keeps its value. -/
theorem read_plotAll {fb : Memory} (h : Memory.wf fb) (o : Orientation) (pts : List (Point × Color)) (a : Nat)
    (ha : ∀ pc ∈ pts, onPanel (toPhys o pc.1) → byteIndex (toPhys o pc.1) ≠ a) :
    (plotAll o fb pts).read a = fb.read a := by
  induction pts generalizing fb with
  | nil => rfl
  | cons pc pts ih =>
    have h1 := ih (wf_setPhys h (toPhys o pc.1) pc.2) fun x hx => ha x (List.mem_cons_of_mem _ hx)
    refine h1.trans ?_
    by_cases hp : onPanel (toPhys o pc.1)
    · rw [read_setPhys h.1 _ hp, if_neg (Ne.symm (ha pc (by simp) hp))]
    · rw [setPhys_off _ _ hp]

/-- What the Plot calls of a packet paint: the points they name, when no point is named with two colours. -/
theorem paints_plotAll {s : State} (h : Memory.wf s.fb) {pts : List (Point × Color)}
    {ink : Int → Int → Color → Prop} (hink : ∀ lx ly c, ink lx ly c ↔ ((⟨lx, ly⟩ : Point), c) ∈ pts)
    (huniq : ∀ p c c', (p, c) ∈ pts → (p, c') ∈ pts → c' = c) :
    Paints s (respond okCode [] { s with fb := plotAll s.orient s.fb pts }) ink := by
  refine ⟨fun lx ly hin => ⟨fun c hc => ?_, fun hno => ?_⟩, fun a ha => ?_, rfl⟩
  · have hm := (hink lx ly c).1 hc
    exact getPhys_plotAll_of_mem h s.orient pts ⟨lx, ly⟩ c ((onPanel_toPhys _ _ _).2 hin) hm
      fun c' hc' => huniq _ _ _ hm hc'
  · refine getPhys_plotAll_of_not_mem h s.orient pts ⟨lx, ly⟩ fun pc hpc e => hno pc.2 ?_
    rw [hink, ← e]; exact hpc
  · refine read_plotAll h s.orient pts a fun pc hpc hp => ?_
    obtain ⟨⟨lx, ly⟩, c⟩ := pc
    exact ha lx ly c ((onPanel_toPhys _ _ _).1 hp) ((hink lx ly c).2 hpc)

/-- What a drawing operation of one colour paints. -/
theorem paints_drawPoints {s : State} (h : Memory.wf s.fb) (c : Color) (pts : List Point) :
    Paints s (respond okCode [] (drawPoints c pts s)) fun lx ly c' => c' = c ∧ (⟨lx, ly⟩ : Point) ∈ pts := by
  refine paints_plotAll h (fun lx ly c' => ?_) fun p c' c'' h' h'' => ?_
  · simp only [List.mem_map, Prod.mk.injEq]
    exact ⟨fun ⟨hc, hp⟩ => ⟨_, hp, rfl, hc.symm⟩, fun ⟨p, hp, e, hc⟩ => ⟨hc.symm, e ▸ hp⟩⟩
  · obtain ⟨_, _, e1⟩ := List.mem_map.1 h'
    obtain ⟨_, _, e2⟩ := List.mem_map.1 h''
    rw [← (Prod.mk.inj e1).2, ← (Prod.mk.inj e2).2]

/-- `Paints` speaks of the ink only. -/
theorem Paints.congr {s t : State} {ink ink' : Int → Int → Color → Prop} (h : Paints s t ink)
    (heq : ∀ lx ly c, ink' lx ly c ↔ ink lx ly c) : Paints s t ink' := by
  have : ink' = ink := by funext lx ly c; exact propext (heq lx ly c)
  rw [this]; exact h

/-! ### A memory is its pixels -/

/-- Two frame buffers in canonical form with the same pixels are equal (20_memory.md R51: every bit of FB is some pixel). -/
theorem ext_of_pixels {m m' : Memory} (h : Memory.wf m) (h' : Memory.wf m')
    (he : ∀ p, onPanel p → getPhys m p = getPhys m' p) : m = m' := by
  refine Memory.ext_of_wf h h' fun a => ?_
  by_cases ha : a < fbBytes
  · apply BitVec.eq_of_getLsbD_eq
    intro b hb
    unfold fbBytes at ha
    have hp : onPanel ⟨8 * (a % 22) + (7 - b), a / 22⟩ := by simp only [onPanel]; omega
    have hi : byteIndex ⟨8 * (a % 22) + (7 - b), a / 22⟩ = a := by simp only [byteIndex]; omega
    have hbit : bitPos ⟨8 * (a % 22) + (7 - b), a / 22⟩ = b := by simp only [bitPos]; omega
    have := he _ hp
    simp only [getPhys, if_pos hp, hi, hbit] at this
    simpa using congrArg colourBit this
  · rw [Memory.read_outside h (by omega), Memory.read_outside h' (by omega)]

/-- Two lists of Plot calls with the same members, no point with two colours, leave the same frame buffer: order and
repetition do not matter. -/
theorem plotAll_ext_of_unique {fb : Memory} (hwf : Memory.wf fb) (o : Orientation) {pts pts' : List (Point × Color)}
    (huniq : ∀ p c c', (p, c) ∈ pts → (p, c') ∈ pts → c' = c) (h : ∀ pc, pc ∈ pts ↔ pc ∈ pts') :
    plotAll o fb pts = plotAll o fb pts' := by
  refine ext_of_pixels (wf_plotAll hwf _ _) (wf_plotAll hwf _ _) fun p hp => ?_
  obtain ⟨q, rfl⟩ : ∃ q, toPhys o q = p := ⟨toLogical o p, toPhys_toLogical o p⟩
  by_cases hq : ∃ c, (q, c) ∈ pts
  · obtain ⟨c, hc⟩ := hq
    rw [getPhys_plotAll_of_mem hwf o _ q c hp hc fun c' hc' => huniq q c c' hc hc',
      getPhys_plotAll_of_mem hwf o _ q c hp ((h _).1 hc) fun c' hc' => huniq q c c' hc ((h _).2 hc')]
  · have hno : ∀ pc ∈ pts, pc.1 ≠ q := fun pc hpc e => hq ⟨pc.2, e ▸ hpc⟩
    rw [getPhys_plotAll_of_not_mem hwf o _ q hno,
      getPhys_plotAll_of_not_mem hwf o _ q fun pc hpc => hno pc ((h pc).2 hpc)]

/-- Plotting one colour at two lists of points with the same members leaves the same frame buffer. -/
theorem plotAll_ext {fb : Memory} (hwf : Memory.wf fb) (o : Orientation) (c : Color) {pts pts' : List Point}
    (h : ∀ p, p ∈ pts ↔ p ∈ pts') :
    plotAll o fb (pts.map fun p => (p, c)) = plotAll o fb (pts'.map fun p => (p, c)) := by
  refine plotAll_ext_of_unique hwf o (fun p c' c'' h1 h2 => ?_) fun pc => ?_
  · obtain ⟨_, _, e1⟩ := List.mem_map.1 h1
    obtain ⟨_, _, e2⟩ := List.mem_map.1 h2
    rw [← (Prod.mk.inj e1).2, ← (Prod.mk.inj e2).2]
  · simp only [List.mem_map, h]

/-- Points off the canvas are discarded (41_orientation.md R145). -/
theorem plotAll_off (o : Orientation) (fb : Memory) (pts : List (Point × Color))
    (h : ∀ pc ∈ pts, ¬ inCanvas o pc.1.x pc.1.y) : plotAll o fb pts = fb := by
  induction pts with
  | nil => rfl
  | cons pc pts ih =>
    have h0 : plot o fb pc.1 pc.2 = fb :=
      setPhys_off _ _ fun hp => h pc (by simp) ((onPanel_toPhys o pc.1.x pc.1.y).1 hp)
    show plotAll o (plot o fb pc.1 pc.2) pts = fb
    rw [h0]
    exact ih fun x hx => h x (by simp [hx])

end Sys2Proof.Machine
end

