-- ==== Sys2Proof/Laws/Shapes.lean ====
section
/-! SUPPORT. Which points each drawing operation names: membership in the point lists of Machine/Raster.lean and
Machine/Blit.lean. -/

namespace Sys2Proof.Machine

theorem mem_hlinePoints {x y w : Int} {p : Point} :
    p ∈ hlinePoints x y w ↔ p.y = y ∧ x ≤ p.x ∧ p.x < x + w := by
  obtain ⟨a, b⟩ := p
  simp only [hlinePoints, List.mem_map, List.mem_range, Point.mk.injEq]
  constructor
  · rintro ⟨i, hi, rfl, rfl⟩; exact ⟨rfl, by omega, by omega⟩
  · rintro ⟨rfl, h1, h2⟩; exact ⟨(a - x).toNat, by omega, by omega, rfl⟩

theorem mem_vlinePoints {x y h : Int} {p : Point} :
    p ∈ vlinePoints x y h ↔ p.x = x ∧ y ≤ p.y ∧ p.y < y + h := by
  obtain ⟨a, b⟩ := p
  simp only [vlinePoints, List.mem_map, List.mem_range, Point.mk.injEq]
  constructor
  · rintro ⟨i, hi, rfl, rfl⟩; exact ⟨rfl, by omega, by omega⟩
  · rintro ⟨rfl, h1, h2⟩; exact ⟨(b - y).toNat, by omega, rfl, by omega⟩

/-- RECT draws the boundary of the block (42_rasterizer.md R168). -/
theorem mem_rectPoints {x y w h : Int} {p : Point} :
    p ∈ rectPoints x y w h ↔
      (x ≤ p.x ∧ p.x ≤ x + w ∧ y ≤ p.y ∧ p.y ≤ y + h) ∧
        (p.x = x ∨ p.x = x + w ∨ p.y = y ∨ p.y = y + h) := by
  unfold rectPoints
  split_ifs with hwh
  · simp only [List.mem_append, mem_hlinePoints, mem_vlinePoints]
    omega
  · simp only [List.not_mem_nil, false_iff]
    omega

theorem mem_fillRectPoints {x y w h : Int} {p : Point} :
    p ∈ fillRectPoints x y w h ↔ x ≤ p.x ∧ p.x ≤ x + w ∧ y ≤ p.y ∧ p.y ≤ y + h := by
  unfold fillRectPoints
  split_ifs with hwh
  · simp only [List.mem_flatMap, List.mem_range, mem_hlinePoints]
    constructor
    · rintro ⟨j, hj, h1, h2, h3⟩; omega
    · rintro ⟨h1, h2, h3, h4⟩; exact ⟨(p.y - y).toNat, by omega, by omega, h1, by omega⟩
  · simp only [List.not_mem_nil, false_iff]
    omega

theorem mem_glyphPoints {rows : Nat} {g : List Byte} {x y : Int} {p : Point} :
    p ∈ glyphPoints rows g x y ↔
      ∃ r col : Nat, r < rows ∧ col < 8 ∧ glyphBit g r col = true ∧ p.x = x + col ∧ p.y = y + r := by
  obtain ⟨a, b⟩ := p
  simp only [glyphPoints, List.mem_flatMap, List.mem_range, List.mem_map, List.mem_filter,
    Point.mk.injEq]
  constructor
  · rintro ⟨r, hr, col, ⟨hc, hbit⟩, rfl, rfl⟩; exact ⟨r, col, hr, hc, hbit, rfl, rfl⟩
  · rintro ⟨r, col, hr, hc, hbit, rfl, rfl⟩; exact ⟨r, hr, col, ⟨hc, hbit⟩, rfl, rfl⟩

theorem mem_textPoints {cfg : Config} {x y : Int} {str : List Byte} {p : Point} :
    p ∈ textPoints cfg x y str ↔
      ∃ (k : Nat) (ch : Byte) (g : List Byte) (r col : Nat), str[k]? = some ch ∧ glyphOf cfg ch = some g ∧
        r < cfg.glyphH ∧ col < 8 ∧ glyphBit g r col = true ∧ p.x = x + 8 * k + col ∧ p.y = y + r := by
  simp only [textPoints, List.mem_flatMap]
  constructor
  · rintro ⟨⟨ch, k⟩, hck, hp⟩
    have hk : str[k]? = some ch := List.mk_mem_zipIdx_iff_getElem?.1 hck
    cases hg : glyphOf cfg ch with
    | none => simp [hg] at hp
    | some g =>
      simp only [hg, mem_glyphPoints] at hp
      obtain ⟨r, col, h⟩ := hp
      exact ⟨k, ch, g, r, col, hk, hg, h⟩
  · rintro ⟨k, ch, g, r, col, hk, hg, h⟩
    refine ⟨(ch, k), List.mk_mem_zipIdx_iff_getElem?.2 hk, ?_⟩
    simp only [hg, mem_glyphPoints]
    exact ⟨r, col, h⟩

theorem mem_bmpPoints {x y : Int} {bw bh : Nat} {pol : Polarity} {bytes : List Byte} {p : Point} {c : Color} :
    (p, c) ∈ bmpPoints x y bw bh pol bytes ↔
      ∃ i j : Nat, i < bw ∧ j < bh ∧ p.x = x + i ∧ p.y = y + j ∧ c = bmpColour bw pol bytes i j := by
  obtain ⟨a, b⟩ := p
  simp only [bmpPoints, List.mem_flatMap, List.mem_range, List.mem_map, Prod.mk.injEq, Point.mk.injEq]
  constructor
  · rintro ⟨j, hj, i, hi, ⟨rfl, rfl⟩, rfl⟩; exact ⟨i, j, hi, hj, rfl, rfl, rfl⟩
  · rintro ⟨i, j, hi, hj, rfl, rfl, rfl⟩; exact ⟨j, hj, i, hi, ⟨rfl, rfl⟩, rfl⟩

/-- One DRAW_BMP names no point twice (43_text_blit.md R199). -/
theorem bmpPoints_unique {x y : Int} {bw bh : Nat} {pol : Polarity} {bytes : List Byte} {p : Point}
    {c c' : Color} (h : (p, c) ∈ bmpPoints x y bw bh pol bytes) (h' : (p, c') ∈ bmpPoints x y bw bh pol bytes) :
    c' = c := by
  obtain ⟨i, j, -, -, hx, hy, rfl⟩ := mem_bmpPoints.1 h
  obtain ⟨i', j', -, -, hx', hy', rfl⟩ := mem_bmpPoints.1 h'
  obtain rfl : i = i' := by omega
  obtain rfl : j = j' := by omega
  rfl

end Sys2Proof.Machine
end

