-- ==== Sys2Proof/Laws/Step.lean ====
section
/-! SUPPORT. The laws of the gate and of the step: what taking a packet does, and once for all instructions what a completed
execution can have done (`exec_cases`). -/

namespace Sys2Proof.Machine

/-! ### The gate -/

theorem gated_uninitialized {s : State} (h : s.pstate = .uninitialized) (perform : State → Result) :
    gated s perform = .next (answered s 1 []) := by
  simp only [gated, h]; rfl

theorem gated_asleep {s : State} (h : s.pstate = .asleep) (perform : State → Result) :
    gated s perform = .next (answered s 2 []) := by
  simp only [gated, h]; rfl

theorem gated_awake {s : State} (h : s.pstate = .awake) (perform : State → Result) :
    gated s perform = perform s := by
  simp only [gated, h]

theorem gated_busy {s : State} (h : s.pstate = .busy) (perform : State → Result) :
    gated s perform = .fault .gatedWhileBusy := by
  simp only [gated, h]

/-- What a gated operation does in each PSTATE but Busy. -/
theorem runsWhenAwake_gated {s : State} {perform : State → Result} {run : Result → Prop}
    (h : s.pstate = .awake → run (perform s)) : RunsWhenAwake s (gated s perform) run :=
  ⟨fun h0 => gated_uninitialized h0 perform, fun h0 => gated_asleep h0 perform, fun h0 => by
    rw [gated_awake h0]; exact h h0⟩

/-- The three ways a gated operation can answer a next state. -/
theorem gated_cases {s t : State} {perform : State → Result} (h : gated s perform = .next t) :
    (s.pstate = .uninitialized ∧ t = answered s 1 []) ∨ (s.pstate = .asleep ∧ t = answered s 2 []) ∨
      (s.pstate = .awake ∧ perform s = .next t) := by
  cases hp : s.pstate with
  | uninitialized => rw [gated_uninitialized hp] at h; cases h; exact .inl ⟨rfl, rfl⟩
  | asleep => rw [gated_asleep hp] at h; cases h; exact .inr (.inl ⟨rfl, rfl⟩)
  | awake => rw [gated_awake hp] at h; exact .inr (.inr ⟨rfl, h⟩)
  | busy => rw [gated_busy hp] at h; cases h

@[simp] theorem finish_eq (ws : List Word) (s : State) : finish ws s = .next (answered s 0 ws) := rfl

theorem raise_eq (e : Error) (s : State) : raise e s = answered s (statusWord e.code) [] := rfl

/-! ### The meanings -/

theorem exec_init (s : State) : exec .init s =
    .next (closeSequence .awake (initBody s)) := rfl

theorem exec_display (s : State) : exec .display s =
    gated s fun s => .next (closeSequence .awake (displayBody s)) := rfl

theorem exec_clear (s : State) : exec .clear s =
    gated s fun s => .next (closeSequence .awake (displayBody (fillFB .white s))) := rfl

theorem exec_fillBlack (s : State) : exec .fillBlack s =
    gated s fun s => .next (closeSequence .awake (displayBody (fillFB .black s))) := rfl

theorem exec_sleep (s : State) : exec .sleep s =
    gated s fun s => .next (closeSequence .asleep (runScript s.cfg.sleepSeq (enterBusy s))) := rfl

theorem exec_resetDisplay (s : State) : exec .resetDisplay s =
    .next (closeSequence .awake (initBody (emit .reset (enterBusy s)))) := rfl

theorem exec_getStatus (s : State) : exec .getStatus s =
    .next (answered s 0 [registerWord s.debug s.orient s.pstate]) := rfl

theorem exec_fbFill (c : Color) (s : State) : exec (.fbFill c) s =
    gated s fun s => .next (answered (fillFB c s) 0 []) := rfl

theorem exec_fbSetpx (c : Color) (px py : Word) (s : State) : exec (.fbSetpx c px py) s =
    gated s fun s => .next (answered { s with fb := setPhys s.fb ⟨signed px, signed py⟩ c } 0 []) := rfl

theorem exec_fbGetpx (px py : Word) (s : State) : exec (.fbGetpx px py) s =
    .next (answered s 0 [colourWord (getPhys s.fb ⟨signed px, signed py⟩)]) := rfl

theorem exec_fbRead (idx : Word) (s : State) : exec (.fbRead idx) s =
    .next (answered s 0 [byteWord (if unsigned idx < fbBytes then s.fb.read (unsigned idx) else 0x00)]) := rfl

theorem exec_setOrient (o : Orientation) (s : State) : exec (.setOrient o) s =
    gated s fun s => .next (answered { s with orient := o } 0 []) := rfl

theorem exec_getDims (o : Orientation) (s : State) : exec (.getDims o) s =
    .next (answered s 0 [lo32 (logicalDims o).1, lo32 (logicalDims o).2]) := rfl

theorem exec_map (o : Orientation) (lx ly : Word) (s : State) : exec (.map o lx ly) s =
    .next (answered s 0
      [lo32 (toPhys o ⟨signed lx, signed ly⟩).x, lo32 (toPhys o ⟨signed lx, signed ly⟩).y]) := rfl

theorem exec_unmap (o : Orientation) (px py : Word) (s : State) : exec (.unmap o px py) s =
    .next (answered s 0
      [lo32 (toLogical o ⟨signed px, signed py⟩).x, lo32 (toLogical o ⟨signed px, signed py⟩).y]) := rfl

theorem exec_pixel (c : Color) (x y : Word) (s : State) : exec (.pixel c x y) s =
    gated s fun s => .next (answered (drawPoints c ([⟨signed x, signed y⟩]) s) 0 []) := rfl

theorem exec_hline (c : Color) (x y w : Word) (s : State) : exec (.hline c x y w) s =
    gated s fun s => .next (answered (drawPoints c (hlinePoints (signed x) (signed y) (signed w)) s) 0 []) := rfl

theorem exec_vline (c : Color) (x y h : Word) (s : State) : exec (.vline c x y h) s =
    gated s fun s => .next (answered (drawPoints c (vlinePoints (signed x) (signed y) (signed h)) s) 0 []) := rfl

theorem exec_line (c : Color) (x1 y1 x2 y2 : Word) (s : State) : exec (.line c x1 y1 x2 y2) s =
    gated s fun s => .next (answered (drawPoints c (linePoints (signed x1) (signed y1) (signed x2) (signed y2)) s) 0 []) := rfl

theorem exec_rect (c : Color) (x y w h : Word) (s : State) : exec (.rect c x y w h) s =
    gated s fun s => .next (answered (drawPoints c (rectPoints (signed x) (signed y) (signed w) (signed h)) s) 0 []) := rfl

theorem exec_fillRect (c : Color) (x y w h : Word) (s : State) : exec (.fillRect c x y w h) s =
    gated s fun s => .next (answered (drawPoints c (fillRectPoints (signed x) (signed y) (signed w) (signed h)) s) 0 []) := rfl

theorem exec_circle (c : Color) (x y r : Word) (s : State) : exec (.circle c x y r) s =
    gated s fun s => .next (answered (drawPoints c (circlePoints (signed x) (signed y) (signed r)) s) 0 []) := rfl

theorem exec_text (c : Color) (x y : Word) (str : List Byte) (s : State) : exec (.text c x y str) s =
    gated s fun s => .next (answered (drawPoints c (textPoints s.cfg (signed x) (signed y) str) s) 0 []) := rfl

theorem exec_drawBmp (x y bw bh depth : Word) (pol : Polarity) (bytes : List Byte) (s : State) : exec (.drawBmp x y bw bh depth pol bytes) s =
    gated s fun s =>
      if bmpValid (unsigned bw) (unsigned bh) (unsigned depth) bytes then
        .next (answered { s with
          fb := plotAll s.orient s.fb
            (bmpPoints (signed x) (signed y) (unsigned bw) (unsigned bh) pol bytes) } 0 [])
      else .next (answered s 4 []) := rfl

/-- A gated operation is the gate before what it performs. -/
theorem exec_of_isGated {i : Instr} (hg : isGated i = true) : ∃ perform, ∀ s, exec i s = gated s perform := by
  cases i with
  | display => exact ⟨_, exec_display⟩
  | clear => exact ⟨_, exec_clear⟩
  | fillBlack => exact ⟨_, exec_fillBlack⟩
  | sleep => exact ⟨_, exec_sleep⟩
  | fbFill c => exact ⟨_, exec_fbFill c⟩
  | fbSetpx c px py => exact ⟨_, exec_fbSetpx c px py⟩
  | setOrient o => exact ⟨_, exec_setOrient o⟩
  | pixel c x y => exact ⟨_, exec_pixel c x y⟩
  | hline c x y w => exact ⟨_, exec_hline c x y w⟩
  | vline c x y h => exact ⟨_, exec_vline c x y h⟩
  | line c x1 y1 x2 y2 => exact ⟨_, exec_line c x1 y1 x2 y2⟩
  | rect c x y w h => exact ⟨_, exec_rect c x y w h⟩
  | fillRect c x y w h => exact ⟨_, exec_fillRect c x y w h⟩
  | circle c x y r => exact ⟨_, exec_circle c x y r⟩
  | text c x y str => exact ⟨_, exec_text c x y str⟩
  | drawBmp x y bw bh depth pol bytes => exact ⟨_, exec_drawBmp x y bw bh depth pol bytes⟩
  | init | resetDisplay | getStatus | fbGetpx | fbRead | getDims | map | unmap => cases hg

/-! ### Taking a packet -/

theorem step_empty {s : State} (h : s.packets = []) : step s = .next s := by
  simp [step, fetch, h]

theorem step_instr {s : State} {pkt : Packet} {rest : List Packet} {i : Instr} (hp : s.packets = pkt :: rest)
    (hd : decode s.cfg.maxPktWords pkt = .ok i) : step s = exec i { s with packets := rest } := by
  simp [step, fetch, hp, hd]

theorem step_undecodable {s : State} {pkt : Packet} {rest : List Packet} {e : DecodeError}
    (hp : s.packets = pkt :: rest) (hd : decode s.cfg.maxPktWords pkt = .error e) :
    step s = .next (answered { s with packets := rest } (statusWord (errorOfDecode e).code) []) := by
  simp [step, fetch, hp, hd, raise_eq]

/-- A packet sent first is the one the next step runs. -/
theorem step_sendFirst {s : State} {pkt : Packet} {i : Instr} (hd : decode s.cfg.maxPktWords pkt = .ok i) :
    step (sendFirst pkt s) = exec i s := by
  rw [step_instr (s := sendFirst pkt s) (pkt := pkt) (rest := s.packets) rfl hd]
  rfl

/-! ### What an execution can have done -/

/-- What an operation that runs no panel sequence has done: FB, ORIENT and one OK response. -/
def Drew (i : Instr) (s t : State) : Prop :=
  panelFinal i = none ∧ ∃ fb o ws,
    t = { s with fb := fb, orient := o, responses := s.responses ++ [⟨0, ws⟩] } ∧ ws.length = resultWords i ∧
      (Memory.wf s.fb → Memory.wf fb) ∧ (mayWriteFB i = false → fb = s.fb) ∧
      ((∀ o', i ≠ .setOrient o') → o = s.orient)

/-- What a panel operation has done: its sequence ran from PSTATE Busy with the frame buffer `fb`, then closed. -/
def Sequenced (i : Instr) (s t : State) : Prop :=
  ∃ final p fb, panelFinal i = some final ∧ t = closeSequence final p ∧
    PanelFrame { s with fb := fb, pstate := .busy } p.state ∧
    (Memory.wf s.fb → Memory.wf fb) ∧ (mayWriteFB i = false → fb = s.fb)

/-- What an instruction that has passed the gate can have done. -/
def Performed (i : Instr) (s t : State) : Prop :=
  (mayWriteFB i = true ∧ panelFinal i = none ∧ t = answered s 4 []) ∨ Drew i s t ∨ Sequenced i s t

theorem drew_query {i : Instr} {s : State} {ws : List Word} (hf : panelFinal i = none) (hw : ws.length = resultWords i) :
    Drew i s (answered s 0 ws) :=
  ⟨hf, s.fb, s.orient, ws, rfl, hw, id, fun _ => rfl, fun _ => rfl⟩

theorem drew_fb {i : Instr} {s : State} {fb : Memory} (hf : panelFinal i = none) (hm : mayWriteFB i = true)
    (hr : resultWords i = 0) (hwf : Memory.wf s.fb → Memory.wf fb) :
    Drew i s (answered { s with fb := fb } 0 []) :=
  ⟨hf, fb, s.orient, [], rfl, hr.symm, hwf, fun h => by simp [hm] at h, fun _ => rfl⟩

theorem drew_points {i : Instr} {s : State} {c : Color} {pts : List Point} (hf : panelFinal i = none)
    (hm : mayWriteFB i = true) (hr : resultWords i = 0) : Drew i s (answered (drawPoints c pts s) 0 []) :=
  drew_fb hf hm hr fun h => wf_plotAll h _ _

theorem panelFrame_initBody (s : State) : PanelFrame { s with pstate := .busy } (initBody s).state :=
  (panelFrame_emit _ _).trans (panelFrame_runScript _ _)

theorem panelFrame_displayBody (s : State) : PanelFrame { s with pstate := .busy } (displayBody s).state := by
  refine panelFrame_andThen (panelFrame_andThen (panelFrame_runScript _ _) fun t => ?_) fun t =>
    panelFrame_runScript _ _
  exact panelFrame_frameTransfer t

theorem panelFrame_displayBody_fill (c : Color) (s : State) :
    PanelFrame { s with fb := (fillFB c s).fb, pstate := .busy } (displayBody (fillFB c s)).state :=
  panelFrame_displayBody (fillFB c s)

theorem wf_fillFB (c : Color) (s : State) : Memory.wf (fillFB c s).fb := Memory.wf_fill _

/-- Everything a completed execution can have done: an error of the gate, or what the operation does. -/
theorem exec_cases {i : Instr} {s t : State} (h : exec i s = .next t) :
    (isGated i = true ∧ s.pstate = .uninitialized ∧ t = answered s 1 []) ∨
      (isGated i = true ∧ s.pstate = .asleep ∧ t = answered s 2 []) ∨
      ((isGated i = true → s.pstate = .awake) ∧ Performed i s t) := by
  have ofGated : ∀ {perform : State → Result}, isGated i = true → gated s perform = .next t →
      (∀ u, perform s = .next u → Performed i s u) →
      (isGated i = true ∧ s.pstate = .uninitialized ∧ t = answered s 1 []) ∨
        (isGated i = true ∧ s.pstate = .asleep ∧ t = answered s 2 []) ∨
        ((isGated i = true → s.pstate = .awake) ∧ Performed i s t) := fun hg hr hp => by
    rcases gated_cases hr with ⟨h0, rfl⟩ | ⟨h0, rfl⟩ | ⟨h0, h1⟩
    · exact .inl ⟨hg, h0, rfl⟩
    · exact .inr (.inl ⟨hg, h0, rfl⟩)
    · exact .inr (.inr ⟨fun _ => h0, hp _ h1⟩)
  cases i with
  | init =>
    cases h
    exact .inr (.inr ⟨by simp [isGated], .inr (.inr ⟨_, initBody s, s.fb, rfl, rfl, panelFrame_initBody s, id, fun _ => rfl⟩)⟩)
  | resetDisplay =>
    cases h
    have hf : PanelFrame { s with fb := s.fb, pstate := .busy } (initBody (emit .reset (enterBusy s))).state :=
      (panelFrame_emit .reset (enterBusy s)).trans (panelFrame_initBody (emit .reset (enterBusy s)))
    exact .inr (.inr ⟨by simp [isGated], .inr (.inr ⟨_, _, s.fb, rfl, rfl, hf, id, fun _ => rfl⟩)⟩)
  | display =>
    rw [exec_display] at h
    refine ofGated rfl h fun u hu => ?_
    cases hu
    exact .inr (.inr ⟨_, _, s.fb, rfl, rfl, panelFrame_displayBody s, id, fun _ => rfl⟩)
  | clear =>
    rw [exec_clear] at h
    refine ofGated rfl h fun u hu => ?_
    cases hu
    exact .inr (.inr ⟨_, _, (fillFB .white s).fb, rfl, rfl, panelFrame_displayBody_fill .white s,
      fun _ => wf_fillFB _ s, by simp [mayWriteFB]⟩)
  | fillBlack =>
    rw [exec_fillBlack] at h
    refine ofGated rfl h fun u hu => ?_
    cases hu
    exact .inr (.inr ⟨_, _, (fillFB .black s).fb, rfl, rfl, panelFrame_displayBody_fill .black s,
      fun _ => wf_fillFB _ s, by simp [mayWriteFB]⟩)
  | sleep =>
    rw [exec_sleep] at h
    refine ofGated rfl h fun u hu => ?_
    cases hu
    exact .inr (.inr ⟨_, _, s.fb, rfl, rfl, panelFrame_runScript s.cfg.sleepSeq (enterBusy s), id, fun _ => rfl⟩)
  | setOrient o =>
    rw [exec_setOrient] at h
    refine ofGated rfl h fun u hu => ?_
    cases hu
    exact .inr (.inl ⟨rfl, s.fb, o, [], rfl, rfl, id, fun _ => rfl, fun hne => absurd rfl (hne o)⟩)
  | getStatus => cases h; exact .inr (.inr ⟨by simp [isGated], .inr (.inl (drew_query rfl rfl))⟩)
  | fbGetpx px py => cases h; exact .inr (.inr ⟨by simp [isGated], .inr (.inl (drew_query rfl rfl))⟩)
  | fbRead idx => cases h; exact .inr (.inr ⟨by simp [isGated], .inr (.inl (drew_query rfl rfl))⟩)
  | getDims o => cases h; exact .inr (.inr ⟨by simp [isGated], .inr (.inl (drew_query rfl rfl))⟩)
  | map o lx ly => cases h; exact .inr (.inr ⟨by simp [isGated], .inr (.inl (drew_query rfl rfl))⟩)
  | unmap o px py => cases h; exact .inr (.inr ⟨by simp [isGated], .inr (.inl (drew_query rfl rfl))⟩)
  | fbFill c =>
    rw [exec_fbFill] at h
    refine ofGated rfl h fun u hu => ?_
    cases hu
    exact .inr (.inl (drew_fb rfl rfl rfl fun _ => wf_fillFB c s))
  | fbSetpx c px py =>
    rw [exec_fbSetpx] at h
    refine ofGated rfl h fun u hu => ?_
    cases hu
    exact .inr (.inl (drew_fb rfl rfl rfl fun hwf => wf_setPhys hwf _ _))
  | pixel c x y =>
    rw [exec_pixel] at h
    exact ofGated rfl h fun u hu => by cases hu; exact .inr (.inl (drew_points rfl rfl rfl))
  | hline c x y w =>
    rw [exec_hline] at h
    exact ofGated rfl h fun u hu => by cases hu; exact .inr (.inl (drew_points rfl rfl rfl))
  | vline c x y hh =>
    rw [exec_vline] at h
    exact ofGated rfl h fun u hu => by cases hu; exact .inr (.inl (drew_points rfl rfl rfl))
  | line c x1 y1 x2 y2 =>
    rw [exec_line] at h
    exact ofGated rfl h fun u hu => by cases hu; exact .inr (.inl (drew_points rfl rfl rfl))
  | rect c x y w hh =>
    rw [exec_rect] at h
    exact ofGated rfl h fun u hu => by cases hu; exact .inr (.inl (drew_points rfl rfl rfl))
  | fillRect c x y w hh =>
    rw [exec_fillRect] at h
    exact ofGated rfl h fun u hu => by cases hu; exact .inr (.inl (drew_points rfl rfl rfl))
  | circle c x y r =>
    rw [exec_circle] at h
    exact ofGated rfl h fun u hu => by cases hu; exact .inr (.inl (drew_points rfl rfl rfl))
  | text c x y str =>
    rw [exec_text] at h
    exact ofGated rfl h fun u hu => by cases hu; exact .inr (.inl (drew_points rfl rfl rfl))
  | drawBmp x y bw bh depth pol bytes =>
    rw [exec_drawBmp] at h
    refine ofGated rfl h fun u hu => ?_
    split_ifs at hu
    · cases hu
      exact .inr (.inl (drew_fb rfl rfl rfl fun hwf => wf_plotAll hwf _ _))
    · cases hu
      exact .inl ⟨rfl, rfl, rfl⟩

/-- A gated operation stops exactly when PSTATE is Busy, and nothing else stops. -/
theorem exec_answers (i : Instr) (s : State) (h : isGated i = true → s.pstate ≠ .busy) :
    ∃ t, exec i s = .next t := by
  have ofGated : ∀ perform : State → Result, isGated i = true → (∃ u, perform s = .next u) →
      ∃ t, gated s perform = .next t := fun perform hg ⟨u, hu⟩ => by
    cases hp : s.pstate with
    | uninitialized => exact ⟨_, gated_uninitialized hp perform⟩
    | asleep => exact ⟨_, gated_asleep hp perform⟩
    | awake => exact ⟨u, (gated_awake hp perform).trans hu⟩
    | busy => exact absurd hp (h hg)
  cases i with
  | init => exact ⟨_, rfl⟩
  | resetDisplay => exact ⟨_, rfl⟩
  | getStatus => exact ⟨_, rfl⟩
  | fbGetpx => exact ⟨_, rfl⟩
  | fbRead => exact ⟨_, rfl⟩
  | getDims => exact ⟨_, rfl⟩
  | map => exact ⟨_, rfl⟩
  | unmap => exact ⟨_, rfl⟩
  | drawBmp x y bw bh depth pol bytes =>
    rw [exec_drawBmp]; refine ofGated _ rfl ?_
    split_ifs
    · exact ⟨_, rfl⟩
    · exact ⟨_, rfl⟩
  | display => rw [exec_display]; exact ofGated _ rfl ⟨_, rfl⟩
  | clear => rw [exec_clear]; exact ofGated _ rfl ⟨_, rfl⟩
  | fillBlack => rw [exec_fillBlack]; exact ofGated _ rfl ⟨_, rfl⟩
  | sleep => rw [exec_sleep]; exact ofGated _ rfl ⟨_, rfl⟩
  | fbFill => rw [exec_fbFill]; exact ofGated _ rfl ⟨_, rfl⟩
  | fbSetpx => rw [exec_fbSetpx]; exact ofGated _ rfl ⟨_, rfl⟩
  | setOrient => rw [exec_setOrient]; exact ofGated _ rfl ⟨_, rfl⟩
  | pixel => rw [exec_pixel]; exact ofGated _ rfl ⟨_, rfl⟩
  | hline => rw [exec_hline]; exact ofGated _ rfl ⟨_, rfl⟩
  | vline => rw [exec_vline]; exact ofGated _ rfl ⟨_, rfl⟩
  | line => rw [exec_line]; exact ofGated _ rfl ⟨_, rfl⟩
  | rect => rw [exec_rect]; exact ofGated _ rfl ⟨_, rfl⟩
  | fillRect => rw [exec_fillRect]; exact ofGated _ rfl ⟨_, rfl⟩
  | circle => rw [exec_circle]; exact ofGated _ rfl ⟨_, rfl⟩
  | text => rw [exec_text]; exact ofGated _ rfl ⟨_, rfl⟩

/-- The three ways a step that takes a packet can answer. -/
theorem step_cases {s t : State} {pkt : Packet} {rest : List Packet} (hp : s.packets = pkt :: rest)
    (h : step s = .next t) :
    (∃ e, decode s.cfg.maxPktWords pkt = .error e ∧
        t = answered { s with packets := rest } (statusWord (errorOfDecode e).code) []) ∨
      ∃ i, decode s.cfg.maxPktWords pkt = .ok i ∧ exec i { s with packets := rest } = .next t := by
  cases hd : decode s.cfg.maxPktWords pkt with
  | error e =>
    rw [step_undecodable hp hd] at h
    cases h
    exact .inl ⟨e, rfl, rfl⟩
  | ok i =>
    rw [step_instr hp hd] at h
    exact .inr ⟨i, rfl, h⟩

/-- What the end of a panel sequence leaves, from what its body left. -/
theorem closeSequence_cases {final : PState} {p : Progress} {s : State} {fb : Memory} {q : PState}
    (h : PanelFrame { s with fb := fb, pstate := q } p.state) :
    ∃ status p', ((status = 0 ∧ p' = final) ∨ (status = 3 ∧ p' = .uninitialized)) ∧
      ∃ evs busyIn draws, closeSequence final p =
        { s with fb := fb, pstate := p', responses := s.responses ++ [⟨status, []⟩], trace := s.trace ++ evs,
                 busyIn := busyIn, draws := draws } := by
  obtain ⟨evs, he⟩ := h.trace
  cases p with
  | done u =>
    refine ⟨0, final, .inl ⟨rfl, rfl⟩, evs, u.busyIn, u.draws, ?_⟩
    apply state_ext
    · exact h.cfg
    · exact h.fb
    · exact h.orient
    · rfl
    · exact h.debug
    · exact h.packets
    · show u.responses ++ _ = _
      rw [show u.responses = s.responses from h.responses]; rfl
    · exact he
    · rfl
    · rfl
  | timedOut u =>
    refine ⟨3, .uninitialized, .inr ⟨rfl, rfl⟩, evs, u.busyIn, u.draws, ?_⟩
    apply state_ext
    · exact h.cfg
    · exact h.fb
    · exact h.orient
    · rfl
    · exact h.debug
    · exact h.packets
    · show u.responses ++ _ = _
      rw [show u.responses = s.responses from h.responses]; rfl
    · exact he
    · rfl
    · rfl

/-- The response a completed execution adds, and how the rest follows from it. -/
theorem exec_response {i : Instr} {s t : State} (h : exec i s = .next t) :
    ∃ r : Response, t.responses = s.responses ++ [r] ∧ t.cfg = s.cfg ∧ t.debug = s.debug ∧ t.packets = s.packets ∧
      ((∀ o, i ≠ .setOrient o) → t.orient = s.orient) ∧
      ((isGated i = true ∧ s.pstate = .uninitialized ∧ r = ⟨1, []⟩ ∧ t = answered s 1 []) ∨
        (isGated i = true ∧ s.pstate = .asleep ∧ r = ⟨2, []⟩ ∧ t = answered s 2 []) ∨
        ((isGated i = true → s.pstate = .awake) ∧ panelFinal i = none ∧ mayWriteFB i = true ∧ r = ⟨4, []⟩ ∧ t = answered s 4 []) ∨
        ((isGated i = true → s.pstate = .awake) ∧ panelFinal i = none ∧ r.status = 0 ∧ r.results.length = resultWords i ∧
          t.pstate = s.pstate ∧ t.trace = s.trace ∧ (Memory.wf s.fb → Memory.wf t.fb) ∧ (mayWriteFB i = false → t.fb = s.fb)) ∨
        ((isGated i = true → s.pstate = .awake) ∧ ∃ final, panelFinal i = some final ∧ r.results = [] ∧ 
          ((r.status = 0 ∧ t.pstate = final) ∨ (r.status = 3 ∧ t.pstate = .uninitialized)) ∧ resultWords i = 0 ∧
          (∃ evs, t.trace = s.trace ++ evs) ∧
          (Memory.wf s.fb → Memory.wf t.fb) ∧ (mayWriteFB i = false → t.fb = s.fb))) := by
  rcases exec_cases h with ⟨hg, hp, rfl⟩ | ⟨hg, hp, rfl⟩ | ⟨hg, hperf⟩
  · exact ⟨_, rfl, rfl, rfl, rfl, fun _ => rfl, .inl ⟨hg, hp, rfl, rfl⟩⟩
  · exact ⟨_, rfl, rfl, rfl, rfl, fun _ => rfl, .inr (.inl ⟨hg, hp, rfl, rfl⟩)⟩
  · rcases hperf with ⟨hm, hf, rfl⟩ | ⟨hf, fb, o, ws, rfl, hw, hwf, hfb, ho⟩ | ⟨final, p, fb, hf, rfl, hfr, hwf, hfb⟩
    · exact ⟨_, rfl, rfl, rfl, rfl, fun _ => rfl, .inr (.inr (.inl ⟨hg, hf, hm, rfl, rfl⟩))⟩
    · exact ⟨_, rfl, rfl, rfl, rfl, ho, .inr (.inr (.inr (.inl ⟨hg, hf, rfl, hw, rfl, rfl, hwf, hfb⟩)))⟩
    · obtain ⟨status, p', hs, evs, b, d, he⟩ := closeSequence_cases (final := final) hfr
      rw [he]
      refine ⟨⟨status, []⟩, rfl, rfl, rfl, rfl, fun _ => rfl, .inr (.inr (.inr (.inr
        ⟨hg, final, hf, rfl, hs, ?_, ⟨evs, rfl⟩, hwf, hfb⟩)))⟩
      cases i <;> first | rfl | cases hf

/-! ### Reset -/

/-- FB after reset is one fill (70_reset_and_hazards.md R280). -/
theorem resetWith_fb (cfg : Config) :
    (State.resetWith cfg).fb = Memory.fill (if cfg.initFill = .white then 0x00 else 0xFF) := by
  cases h : cfg.initFill <;> simp [State.resetWith, h, Memory.fill, Memory.unlisted]

/-! ### Drawing operations -/

/-- What a drawing operation of one colour does, in every PSTATE the gate can see. -/
theorem runsWhenAwake_draw {s : State} (hwf : Memory.wf s.fb) (c : Color) (pts : List Point) {ink : Int → Int → Color → Prop}
    (h : ∀ lx ly c', ink lx ly c' ↔ c' = c ∧ (⟨lx, ly⟩ : Point) ∈ pts) :
    RunsWhenAwake s (gated s fun s => .next (answered (drawPoints c pts s) 0 [])) fun r => ∃ t, r = .next t ∧ Paints s t ink :=
  runsWhenAwake_gated fun _ => ⟨_, rfl, (paints_drawPoints hwf c pts).congr h⟩

/-- Drawing depends on the set of points alone. -/
theorem drawPoints_congr {s : State} (hwf : Memory.wf s.fb) (c : Color) {pts pts' : List Point} (h : ∀ p, p ∈ pts ↔ p ∈ pts') :
    drawPoints c pts s = drawPoints c pts' s := by
  unfold drawPoints; rw [plotAll_ext hwf s.orient c h]

theorem gated_congr {s : State} {f g : State → Result} (h : f s = g s) : gated s f = gated s g := by
  unfold gated; rw [h]

/-- Drawing only off the canvas changes nothing. -/
theorem drawPoints_off {s : State} (c : Color) {pts : List Point} (h : ∀ p ∈ pts, ¬ inCanvas s.orient p.x p.y) : drawPoints c pts s = s := by
  unfold drawPoints
  rw [plotAll_off]
  intro pc hpc
  obtain ⟨p, hp, rfl⟩ := List.mem_map.1 hpc
  exact h p hp

end Sys2Proof.Machine
end

