-- ==== Sys2Proof/Laws/Unseen.lean ====
section
/-! SUPPORT. Changes of the state that no operation can see: how the operations of the panel port, the closing of a panel
sequence and the gate commute with such a change. -/

namespace Sys2Proof.Machine

/-- A change of the state that no operation but GET_STATUS can see: it keeps what operations read and commutes with what
they write. -/
structure Unseen (f : State → State) : Prop where
  fb : ∀ s, (f s).fb = s.fb
  orient : ∀ s, (f s).orient = s.orient
  pstate : ∀ s, (f s).pstate = s.pstate
  busyIn : ∀ s, (f s).busyIn = s.busyIn
  draws : ∀ s, (f s).draws = s.draws
  packets : ∀ s, (f s).packets = s.packets
  cfg : ∀ s, ∃ n l, (f s).cfg = { s.cfg with pollInterval := n, busyActiveLevel := l }
  setFb : ∀ s x, f { s with fb := x } = { f s with fb := x }
  setOrient : ∀ s x, f { s with orient := x } = { f s with orient := x }
  setPstate : ∀ s x, f { s with pstate := x } = { f s with pstate := x }
  setBusyIn : ∀ s x, f { s with busyIn := x } = { f s with busyIn := x }
  setDraws : ∀ s x, f { s with draws := x } = { f s with draws := x }
  setPackets : ∀ s x, f { s with packets := x } = { f s with packets := x }
  emit : ∀ s ev, f (emit ev s) = emit ev (f s)
  respond : ∀ s w ws, f (answered s w ws) = answered (f s) w ws

/-- A progress with its state changed. -/
def Progress.onState (f : State → State) : Progress → Progress
  | .done s => .done (f s)
  | .timedOut s => .timedOut (f s)

variable {f : State → State}

theorem Unseen.nextFb (hf : Unseen f) (s : State) (x : Memory) (ws : List Word) :
    Host.Outcome.next (answered { f s with fb := x } 0 ws) = onNext f (.next (answered { s with fb := x } 0 ws)) := by
  rw [onNext, hf.respond]; exact congrArg (fun u => Host.Outcome.next (answered u 0 ws)) (hf.setFb s x).symm

theorem Unseen.nextAnswer (hf : Unseen f) (s : State) : nextAnswer (f s) = nextAnswer s := by
  unfold Machine.nextAnswer; rw [hf.busyIn, hf.draws]

theorem Unseen.takeAnswer (hf : Unseen f) (s : State) : takeAnswer (f s) = f (takeAnswer s) := by
  have hb := hf.busyIn s
  cases h : s.busyIn with
  | nil => 
    have e : ∀ t : State, t.busyIn = [] → Machine.takeAnswer t = { t with draws := t.draws + 1 } := fun t ht => by
      unfold Machine.takeAnswer; rw [ht]
    rw [e _ (hb.trans h), e _ h, hf.draws]; exact (hf.setDraws s _).symm
  | cons b rest => rw [h] at hb; simp only [Machine.takeAnswer, h, hb]; exact (hf.setBusyIn s _).symm

theorem Unseen.pollBusy (hf : Unseen f) (s : State) : pollBusy (f s) = f (pollBusy s) := by
  unfold Machine.pollBusy; rw [hf.nextAnswer, hf.takeAnswer, hf.emit]

theorem Unseen.waitPolls (hf : Unseen f) (n : Nat) (s : State) : waitPolls n (f s) = (waitPolls n s).onState f := by
  induction n generalizing s with
  | zero => rfl
  | succ n ih =>
    unfold Machine.waitPolls
    rw [hf.nextAnswer, hf.pollBusy, ih]
    split <;> rfl

theorem Unseen.busyMaxPolls (hf : Unseen f) (s : State) : (f s).cfg.busyMaxPolls = s.cfg.busyMaxPolls := by
  obtain ⟨n, l, h⟩ := hf.cfg s; rw [h]; rfl

theorem Unseen.runStep (hf : Unseen f) (st : PanelStep) (s : State) : runStep st (f s) = (runStep st s).onState f := by
  cases st with
  | cmd b => exact congrArg Progress.done (hf.emit s _).symm
  | data bs => exact congrArg Progress.done (hf.emit s _).symm
  | dataFill b n => exact congrArg Progress.done (hf.emit s _).symm
  | waitIdle => simp only [Machine.runStep, waitIdle]; rw [hf.busyMaxPolls, hf.waitPolls]
  | delay t => rfl

theorem onState_andThen (p : Progress) {k k' : State → Progress} (h : ∀ s, k' (f s) = (k s).onState f) :
    (p.onState f).andThen k' = (p.andThen k).onState f := by
  cases p with
  | done s => exact h s
  | timedOut s => rfl

theorem Unseen.runScript (hf : Unseen f) (script : List PanelStep) (s : State) :
    runScript script (f s) = (runScript script s).onState f := by
  induction script generalizing s with
  | nil => rfl
  | cons st rest ih =>
    simp only [Machine.runScript]
    rw [hf.runStep, onState_andThen _ ih]

theorem Unseen.closeSequence (hf : Unseen f) (final : PState) (p : Progress) :
    closeSequence final (p.onState f) = f (closeSequence final p) := by
  cases p with
  | done s => 
    show answered { f s with pstate := final } 0 [] = f (answered { s with pstate := final } 0 [])
    rw [hf.respond]; exact congrArg (answered · _ _) (hf.setPstate s _).symm
  | timedOut s =>
    show answered { f s with pstate := .uninitialized } 3 [] = f (answered { s with pstate := .uninitialized } 3 [])
    rw [hf.respond]; exact congrArg (answered · _ _) (hf.setPstate s _).symm

theorem Unseen.initBody (hf : Unseen f) (s : State) : initBody (f s) = (initBody s).onState f := by
  unfold Machine.initBody enterBusy
  obtain ⟨n, l, h⟩ := hf.cfg s
  rw [show (f s).cfg.initSeq = s.cfg.initSeq by rw [h], ← hf.setPstate s _, ← hf.emit, hf.runScript]

theorem Unseen.displayBody (hf : Unseen f) (s : State) : displayBody (f s) = (displayBody s).onState f := by
  unfold Machine.displayBody enterBusy
  obtain ⟨n, l, h⟩ := hf.cfg s
  rw [show (f s).cfg.dispPre = s.cfg.dispPre by rw [h], ← hf.setPstate, hf.runScript]
  rw [onState_andThen, onState_andThen]
  · intro t
    obtain ⟨n, l, h⟩ := hf.cfg t
    rw [show (f t).cfg.dispPost = t.cfg.dispPost by rw [h], hf.runScript]
  · intro t
    obtain ⟨n, l, h⟩ := hf.cfg t
    unfold frameTransfer
    rw [show (f t).cfg.dtmCmd = t.cfg.dtmCmd by rw [h], hf.fb, ← hf.emit, ← hf.emit]; rfl

theorem Unseen.gated (hf : Unseen f) {s : State} {k : State → Result} (h : k (f s) = onNext f (k s)) :
    gated (f s) k = onNext f (gated s k) := by
  have hp := hf.pstate s
  cases hs : s.pstate with
  | uninitialized => rw [gated_uninitialized hs, gated_uninitialized (hp.trans hs), onNext, hf.respond]
  | asleep => rw [gated_asleep hs, gated_asleep (hp.trans hs), onNext, hf.respond]
  | awake => rw [gated_awake hs, gated_awake (hp.trans hs), h]
  | busy => rw [gated_busy hs, gated_busy (hp.trans hs)]; rfl

end Sys2Proof.Machine
end

