-- ==== Sys2Proof/Machine/Assembly.lean ====
section
/-! DEFINITION. The textual form of a packet (30_encoding.md R106): a line with integer operands, the packet an assembler makes
of it, and its text. A notation; it is no part of the block. -/

namespace Sys2Proof.Machine

/-- A line of assembler (30_encoding.md R106): operands are integers, a colour or an orientation comes first. -/
inductive AsmLine where
  | init | display | clear | fillBlack | sleep | resetDisplay | getStatus
  | fbFill (c : Color)
  | fbSetpx (c : Color) (px py : Int)
  | fbGetpx (px py : Int)
  | fbRead (idx : Int)
  | setOrient (o : Orientation)
  | getDims (o : Orientation)
  | map (o : Orientation) (lx ly : Int)
  | unmap (o : Orientation) (px py : Int)
  | pixel (c : Color) (x y : Int)
  | hline (c : Color) (x y w : Int)
  | vline (c : Color) (x y h : Int)
  | line (c : Color) (x1 y1 x2 y2 : Int)
  | rect (c : Color) (x y w h : Int)
  | fillRect (c : Color) (x y w h : Int)
  | circle (c : Color) (x y r : Int)
  | text (c : Color) (x y : Int) (str : List Byte)
  | drawBmp (x y bw bh depth pol : Int) (bytes : List Byte)
  deriving DecidableEq, Repr

/-- The packet of a line: every integer as `lo32`, L or LEN the number of bytes, padding 0 (30_encoding.md R106). -/
def AsmLine.assemble : AsmLine → Packet
  | .init => [commandWord .init 0]
  | .display => [commandWord .display 0]
  | .clear => [commandWord .clear 0]
  | .fillBlack => [commandWord .fillBlack 0]
  | .sleep => [commandWord .sleep 0]
  | .resetDisplay => [commandWord .resetDisplay 0]
  | .getStatus => [commandWord .getStatus 0]
  | .fbFill c => [commandWord .fbFill (modOfColour c)]
  | .fbSetpx c px py => [commandWord .fbSetpx (modOfColour c), lo32 px, lo32 py]
  | .fbGetpx px py => [commandWord .fbGetpx 0, lo32 px, lo32 py]
  | .fbRead idx => [commandWord .fbRead 0, lo32 idx]
  | .setOrient o => [commandWord .setOrient (modOfOrient o)]
  | .getDims o => [commandWord .getDims (modOfOrient o)]
  | .map o lx ly => [commandWord .map (modOfOrient o), lo32 lx, lo32 ly]
  | .unmap o px py => [commandWord .unmap (modOfOrient o), lo32 px, lo32 py]
  | .pixel c x y => [commandWord .pixel (modOfColour c), lo32 x, lo32 y]
  | .hline c x y w => [commandWord .hline (modOfColour c), lo32 x, lo32 y, lo32 w]
  | .vline c x y h => [commandWord .vline (modOfColour c), lo32 x, lo32 y, lo32 h]
  | .line c x1 y1 x2 y2 =>
      [commandWord .line (modOfColour c), lo32 x1, lo32 y1, lo32 x2, lo32 y2]
  | .rect c x y w h => [commandWord .rect (modOfColour c), lo32 x, lo32 y, lo32 w, lo32 h]
  | .fillRect c x y w h => [commandWord .fillRect (modOfColour c), lo32 x, lo32 y, lo32 w, lo32 h]
  | .circle c x y r => [commandWord .circle (modOfColour c), lo32 x, lo32 y, lo32 r]
  | .text c x y str =>
      commandWord .text (modOfColour c) :: lo32 x :: lo32 y :: lo32 str.length :: packBytes str
  | .drawBmp x y bw bh depth pol bytes =>
      commandWord .drawBmp 0 :: lo32 x :: lo32 y :: lo32 bw :: lo32 bh :: lo32 depth :: lo32 pol ::
        lo32 bytes.length :: packBytes bytes

/-- `W` or `B` (30_encoding.md R106). -/
def colourLetter : Color → String
  | .white => "W"
  | .black => "B"

/-- A hexadecimal digit. -/
def hexDigit (n : Nat) : Char := if n < 10 then Char.ofNat (48 + n) else Char.ofNat (55 + n)

/-- A byte as two hexadecimal digits. -/
def hexByte (b : Byte) : String := String.ofList [hexDigit (b.toNat / 16), hexDigit (b.toNat % 16)]

/-- A character of a string operand: itself if it is printable ASCII other than the double quote and the backslash, else the
escape for its byte (30_encoding.md R106). -/
def charText (b : Byte) : String :=
  if 32 ≤ b.toNat ∧ b.toNat < 127 ∧ b.toNat ≠ 34 ∧ b.toNat ≠ 92 then String.ofList [Char.ofNat b.toNat]
  else "\\x" ++ hexByte b

/-- Operands separated by commas (30_encoding.md R106). -/
def operandList (ops : List String) : String := ", ".intercalate ops

/-- The mnemonic and its operands. -/
def asmText (mnemonic : String) (ops : List String) : String :=
  if ops.isEmpty then mnemonic else mnemonic ++ " " ++ operandList ops

/-- The text of a line, integers in decimal (30_encoding.md R106). -/
def AsmLine.render : AsmLine → String
  | .init => "INIT"
  | .display => "DISPLAY"
  | .clear => "CLEAR"
  | .fillBlack => "FILL_BLACK"
  | .sleep => "SLEEP"
  | .resetDisplay => "RESET_DISPLAY"
  | .getStatus => "GET_STATUS"
  | .fbFill c => asmText "FB_FILL" [colourLetter c]
  | .fbSetpx c px py => asmText "FB_SETPX" [colourLetter c, toString px, toString py]
  | .fbGetpx px py => asmText "FB_GETPX" [toString px, toString py]
  | .fbRead idx => asmText "FB_READ" [toString idx]
  | .setOrient o => asmText "SET_ORIENT" [toString o.index.toNat]
  | .getDims o => asmText "GET_DIMS" [toString o.index.toNat]
  | .map o lx ly => asmText "MAP" [toString o.index.toNat, toString lx, toString ly]
  | .unmap o px py => asmText "UNMAP" [toString o.index.toNat, toString px, toString py]
  | .pixel c x y => asmText "PIXEL" [colourLetter c, toString x, toString y]
  | .hline c x y w => asmText "HLINE" [colourLetter c, toString x, toString y, toString w]
  | .vline c x y h => asmText "VLINE" [colourLetter c, toString x, toString y, toString h]
  | .line c x1 y1 x2 y2 =>
      asmText "LINE" [colourLetter c, toString x1, toString y1, toString x2, toString y2]
  | .rect c x y w h => asmText "RECT" [colourLetter c, toString x, toString y, toString w, toString h]
  | .fillRect c x y w h =>
      asmText "FILL_RECT" [colourLetter c, toString x, toString y, toString w, toString h]
  | .circle c x y r => asmText "CIRCLE" [colourLetter c, toString x, toString y, toString r]
  | .text c x y str =>
      asmText "TEXT" [colourLetter c, toString x, toString y, "\"" ++ String.join (str.map charText) ++ "\""]
  | .drawBmp x y bw bh depth pol bytes =>
      asmText "DRAW_BMP" [toString x, toString y, toString bw, toString bh, toString depth, toString pol,
        "[" ++ operandList (bytes.map fun b => "0x" ++ hexByte b) ++ "]"]

end Sys2Proof.Machine
end

