-- ==== Sys2Proof/Tests/Slice0.lean ====
section
/-! SUPPORT. Tests: ill-formed terms, decoding of words written out from 30_encoding.md R81 to R87, single steps with the values
of spec/95_test_vectors.md, and the witnesses of the statements' hypotheses. -/

namespace Sys2Proof.Tests

open Sys2Proof Sys2Proof.Machine

set_option Elab.async false

/-! ### The test configuration and states of 95_test_vectors.md section 0 -/

/-- TC and TG. -/
def testConfig : Config where
  initOrient := .deg0
  debug := false
  initFill := .white
  busyPollsMinusOne := 2
  pollInterval := 0
  initSeq := [.cmd 0xE1, .data [0x01, 0x02], .cmd 0xE2, .waitIdle]
  dispPre := []
  dtmCmd := 0xE3
  dispPost := [.cmd 0xE4, .waitIdle]
  sleepSeq := [.cmd 0xE5, .waitIdle, .cmd 0xE6, .data [0xA5]]
  glyphs := [(0x41, [0x18, 0x24, 0x42, 0x42, 0x7E, 0x42, 0x42, 0x00]), (0x20, List.replicate 8 0x00)]
  glyphRowsMinusOne := 7
  busyActiveLevel := .low
  maxPktWords := .unbounded

/-- The state after reset, the panel answering first as listed and then idle. -/
def fromReset (busy : List Bool) : State :=
  { State.resetWith testConfig with busyIn := busy ++ List.replicate 6 false }

/-- S0 in a PSTATE. -/
def s0 (p : PState) : State := { fromReset [] with pstate := p }

/-- S0 in an orientation. -/
def s0In (o : Orientation) : State := { s0 .awake with orient := o }

/-- S0 with FB[0] = 0x3C, the start of section 2.7. -/
def s0Bmp : State := { s0 .awake with fb := [(0, 0x3C)] }

/-- The state after a packet. -/
def after (s : State) (pkt : Packet) : Option State :=
  match step (sendFirst pkt s) with
  | .next t => some t
  | _ => none

/-- The response of a packet: status and result words. -/
def answer (s : State) (pkt : Packet) : Option (List Word) :=
  (after s pkt).bind fun t => t.responses.getLast?.map fun r => r.status :: r.results

/-- The bytes of FB after a packet that are not 0x00. -/
def bytesAfter (s : State) (pkt : Packet) : Option Memory := (after s pkt).map State.fb

/-- The panel trace after a packet. -/
def traceAfter (s : State) (pkt : Packet) : Option (List PanelEvent) := (after s pkt).map State.trace

/-- The status of a packet and PSTATE after it. -/
def endsIn (s : State) (pkt : Packet) : Option (Word × PState) :=
  (after s pkt).bind fun t => (lastStatus t).map fun st => (st, t.pstate)

/-- A byte of FB after a packet. -/
def byteAfter (s : State) (pkt : Packet) (a : Nat) : Option Byte := (after s pkt).map fun t => t.fb.read a

/-- The points of TC's INIT whose waits are answered idle. -/
def initEvents : List PanelEvent := [.reset, .cmd 0xE1, .data [0x01, 0x02], .cmd 0xE2, .poll false]

/-! ### Well-formedness refuses -/

theorem countFits_text_of_length {str : List Byte} (h : str.length = 2 ^ 32) :
    (Instr.text .black 0 0 str).wf .unbounded = false := by
  simp [Instr.wf, Instr.countFits, h]

theorem countFits_drawBmp_of_length {bytes : List Byte} (h : bytes.length = 2 ^ 32) :
    (Instr.drawBmp 0 0 8 1 1 .direct bytes).wf .unbounded = false := by
  simp [Instr.wf, Instr.countFits, h]

/-- A string whose length does not fit the word L. -/
theorem test_wf_text_too_long : (Instr.text .black 0 0 (List.replicate (2 ^ 32) 0)).wf .unbounded = false :=
  countFits_text_of_length List.length_replicate

/-- Bitmap bytes whose number does not fit the word LEN. -/
theorem test_wf_drawBmp_too_long :
    (Instr.drawBmp 0 0 8 1 1 .direct (List.replicate (2 ^ 32) 0)).wf .unbounded = false :=
  countFits_drawBmp_of_length List.length_replicate

/-- A packet longer than P_MAX_PKT_WORDS = 8 (V-DE17): 9 words. -/
theorem test_wf_packet_too_long : (Instr.text .black 0 0 (List.replicate 20 0x41)).wf (.beyondEight 0) = false := by
  decide

/-- 8 words pass the same limit. -/
theorem test_wf_packet_fits : (Instr.text .black 0 0 (List.replicate 16 0x41)).wf (.beyondEight 0) = true := by decide

/-- TC is a well-formed configuration (44_panel_protocol.md R219, R222), with its own bytes as the panel's commands. -/
theorem test_config_wf : testConfig.wf ⟨[0xE2, 0xE4, 0xE5], 0xE4, 0xE6⟩ = true := by decide

/-- A power-on without its wait, a script step without data, and a glyph of the wrong height are ill-formed. -/
theorem test_config_ill_formed :
    ({ testConfig with initSeq := [.cmd 0xE2] }).wf ⟨[0xE2, 0xE4, 0xE5], 0xE4, 0xE6⟩ = false ∧
    ({ testConfig with dispPre := [.data []] }).wf ⟨[0xE2, 0xE4, 0xE5], 0xE4, 0xE6⟩ = false ∧
    ({ testConfig with glyphRowsMinusOne := 6 }).wf ⟨[0xE2, 0xE4, 0xE5], 0xE4, 0xE6⟩ = false := by decide

/-! ### Decoding: words written out from the encoding -/

theorem test_decode_init : decode .unbounded [0x01000000] = .ok .init := by rfl
theorem test_decode_display : decode .unbounded [0x02000000] = .ok .display := by rfl
theorem test_decode_clear : decode .unbounded [0x03000000] = .ok .clear := by rfl
theorem test_decode_fillBlack : decode .unbounded [0x04000000] = .ok .fillBlack := by rfl
theorem test_decode_sleep : decode .unbounded [0x05000000] = .ok .sleep := by rfl
theorem test_decode_resetDisplay : decode .unbounded [0x06000000] = .ok .resetDisplay := by rfl
theorem test_decode_getStatus : decode .unbounded [0x07000000] = .ok .getStatus := by rfl
theorem test_decode_fbFill : decode .unbounded [0x10000001] = .ok (.fbFill .black) := by rfl
theorem test_decode_fbSetpx :
    decode .unbounded [0x11000000, 0x00000007, 0x00000009] = .ok (.fbSetpx .white 7 9) := by rfl
theorem test_decode_fbGetpx :
    decode .unbounded [0x12000000, 0x00000009, 0x00000007] = .ok (.fbGetpx 9 7) := by rfl
theorem test_decode_fbRead : decode .unbounded [0x13000000, 0x000016B0] = .ok (.fbRead 5808) := by rfl
theorem test_decode_setOrient : decode .unbounded [0x20000003] = .ok (.setOrient .deg270) := by rfl
theorem test_decode_getDims : decode .unbounded [0x21000002] = .ok (.getDims .deg180) := by rfl
theorem test_decode_map :
    decode .unbounded [0x22000001, 0x00000000, 0x80000000] = .ok (.map .deg90 0 0x80000000) := by rfl
theorem test_decode_unmap :
    decode .unbounded [0x23000001, 0x000000AF, 0x00000001] = .ok (.unmap .deg90 175 1) := by rfl
theorem test_decode_pixel :
    decode .unbounded [0x30000001, 0x00000005, 0x00000006] = .ok (.pixel .black 5 6) := by rfl
theorem test_decode_hline :
    decode .unbounded [0x31000001, 0x000000AE, 0x00000000, 0x00000004] = .ok (.hline .black 174 0 4) := by rfl
theorem test_decode_vline :
    decode .unbounded [0x32000001, 0x00000000, 0x00000106, 0x00000004] = .ok (.vline .black 0 262 4) := by rfl
theorem test_decode_line :
    decode .unbounded [0x33000001, 0x00000003, 0x00000001, 0x00000000, 0x00000002] = .ok (.line .black 3 1 0 2) := by rfl
theorem test_decode_rect :
    decode .unbounded [0x34000001, 0x000000AE, 0x00000106, 0x00000003, 0x00000004] =
      .ok (.rect .black 174 262 3 4) := by rfl
theorem test_decode_fillRect :
    decode .unbounded [0x35000001, 0x00000008, 0x00000000, 0x00000007, 0x00000001] = .ok (.fillRect .black 8 0 7 1) := by
  rfl
theorem test_decode_circle :
    decode .unbounded [0x36000001, 0x0000000C, 0x00000003, 0x00000002] = .ok (.circle .black 12 3 2) := by rfl
/-- The bytes of a string are packed low byte first; the padding is not read (30_encoding.md R87). -/
theorem test_decode_text :
    decode .unbounded [0x37000001, 0x00000001, 0x00000002, 0x00000002, 0xFFFF415A] =
      .ok (.text .black 1 2 [0x5A, 0x41]) := by rfl
/-- The words of V-BM3 with POL = 1. -/
theorem test_decode_drawBmp :
    decode .unbounded [0x38000000, 0x00000001, 0x00000004, 0x00000003, 0x00000002, 0x00000001, 0x00000001, 0x00000002,
      0x000040A0] = .ok (.drawBmp 1 4 3 2 1 .inverted [0xA0, 0x40]) := by rfl

/-- V-DE1 to V-DE7: no words, unassigned opcodes, RSV, MOD of form Z, an extra word. -/
theorem test_decode_errors_plain :
    ([[], [0x00000000], [0x08000000], [0xFF000000], [0x01000100], [0x01000001], [0x01000000, 0x00000000]].map
      (answer (fromReset []))) = [some [6], some [5], some [5], some [5], some [6], some [6], some [6]] := by decide

/-- V-DE8 to V-DE16: MOD of forms C, O, Z; too short; a wrong L; POL = 2, also with DEPTH = 2. -/
theorem test_decode_errors_operands :
    ([[0x10000002], [0x20000004], [0x30000001, 0], [0x37000001, 0, 0], [0x37000001, 0, 0, 5, 0x41414141],
      [0x38000000, 0, 0, 8, 1, 1, 2, 1, 0xA5], [0x38000000, 0, 0, 8, 1, 2, 2, 1, 0xA5], [0x12000001, 0, 0],
      [0x07000001]].map (answer (fromReset []))) = List.replicate 9 (some [6]) := by decide

/-- V-DE17. -/
theorem test_decode_limit :
    answer { fromReset [] with cfg := { testConfig with maxPktWords := .beyondEight 0 } }
      [0x37000001, 0, 0, 20, 0x41414141, 0x41414141, 0x41414141, 0x41414141, 0x41414141] = some [6] := by decide

/-- The assembler form (30_encoding.md R106). -/
theorem test_assemble :
    AsmLine.assemble (.fbSetpx .black (-1) 0) = [0x11000001, 0xFFFFFFFF, 0x00000000] ∧
    AsmLine.assemble (.text .black 0 0 [0x5A, 0x41]) = [0x37000001, 0, 0, 2, 0x0000415A] := by decide

/-! ### Frame buffer (section 2.1) -/

theorem test_fbFill : byteAfter (s0 .awake) [0x10000001] 100 = some 0xFF ∧
    bytesAfter (s0 .awake) [0x10000000] = some [] := by decide +kernel
/-- V-FB5, V-FB6. -/
theorem test_fbSetpx : bytesAfter (s0 .awake) [0x11000001, 8, 1] = some [(23, 0x80)] ∧
    bytesAfter (s0 .awake) [0x11000001, 0xAF, 0x107] = some [(5807, 0x01)] := by decide +kernel
/-- V-FB7 to V-FB11: discarded. -/
theorem test_fbSetpx_off :
    ([[0x11000001, 0xFFFFFFFF, 0], [0x11000001, 0xB0, 0], [0x11000001, 0, 0x108], [0x11000001, 0, 0xFFFFFFFF],
      [0x11000001, 0x7FFFFFFF, 0x80000000]].map (bytesAfter (s0 .awake))) = List.replicate 5 (some []) := by
  decide +kernel
/-- V-FB12 to V-FB16. -/
theorem test_fbGetpx :
    ([[0x12000000, 9, 0], [0x12000000, 8, 0], [0x12000000, 0xFFFFFFFF, 0], [0x12000000, 0xB0, 5],
      [0x12000000, 0, 0x108]].map (answer { s0 .uninitialized with fb := [(1, 0x40)] })) =
      [some [0, 1], some [0, 0], some [0, 0], some [0, 0], some [0, 0]] := by decide +kernel
/-- V-FB17 to V-FB21. -/
theorem test_fbRead :
    ([[0x13000000, 1], [0x13000000, 0], [0x13000000, 0x16AF], [0x13000000, 0x16B0], [0x13000000, 0xFFFFFFFF]].map
      (answer { s0 .asleep with fb := [(1, 0x40)] })) =
      [some [0, 0x40], some [0, 0], some [0, 0], some [0, 0], some [0, 0]] := by decide +kernel

/-! ### Orientation (section 2.2) -/

/-- V-PN12: after SET_ORIENT 1 in Awake GET_STATUS answers 5. -/
theorem test_setOrient :
    ((after (s0 .awake) [0x20000001]).bind fun t => answer t [0x07000000]) = some [0, 5] := by decide +kernel
theorem test_getDims : ([[0x21000000], [0x21000001], [0x21000002], [0x21000003]].map (answer (s0 .asleep))) =
    [some [0, 0xB0, 0x108], some [0, 0x108, 0xB0], some [0, 0xB0, 0x108], some [0, 0x108, 0xB0]] := by decide +kernel
/-- E3, and the extreme operand of section 2.2. -/
theorem test_map : ([[0x22000000, 10, 20], [0x22000001, 10, 20], [0x22000002, 10, 20], [0x22000003, 10, 20],
    [0x22000001, 0, 0x80000000]].map (answer (s0 .uninitialized))) =
    [some [0, 10, 20], some [0, 155, 10], some [0, 165, 243], some [0, 20, 253], some [0, 0x800000AF, 0]] := by
  decide +kernel
theorem test_unmap : ([[0x23000000, 10, 20], [0x23000001, 155, 10], [0x23000002, 165, 243], [0x23000003, 20, 253],
    [0x23000001, 0xB0, 0]].map (answer (s0 .uninitialized))) =
    [some [0, 10, 20], some [0, 10, 20], some [0, 10, 20], some [0, 10, 20], some [0, 0, 0xFFFFFFFF]] := by
  decide +kernel
/-- PIXEL B, 1, 2 in each orientation. -/
theorem test_pixel_orient :
    ([Orientation.deg0, .deg90, .deg180, .deg270].map fun o => bytesAfter (s0In o) [0x30000001, 1, 2]) =
      [some [(44, 0x40)], some [(43, 0x04)], some [(5763, 0x02)], some [(5764, 0x20)]] := by decide +kernel

/-! ### Rasterizer (sections 2.3 to 2.5) -/

/-- V-HV1, V-HV3, V-HV4, V-HV6. -/
theorem test_hline :
    ([[0x31000001, 0, 0, 8], [0x31000001, 0xAE, 0, 4], [0x31000001, 0xFFFFFFFE, 0, 3], [0x31000001, 0, 0, 0xFFFFFFFB]].map
      (bytesAfter (s0 .awake))) = [some [(0, 0xFF)], some [(21, 0x03)], some [(0, 0x80)], some []] := by decide +kernel
/-- V-HV7 to V-HV10. -/
theorem test_vline :
    ([[0x32000001, 0, 0x106, 4], [0x32000001, 0, 0, 0], [0x32000001, 0, 0xFFFFFFFF, 2], [0x32000001, 0, 0, 3]].map
      (bytesAfter (s0 .awake))) =
      [some [(5764, 0x80), (5786, 0x80)], some [], some [(0, 0x80)], some [(0, 0x80), (22, 0x80), (44, 0x80)]] := by
  decide +kernel
/-- V-LN1 and V-LN2: the rounding, and both orders of the ends. -/
theorem test_line :
    ([[0x33000001, 0, 0, 3, 1], [0x33000001, 3, 1, 0, 0]].map (bytesAfter (s0 .awake))) =
      List.replicate 2 (some [(0, 0xC0), (22, 0x30)]) := by decide +kernel
/-- V-LN3: y-major. -/
theorem test_line_steep : bytesAfter (s0 .awake) [0x33000001, 0, 0, 1, 3] =
    some [(0, 0x80), (22, 0x80), (44, 0x40), (66, 0x40)] := by decide +kernel
/-- V-RC5, V-RC6. -/
theorem test_rect :
    ([[0x34000001, 1, 1, 3, 2], [0x34000001, 0, 0, 0xFFFFFFFF, 2]].map (bytesAfter (s0 .awake))) =
      [some [(22, 0x78), (44, 0x48), (66, 0x78)], some []] := by decide +kernel
/-- V-FR4, V-FR5. -/
theorem test_fillRect :
    ([[0x35000001, 0xFFFFFFFF, 0xFFFFFFFF, 1, 1], [0x35000001, 8, 0, 7, 1]].map (bytesAfter (s0 .awake))) =
      [some [(0, 0x80)], some [(1, 0xFF), (23, 0xFF)]] := by decide +kernel
/-- V-CI1 and the circle at (10, 10) of section 2.5. -/
theorem test_circle :
    ([[0x36000001, 20, 20, 0xFFFFFFFF], [0x36000001, 10, 10, 1]].map (bytesAfter (s0 .awake))) =
      [some [], some [(199, 0x20), (221, 0x50), (243, 0x20)]] := by decide +kernel
/-- The steps of r = 2. -/
theorem test_circle_steps : circleSteps 3 2 0 (-1) = [(2, 0), (2, 1)] := by decide +kernel

/-! ### Text and bitmaps (sections 2.6, 2.7) -/

/-- V-TX2: an unsupported character advances. V-TX3: no character. -/
theorem test_text :
    ([[0x37000001, 0, 0, 2, 0x0000415A], [0x37000001, 0, 0, 0]].map (bytesAfter (s0 .awake))) =
      [some [(1, 0x18), (23, 0x24), (45, 0x42), (67, 0x42), (89, 0x7E), (111, 0x42), (133, 0x42)], some []] := by
  decide +kernel
/-- V-TX4: clipped at the right edge. -/
theorem test_text_clipped : bytesAfter (s0 .awake) [0x37000001, 0xAA, 0, 1, 0x41] =
    some [(21, 0x06), (43, 0x09), (65, 0x10), (87, 0x10), (109, 0x1F), (131, 0x10), (153, 0x10)] := by decide +kernel
/-- V-BM1 to V-BM4. -/
theorem test_drawBmp :
    ([[0x38000000, 0, 0, 8, 1, 1, 0, 1, 0xA5], [0x38000000, 0, 0, 8, 1, 1, 1, 1, 0xA5],
      [0x38000000, 0, 0, 3, 2, 1, 0, 2, 0x40A0], [0x38000000, 0, 0, 10, 1, 1, 0, 2, 0xC0FF]].map (bytesAfter s0Bmp)) =
      [some [(0, 0xA5)], some [(0, 0x5A)], some [(0, 0xBC), (22, 0x40)], some [(0, 0xFF), (1, 0xC0)]] := by
  decide +kernel
/-- V-BM5, V-BM6, V-BM7: the depth, too few bytes, an empty bitmap; FB is unchanged. -/
theorem test_drawBmp_unsupported :
    ([[0x38000000, 0, 0, 8, 1, 2, 0, 1, 0xA5], [0x38000000, 0, 0, 9, 2, 1, 0, 3, 0x00FF80FF],
      [0x38000000, 0, 0, 0, 0, 1, 0, 0]].map fun p => (answer s0Bmp p, bytesAfter s0Bmp p)) =
      [(some [4], some [(0, 0x3C)]), (some [4], some [(0, 0x3C)]), (some [0], some [(0, 0x3C)])] := by decide +kernel

/-! ### Panel (section 2.10) and the gate (section 2.9) -/

/-- V-PN1, V-PN2. -/
theorem test_init : traceAfter (fromReset []) [0x01000000] = some initEvents ∧
    traceAfter (fromReset [true, true, false]) [0x01000000] =
      some [.reset, .cmd 0xE1, .data [0x01, 0x02], .cmd 0xE2, .poll true, .poll true, .poll false] := by decide +kernel
/-- V-PN3: three busy answers are a timeout. -/
theorem test_init_timeout : endsIn (fromReset [true, true, true]) [0x01000000] = some (3, .uninitialized) ∧
    endsIn (fromReset [true, true, false]) [0x01000000] = some (0, .awake) := by decide +kernel
/-- The frame that is sent is FB: its first bytes, its length and the messages around it (V-PN5). -/
theorem test_display :
    ((traceAfter s0Bmp [0x02000000]).map fun tr => tr.map fun
      | .data bs => PanelEvent.data (bs.take 2 ++ [BitVec.ofNat 8 (bs.length / 64)])
      | ev => ev) = some [.cmd 0xE3, .data [0x3C, 0x00, 90], .cmd 0xE4, .poll false] := by decide +kernel
/-- V-PN6: CLEAR with a timeout keeps the fill. -/
theorem test_clear_timeout :
    let s := { s0Bmp with busyIn := [true, true, true] }
    endsIn s [0x03000000] = some (3, .uninitialized) ∧ bytesAfter s [0x03000000] = some [] := by decide +kernel
/-- V-PN7. -/
theorem test_fillBlack : endsIn (s0 .awake) [0x04000000] = some (0, .awake) ∧
    byteAfter (s0 .awake) [0x04000000] 100 = some 0xFF := by decide +kernel
/-- V-PN8. -/
theorem test_sleep : endsIn (s0 .awake) [0x05000000] = some (0, .asleep) ∧
    traceAfter (s0 .awake) [0x05000000] = some [.cmd 0xE5, .poll false, .cmd 0xE6, .data [0xA5]] := by decide +kernel
/-- V-PN10: the deep-sleep command is not sent after a timeout. -/
theorem test_sleep_timeout :
    traceAfter { s0 .awake with busyIn := [true, true, true] } [0x05000000] =
      some [.cmd 0xE5, .poll true, .poll true, .poll true] := by decide +kernel
/-- V-PN9. -/
theorem test_resetDisplay : endsIn (s0 .asleep) [0x06000000] = some (0, .awake) ∧
    traceAfter (s0 .asleep) [0x06000000] = some (.reset :: initEvents) := by decide +kernel
/-- V-PN12. -/
theorem test_getStatus :
    answer (State.resetWith { testConfig with initOrient := .deg90 }) [0x07000000] = some [0, 4] := by decide +kernel
/-- 44_panel_protocol.md R238: DEBUG is bit 4. -/
theorem test_getStatus_debug :
    answer { s0 .asleep with debug := true, orient := .deg180 } [0x07000000] = some [0, 0x1B] := by decide +kernel
/-- The gate's table for the gated operations not run above, in Uninitialized and Asleep. -/
theorem test_gate :
    ([PState.uninitialized, .asleep].map fun p => [[0x02000000], [0x05000000], [0x20000001], [0x10000001],
      [0x30000001, 0, 0], [0x37000001, 0, 0, 1, 0x41], [0x38000000, 0, 0, 8, 1, 2, 0, 1, 0xA5]].map (answer (s0 p))) =
      [List.replicate 7 (some [1]), List.replicate 7 (some [2])] := by decide +kernel
/-- E13: 5,808 bytes are 91 pieces, the last of 48. -/
theorem test_chunks : (chunks (List.replicate 5808 0)).length = 91 ∧
    ((chunks (List.replicate 5808 0)).getLast?.map List.length) = some 48 := by
  unfold chunks; decide +kernel
/-- 44_panel_protocol.md R216. -/
theorem test_busyOfPin : busyOfPin .low .low = true ∧ busyOfPin .low .high = false := by decide

/-! ### Witnesses: for each statement with hypotheses, states and operands that meet them, every clause at its boundary -/

/-- A result is a next state of which a decidable property holds. -/
def nextWith (r : Result) (p : State → Bool) : Bool :=
  match r with
  | .next t => p t
  | _ => false

theorem exists_next {r : Result} {p : State → Bool} (h : nextWith r p = true) : ∃ t, r = .next t ∧ p t = true := by
  cases r with
  | next t => exact ⟨t, rfl, h⟩
  | fault e => cases h
  | refused e => cases h

/-- S0 in a PSTATE with one packet in the stream. -/
def s0With (p : PState) (pkt : Packet) : State := { s0 p with packets := [pkt] }

/-- The last response is this one. -/
def lastIs (r : Response) (t : State) : Bool := t.responses.getLast? == some r

/-- The three clauses of `RunsWhenAwake` and the well-formed FB: the hypotheses of FbFillSetsEveryByte, FbSetpxWritesOnePixel,
SetOrientWritesOrient, PixelPaintsOnePoint, HlinePaintsRun, VlinePaintsRun, LinePaintsClosedForm, RectPaintsFourEdges,
FillRectPaintsBlock (first part) and CirclePaintsClosedForm. -/
theorem witness_gate_clauses :
    ∀ p ∈ [PState.uninitialized, .awake, .asleep], ({ s0Bmp with pstate := p }).pstate = p ∧
      Memory.wf ({ s0Bmp with pstate := p }).fb := by decide

theorem witness_DecodeOfEncode :
    (Instr.text .black 0x7FFFFFFF 0x80000000 (List.replicate 16 0x41)).wf (.beyondEight 0) = true ∧
    (Instr.drawBmp 0 0 0 0 0xFFFFFFFF .inverted []).wf (.beyondEight 0) = true := by decide

/-- Padding may hold anything; a byte of the string may not. -/
theorem witness_DecodesExactlyItsPackets :
    decode (.beyondEight 0) [0x37000001, 0, 0, 3, 0xFF413F41] = .ok (.text .black 0 0 [0x41, 0x3F, 0x41]) ∧
    decode (.beyondEight 0) [0x37000001, 0, 0, 4, 0xFF413F41] ≠ .ok (.text .black 0 0 [0x41, 0x3F, 0x41]) := by
  decide +kernel

/-- Both ends of every gap of the opcode table, and the assigned values beside them. -/
theorem witness_UnassignedOpcodesAreIllegal :
    (∀ b ∈ [(0x00 : Byte), 0x08, 0x0F, 0x14, 0x1F, 0x24, 0x2F, 0x39, 0xFF], Opcode.ofByte b = none) ∧
    (∀ b ∈ [(0x01 : Byte), 0x07, 0x10, 0x13, 0x20, 0x23, 0x30, 0x38], Opcode.ofByte b ≠ none) ∧
    (s0With .awake [0x39000000, 1]).packets = [0x39000000, 1] :: [] ∧
    (s0With .awake [0x39000000, 1]).cfg.maxPktWords.admits 2 = true ∧
    Opcode.ofByte ((0x39000000 : Word).extractLsb' 24 8) = none := by decide +kernel

/-- Each reason for each decoding error. -/
theorem witness_DecodeErrorsExactly :
    decode (.beyondEight 0) [0x39000000] = .error .illegalCommand ∧
    ∀ pkt ∈ [[], List.replicate 9 (0x39000000 : Word), [0x01000100], [0x01800000], [0x10000002], [0x20000004], [0x07000001],
      [0x13000000], [0x38000000, 0, 0, 0, 0, 1, 2, 0]], decode (.beyondEight 0) pkt = .error .malformedPacket := by
  decide +kernel

theorem witness_StepRunsDecodedInstruction :
    (s0With .awake [0x12000000, 9, 0]).packets = [0x12000000, 9, 0] :: [] ∧
    decode testConfig.maxPktWords [0x12000000, 9, 0] = .ok (.fbGetpx 9 0) ∧
    decode testConfig.maxPktWords [0xFF000000] = .error .illegalCommand ∧
    decode testConfig.maxPktWords [0x12000000, 9] = .error .malformedPacket := by decide +kernel

theorem witness_EmptyStreamWaits : State.reset.packets = [] := by rfl

/-- An OK response with a result word, and an error. -/
theorem witness_OneResponsePerPacket :
    (∃ t, step (s0With .awake [0x07000000]) = .next t ∧ lastIs ⟨0, [1]⟩ t = true) ∧
    (∃ t, step (s0With .awake [0x07000001]) = .next t ∧ lastIs ⟨6, []⟩ t = true) :=
  ⟨exists_next (by decide +kernel), exists_next (by decide +kernel)⟩

/-- Each of the five codes. -/
theorem witness_PreciseErrorsOnlyRespond :
    (∃ t, step (s0With .uninitialized [0x02000000]) = .next t ∧ lastIs ⟨1, []⟩ t = true) ∧
    (∃ t, step (s0With .asleep [0x02000000]) = .next t ∧ lastIs ⟨2, []⟩ t = true) ∧
    (∃ t, step (s0With .awake [0x38000000, 0, 0, 8, 1, 2, 0, 1, 0xA5]) = .next t ∧ lastIs ⟨4, []⟩ t = true) ∧
    (∃ t, step (s0With .awake [0x08000000]) = .next t ∧ lastIs ⟨5, []⟩ t = true) ∧
    (∃ t, step (s0With .awake []) = .next t ∧ lastIs ⟨6, []⟩ t = true) :=
  ⟨exists_next (by decide +kernel), exists_next (by decide +kernel), exists_next (by decide +kernel),
    exists_next (by decide +kernel), exists_next (by decide +kernel)⟩

/-- Both errors of the gate, and no error, in the three PSTATEs. -/
theorem witness_GateRefusesAsTabled :
    (s0 .uninitialized).pstate ≠ .busy ∧ (s0 .asleep).pstate ≠ .busy ∧ (s0 .awake).pstate ≠ .busy ∧
    isGated .display = true ∧ isGated .init = false ∧
    (∃ t, exec .display (s0 .uninitialized) = .next t ∧ lastIs ⟨1, []⟩ t = true) ∧
    (∃ t, exec .display (s0 .asleep) = .next t ∧ lastIs ⟨2, []⟩ t = true) ∧
    (∃ t, exec .init (s0 .asleep) = .next t ∧ lastIs ⟨0, []⟩ t = true) :=
  ⟨by decide, by decide, by decide, rfl, rfl, exists_next (by decide +kernel), exists_next (by decide +kernel),
    exists_next (by decide +kernel)⟩

theorem witness_StopsOnlyWhileBusy :
    isGated .display = true ∧ (s0 .busy).pstate = .busy ∧ exec .display (s0 .busy) = .fault .gatedWhileBusy := by
  exact ⟨rfl, rfl, rfl⟩

/-- A panel operation that succeeds, times out, is refused; an operation without a panel sequence; a packet that does not
decode; PSTATE at the end of a sequence's body. -/
theorem witness_PStateChangesAsTabled :
    (∃ t, step (s0With .awake [0x05000000]) = .next t ∧ (lastIs ⟨0, []⟩ t && t.pstate == .asleep) = true) ∧
    (∃ t, step { s0With .awake [0x05000000] with busyIn := [true, true, true] } = .next t ∧
      (lastIs ⟨3, []⟩ t && t.pstate == .uninitialized) = true) ∧
    (∃ t, step (s0With .asleep [0x05000000]) = .next t ∧ (lastIs ⟨2, []⟩ t && t.pstate == .asleep) = true) ∧
    panelFinal .sleep = some .asleep ∧ panelFinal .getStatus = none ∧
    decode testConfig.maxPktWords [0x07000000] = .ok .getStatus ∧
    decode testConfig.maxPktWords [0x07000001] = .error .malformedPacket :=
  ⟨exists_next (by decide +kernel), exists_next (by decide +kernel), exists_next (by decide +kernel), rfl, rfl, rfl, rfl⟩

/-- The bodies of the panel sequences done and timed out, with PSTATE Busy at their ends. -/
theorem witness_PStateChangesAsTabled_busy :
    ([fromReset [], fromReset [true, true, true]].map fun s =>
      [initBody s, displayBody s, runScript s.cfg.sleepSeq (enterBusy s)].map fun
        | .done u => (true, u.pstate)
        | .timedOut u => (false, u.pstate)) =
      [List.replicate 3 (true, .busy), List.replicate 3 (false, .busy)] := by decide +kernel

/-- FB changed by a completed operation, and by one that timed out. -/
theorem witness_FbWrittenOnlyByWriters :
    (∃ t, step (s0With .awake [0x30000001, 0, 0]) = .next t ∧ (lastIs ⟨0, []⟩ t && !(t.fb == [])) = true) ∧
    (∃ t, step { s0Bmp with busyIn := [true, true, true], packets := [[0x03000000]] } = .next t ∧
      (lastIs ⟨3, []⟩ t && !(t.fb == [(0, 0x3C)])) = true) :=
  ⟨exists_next (by decide +kernel), exists_next (by decide +kernel)⟩

theorem witness_RegisterFrame :
    (∃ t, exec (.setOrient .deg90) (s0 .awake) = .next t ∧ (t.orient == .deg90) = true) ∧
    (∃ t, exec .getStatus (s0 .awake) = .next t ∧ (t.orient == .deg0) = true) ∧
    ∀ o, Instr.getStatus ≠ .setOrient o :=
  ⟨exists_next (by decide +kernel), exists_next (by decide +kernel), fun _ h => by cases h⟩

theorem witness_DebugHasNoEffect :
    (∃ t, step (s0With .awake [0x01000000]) = .next t ∧ (t.debug == false) = true) ∧
    ∀ pkt rest, (s0With .awake [0x01000000]).packets = pkt :: rest →
      decode (s0With .awake [0x01000000]).cfg.maxPktWords pkt ≠ .ok .getStatus :=
  ⟨exists_next (by decide +kernel), fun pkt rest h => by cases h; decide +kernel⟩

/-- The corners of the panel and the points next to them. -/
theorem witness_FillThenEveryPixelReads :
    (s0 .awake).pstate = .awake ∧ onPanel ⟨0, 0⟩ ∧ onPanel ⟨175, 263⟩ ∧ ¬ onPanel ⟨176, 0⟩ ∧ ¬ onPanel ⟨0, 264⟩ ∧
    ¬ onPanel ⟨-1, 0⟩ ∧ ¬ onPanel ⟨0, -1⟩ := by decide

theorem witness_FbSetpxWritesOnePixel :
    Memory.wf s0Bmp.fb ∧ s0Bmp.pstate = .awake ∧
    (0 ≤ (175 : Word).toInt ∧ (175 : Word).toInt < 176 ∧ 0 ≤ (263 : Word).toInt ∧ (263 : Word).toInt < 264) ∧
    ¬ (0 ≤ (0xFFFFFFFF : Word).toInt) ∧ ¬ ((176 : Word).toInt < 176) ∧ ¬ ((264 : Word).toInt < 264) := by decide

theorem witness_MemoryReadWrite :
    Memory.wf [(0, 0x01), (5807, 0x80)] ∧
    (∀ a < 5808, Memory.read [(0, 0x01), (5807, 0x80)] a = Memory.read [(0, 0x01), (5807, 0x80)] a) ∧ 5807 < 5808 :=
  ⟨by decide, fun _ _ => rfl, by decide⟩

theorem witness_PlotClipsToCanvas :
    Memory.wf s0Bmp.fb ∧ inCanvas .deg90 263 175 ∧ inCanvas .deg90 0 0 ∧ ¬ inCanvas .deg90 264 0 ∧
    ¬ inCanvas .deg90 0 (-1) := by
  refine ⟨by decide, ?_, ?_, ?_, ?_⟩ <;> simp [inCanvas, logicalDims]

/-- A run of one point and a longer one that starts off the canvas. -/
theorem witness_RunsAreLines :
    Memory.wf s0Bmp.fb ∧ 1 ≤ (1 : Word).toInt ∧ (5 : Word).toInt = (5 : Word).toInt + (1 : Word).toInt - 1 ∧
    1 ≤ (3 : Word).toInt ∧ (0 : Word).toInt = (0xFFFFFFFE : Word).toInt + (3 : Word).toInt - 1 := by decide

theorem witness_RectIsBoundaryOfBlock : (0 : Int) ≤ 0 ∧ (0 : Int) ≤ 2 := by decide

/-- The whole canvas in both shapes, and a block that goes beyond it on every side. -/
theorem witness_FillRectPaintsBlock :
    Memory.wf (s0In .deg0).fb ∧ (0 : Word).toInt ≤ 0 ∧
    ((logicalDims (s0In .deg0).orient).1 - 1 ≤ (0 : Word).toInt + (175 : Word).toInt ∧
      (logicalDims (s0In .deg0).orient).2 - 1 ≤ (0 : Word).toInt + (263 : Word).toInt) ∧
    ((logicalDims (s0In .deg90).orient).1 - 1 ≤ (0 : Word).toInt + (263 : Word).toInt ∧
      (logicalDims (s0In .deg90).orient).2 - 1 ≤ (0 : Word).toInt + (175 : Word).toInt) ∧
    ((0xFFFFFFFF : Word).toInt ≤ 0 ∧
      (logicalDims (s0In .deg270).orient).1 - 1 ≤ (0xFFFFFFFF : Word).toInt + (265 : Word).toInt ∧
      (logicalDims (s0In .deg270).orient).2 - 1 ≤ (0xFFFFFFFF : Word).toInt + (177 : Word).toInt) := by decide

theorem witness_CircleIsSymmetric : (0 : Int) < 1 := by decide

/-- A point off the panel and points off the canvas; and for each of the ten operations a form none of whose points lies in
the canvas of S0, just beyond one of its sides: left, right, above, below. -/
theorem witness_OffCanvasDrawsNothing :
    ¬ (0 ≤ (-1 : Int) ∧ (-1 : Int) < 176 ∧ 0 ≤ (0 : Int) ∧ (0 : Int) < 264) ∧
    (∀ pc ∈ [((⟨176, 0⟩ : Point), Color.black)], ¬ inCanvas .deg0 pc.1.x pc.1.y) ∧ (s0 .awake).pstate = .awake ∧
    ¬ (0 ≤ (0 : Word).toInt ∧ (0 : Word).toInt < 176 ∧ 0 ≤ (264 : Word).toInt ∧ (264 : Word).toInt < 264) ∧
    ¬ inCanvas (s0 .awake).orient (176 : Word).toInt (0 : Word).toInt ∧
    (∀ lx : Int, (0xFFFFFFFE : Word).toInt ≤ lx → lx < (0xFFFFFFFE : Word).toInt + (2 : Word).toInt →
      ¬ inCanvas (s0 .awake).orient lx (0 : Word).toInt) ∧
    (∀ ly : Int, (264 : Word).toInt ≤ ly → ly < (264 : Word).toInt + (5 : Word).toInt →
      ¬ inCanvas (s0 .awake).orient (0 : Word).toInt ly) ∧
    (∀ lx ly : Int, lineShape (0 : Word).toInt (0xFFFFFFFF : Word).toInt (9 : Word).toInt (0xFFFFFFFF : Word).toInt lx ly →
      ¬ inCanvas (s0 .awake).orient lx ly) ∧
    (∀ lx ly : Int, (0xFFFFFFFD : Word).toInt ≤ lx → lx ≤ (0xFFFFFFFD : Word).toInt + (2 : Word).toInt →
      (0 : Word).toInt ≤ ly → ly ≤ (0 : Word).toInt + (2 : Word).toInt → ¬ inCanvas (s0 .awake).orient lx ly) ∧
    (∀ lx ly : Int, circleShape (0xFFFFFFFF : Word).toInt (5 : Word).toInt (0 : Word).toInt lx ly →
      ¬ inCanvas (s0 .awake).orient lx ly) ∧
    (∀ k row col : Nat, row < (s0 .awake).cfg.glyphH →
      ¬ inCanvas (s0 .awake).orient ((0 : Word).toInt + 8 * k + col) ((0xFFFFFFF8 : Word).toInt + row)) ∧
    (((8 : Word).toNat + 7) / 8 * (1 : Word).toNat ≤ [(0xA5 : Byte)].length ∧
      ∀ a b : Nat, a < (8 : Word).toNat → b < (1 : Word).toNat →
        ¬ inCanvas (s0 .awake).orient ((0xFFFFFFF8 : Word).toInt + a) ((0 : Word).toInt + b)) := by
  have hc : ∀ lx ly : Int, inCanvas (s0 .awake).orient lx ly ↔ 0 ≤ lx ∧ lx < 176 ∧ 0 ≤ ly ∧ ly < 264 := fun _ _ => Iff.rfl
  have e : (0xFFFFFFFE : Word).toInt = -2 ∧ (0xFFFFFFFF : Word).toInt = -1 ∧ (0xFFFFFFFD : Word).toInt = -3 ∧
    (0xFFFFFFF8 : Word).toInt = -8 ∧ (264 : Word).toInt = 264 ∧ (176 : Word).toInt = 176 ∧ (0 : Word).toInt = 0 ∧
    (2 : Word).toInt = 2 ∧ (5 : Word).toInt = 5 ∧ (9 : Word).toInt = 9 := by decide
  obtain ⟨e1, e2, e3, e4, e5, e6, e7, e8, e9, e10⟩ := e
  have hg : (s0 .awake).cfg.glyphH = 8 := rfl
  simp only [hc, e1, e2, e3, e4, e5, e6, e7, e8, e9, e10, hg]
  refine ⟨by decide, by simp [inCanvas, logicalDims], rfl, by decide, by omega, fun lx _ _ => by omega,
    fun ly _ _ => by omega, fun lx ly h => ?_, fun lx ly _ _ _ _ => by omega, fun lx ly h => ?_,
    fun k row col _ => by omega, by decide, fun a b h _ => ?_⟩
  · simp [lineShape, lineShape.onMajorRun] at h; omega
  · simp [circleShape] at h; omega
  · have : a < 8 := h
    omega

/-- Two characters with padding, and none. -/
theorem witness_TextPaintsGlyphs :
    Memory.wf s0Bmp.fb ∧ [(0xFFFF415A : Word)].length = ((2 : Word).toNat + 3) / 4 ∧
    s0Bmp.cfg.maxPktWords.admits 5 = true ∧
    [(0x5A : Byte), 0x41] = (List.range (2 : Word).toNat).map (fun k =>
      ([(0xFFFF415A : Word)].getD (k / 4) 0).extractLsb' (8 * (k % 4)) 8) ∧
    ([] : List Word).length = ((0 : Word).toNat + 3) / 4 ∧ s0Bmp.pstate = .awake := by decide

/-- V-BM3, with exactly the bytes its size needs, and a permutation of its Plot calls. -/
theorem witness_DrawBmpPaintsBitmap :
    Memory.wf s0Bmp.fb ∧ [(0x000040A0 : Word)].length = ((2 : Word).toNat + 3) / 4 ∧
    s0Bmp.cfg.maxPktWords.admits 9 = true ∧
    [(0xA0 : Byte), 0x40] = (List.range (2 : Word).toNat).map (fun k =>
      ([(0x000040A0 : Word)].getD (k / 4) 0).extractLsb' (8 * (k % 4)) 8) ∧
    ((3 : Word).toNat + 7) / 8 * (2 : Word).toNat ≤ [(0xA0 : Byte), 0x40].length ∧ s0Bmp.pstate = .awake ∧
    ((bmpPoints 0 0 3 2 .direct [0xA0, 0x40]).reverse).Perm (bmpPoints 0 0 3 2 .direct [0xA0, 0x40]) :=
  ⟨by decide, by decide, by decide, by decide, by decide, by decide, List.reverse_perm _⟩

/-- V-BM5 and V-BM6: another depth, and one byte too few. -/
theorem witness_DrawBmpUnsupported :
    ((2 : Word) ≠ 1) ∧ [(0xFF : Byte), 0x80, 0xFF].length < ((9 : Word).toNat + 7) / 8 * (2 : Word).toNat ∧
    (s0 .uninitialized).pstate = .uninitialized ∧ (s0 .awake).pstate = .awake ∧ (s0 .asleep).pstate = .asleep := by
  decide

/-- Idle at the first poll, idle at the last of the three, and busy at all three. -/
theorem witness_WaitIdlePolls :
    (s0 .awake).cfg.busyMaxPolls = 3 ∧ nextAnswers 1 (fromReset [false]) = List.replicate 0 true ++ [false] ∧
    nextAnswers 3 (fromReset [true, true, false]) = List.replicate 2 true ++ [false] ∧
    nextAnswers 3 (fromReset [true, true, true]) = List.replicate 3 true := by decide +kernel

/-- Both clauses of `RunsPanelScript` for P_INIT_SEQ, the wait idle at its last poll and busy at every poll: the
hypotheses of InitRunsInitSequence and ResetDisplayRunsTwoPulses. -/
theorem witness_InitRunsInitSequence :
    ([2].length = waitCount testConfig.initSeq ∧ (∀ k ∈ [2], k < testConfig.busyMaxPolls) ∧
      nextAnswers (idlePattern [2]).length (fromReset [true, true, false]) = idlePattern [2]) ∧
    (testConfig.initSeq = [.cmd 0xE1, .data [0x01, 0x02], .cmd 0xE2] ++ .waitIdle :: [] ∧
      ([] : List Nat).length = waitCount [.cmd 0xE1, .data [0x01, 0x02], .cmd 0xE2] ∧
      nextAnswers ((idlePattern []).length + testConfig.busyMaxPolls) (fromReset [true, true, true]) =
        idlePattern [] ++ List.replicate testConfig.busyMaxPolls true) := by decide +kernel

/-- The same for the script of DISPLAY, which for CLEAR and FILL_BLACK differs in its data alone: the hypotheses of
DisplaySendsFrame, ClearFillsAndDisplays and FillBlackFillsAndDisplays. -/
theorem witness_DisplaySendsFrame (frame : List Byte) :
    (s0 .awake).pstate = .awake ∧
    ([1].length = waitCount (testConfig.dispPre ++ [.cmd 0xE3, .data frame] ++ testConfig.dispPost) ∧
      (∀ k ∈ [1], k < testConfig.busyMaxPolls) ∧
      nextAnswers (idlePattern [1]).length (fromReset [true, false]) = idlePattern [1]) ∧
    (testConfig.dispPre ++ [.cmd 0xE3, .data frame] ++ testConfig.dispPost =
        [.cmd 0xE3, .data frame, .cmd 0xE4] ++ .waitIdle :: [] ∧
      ([] : List Nat).length = waitCount [.cmd 0xE3, .data frame, .cmd 0xE4] ∧
      nextAnswers ((idlePattern []).length + testConfig.busyMaxPolls) (fromReset [true, true, true]) =
        idlePattern [] ++ List.replicate testConfig.busyMaxPolls true) :=
  ⟨rfl, ⟨rfl, by decide, by decide +kernel⟩, rfl, rfl, by decide +kernel⟩

theorem witness_SleepRunsSleepSequence :
    (s0 .awake).pstate = .awake ∧
    ([0].length = waitCount testConfig.sleepSeq ∧ (∀ k ∈ [0], k < testConfig.busyMaxPolls) ∧
      nextAnswers (idlePattern [0]).length (fromReset [false]) = idlePattern [0]) ∧
    (testConfig.sleepSeq = [.cmd 0xE5] ++ .waitIdle :: [.cmd 0xE6, .data [0xA5]] ∧
      ([] : List Nat).length = waitCount [.cmd 0xE5]) := by decide +kernel

theorem witness_PanelOperationsEnd :
    panelFinal .init = some .awake ∧ (isGated .init = true → (s0 .uninitialized).pstate = .awake) ∧
    panelFinal .sleep = some .asleep ∧ (isGated .sleep = true → (s0 .awake).pstate = .awake) := by decide

/-- One byte, a full piece, and one byte more. -/
theorem witness_DataMessagesAreChunked :
    [(0xA5 : Byte)] ≠ [] ∧ List.replicate 64 (0 : Byte) ≠ [] ∧ List.replicate 65 (0 : Byte) ≠ [] ∧
    ([1, 64, 65].map fun n => (chunks (List.replicate n 0)).map List.length) = [[1], [64], [64, 1]] := by
  decide +kernel

/-- The three operations ending with OK; and for the second part a step without a packet, one that is no display operation
and one that timed out. -/
theorem witness_DisplayShowsFrameBuffer :
    (∀ pi ∈ [([(0x02000000 : Word)], Instr.display), ([0x03000000], .clear), ([0x04000000], .fillBlack)],
      ({ s0Bmp with packets := [pi.1] }).packets = pi.1 :: [] ∧ decode s0Bmp.cfg.maxPktWords pi.1 = .ok pi.2 ∧
      nextWith (step { s0Bmp with packets := [pi.1] }) (fun t => lastStatus t == some 0) = true) ∧
    step (fromReset []) = .next (fromReset []) ∧ (fromReset []).packets = [] ∧
    nextWith (step (s0With .awake [0x07000000])) (fun t => lastStatus t == some 0) = true ∧
    nextWith (step { s0Bmp with busyIn := [true, true, true], packets := [[0x02000000]] })
      (fun t => !(lastStatus t == some 0)) = true := by
  refine ⟨?_, rfl, rfl, ?_, ?_⟩ <;> decide +kernel

/-- 44_panel_protocol.md R240: the shown bytes are the frame's in PT; a DISPLAY that timed out shows nothing new. -/
theorem test_shownAfter :
    ((shownAfter none { s0Bmp with packets := [[0x02000000]] }).map fun bs => (bs.take 2, bs.length)) =
      some ([0x3C, 0x00], 5808) ∧
    shownAfter none { s0Bmp with busyIn := [true, true, true], packets := [[0x02000000]] } = none := by decide +kernel

theorem inv_s0 : Inv (s0With .awake [0x10000001]) :=
  ⟨by decide, by decide, rfl, by decide⟩

theorem witness_StepKeepsInv :
    Inv (s0With .awake [0x10000001]) ∧
    ∃ t, step (s0With .awake [0x10000001]) = .next t ∧ (t.fb.length == 5808) = true :=
  ⟨inv_s0, exists_next (by decide +kernel)⟩

theorem witness_EveryPacketEnds : Inv (s0With .awake [0x10000001]) := inv_s0

end Sys2Proof.Tests
end

section
/-! What a change of the state that no operation sees (`Unseen`) does to an execution and to a step; and 00_scope.md R10:
P_POLL_INTERVAL and P_BUSY_ACTIVE_LEVEL are such a change. -/

namespace Sys2Proof.Machine

variable {f : State → State}

/-! ### What the instructions are made of -/

theorem Unseen.nextAnswered (hf : Unseen f) (s : State) (w : Word) (ws : List Word) :
    Host.Outcome.next (answered (f s) w ws) = onNext f (.next (answered s w ws)) :=
  congrArg Host.Outcome.next (hf.respond s w ws).symm

theorem Unseen.fillFB (hf : Unseen f) (c : Color) (s : State) : fillFB c (f s) = f (fillFB c s) := (hf.setFb s _).symm

theorem Unseen.enterBusy (hf : Unseen f) (s : State) : enterBusy (f s) = f (enterBusy s) := (hf.setPstate s _).symm

theorem Unseen.plotAll (hf : Unseen f) (s : State) (pts : List (Point × Color)) :
    plotAll (f s).orient (f s).fb pts = plotAll s.orient s.fb pts := by
  rw [hf.orient, hf.fb]

theorem Unseen.textPoints (hf : Unseen f) (x y : Int) (str : List Byte) (s : State) :
    textPoints (f s).cfg x y str = textPoints s.cfg x y str := by
  obtain ⟨n, l, h⟩ := hf.cfg s
  rw [h]; rfl

theorem Unseen.sleepSeq (hf : Unseen f) (s : State) : (f s).cfg.sleepSeq = s.cfg.sleepSeq := by
  obtain ⟨n, l, h⟩ := hf.cfg s
  rw [h]

theorem Unseen.maxPktWords (hf : Unseen f) (s : State) : (f s).cfg.maxPktWords = s.cfg.maxPktWords := by
  obtain ⟨n, l, h⟩ := hf.cfg s
  rw [h]

/-- The end of a panel operation whose body commutes with the change. -/
theorem Unseen.nextClosed (hf : Unseen f) (final : PState) {p p' : Progress} (h : p' = p.onState f) :
    Host.Outcome.next (Machine.closeSequence final p') = onNext f (.next (Machine.closeSequence final p)) := by
  rw [h, hf.closeSequence]; rfl

/-- The end of an operation that writes FB from what the change keeps. -/
theorem Unseen.nextWritten (hf : Unseen f) (s : State) {x y : Memory} (h : x = y) :
    Host.Outcome.next (answered { f s with fb := x } 0 []) = onNext f (.next (answered { s with fb := y } 0 [])) := by
  rw [h]; exact hf.nextFb s y []

theorem Unseen.nextDrawn (hf : Unseen f) (c : Color) (pts : List Point) (s : State) :
    Host.Outcome.next (answered (drawPoints c pts (f s)) 0 []) = onNext f (.next (answered (drawPoints c pts s) 0 [])) :=
  hf.nextWritten s (hf.plotAll s _)

/-- An instruction that is the gate before `perform`. -/
theorem Unseen.execGated (hf : Unseen f) {i : Instr} {perform : State → Result} (he : ∀ s, exec i s = Machine.gated s perform)
    {s : State} (h : perform (f s) = onNext f (perform s)) : exec i (f s) = onNext f (exec i s) := by
  rw [he, he, hf.gated h]

/-! ### An execution and a step -/

/-- An execution commutes with an unseen change; GET_STATUS alone also reads DEBUG (10_state.md R27). -/
theorem Unseen.exec (hf : Unseen f) (i : Instr) (s : State) (hdebug : i = .getStatus → (f s).debug = s.debug) :
    exec i (f s) = onNext f (exec i s) := by
  cases i with
  | init => exact hf.nextClosed _ (hf.initBody s)
  | display => exact hf.execGated exec_display (hf.nextClosed _ (hf.displayBody s))
  | clear =>
    refine hf.execGated exec_clear (hf.nextClosed _ ?_)
    rw [hf.fillFB, hf.displayBody]
  | fillBlack =>
    refine hf.execGated exec_fillBlack (hf.nextClosed _ ?_)
    rw [hf.fillFB, hf.displayBody]
  | sleep =>
    refine hf.execGated exec_sleep (hf.nextClosed _ ?_)
    rw [hf.sleepSeq, hf.enterBusy, hf.runScript]
  | resetDisplay =>
    refine hf.nextClosed _ ?_
    rw [hf.enterBusy, ← hf.emit, hf.initBody]
  | getStatus => rw [exec_getStatus, exec_getStatus, hdebug rfl, hf.orient, hf.pstate, hf.nextAnswered]
  | fbFill c => exact hf.execGated (exec_fbFill c) (hf.nextFb s _ [])
  | fbSetpx c px py => exact hf.execGated (exec_fbSetpx c px py) (hf.nextWritten s (by rw [hf.fb]))
  | fbGetpx px py => rw [exec_fbGetpx, exec_fbGetpx, hf.fb, hf.nextAnswered]
  | fbRead idx => rw [exec_fbRead, exec_fbRead, hf.fb, hf.nextAnswered]
  | setOrient o =>
    refine hf.execGated (exec_setOrient o) ?_
    rw [← hf.setOrient, hf.nextAnswered]
  | getDims o => exact hf.nextAnswered s _ _
  | map o lx ly => exact hf.nextAnswered s _ _
  | unmap o px py => exact hf.nextAnswered s _ _
  | pixel c x y => exact hf.execGated (exec_pixel c x y) (hf.nextDrawn c _ s)
  | hline c x y w => exact hf.execGated (exec_hline c x y w) (hf.nextDrawn c _ s)
  | vline c x y h => exact hf.execGated (exec_vline c x y h) (hf.nextDrawn c _ s)
  | line c x1 y1 x2 y2 => exact hf.execGated (exec_line c x1 y1 x2 y2) (hf.nextDrawn c _ s)
  | rect c x y w h => exact hf.execGated (exec_rect c x y w h) (hf.nextDrawn c _ s)
  | fillRect c x y w h => exact hf.execGated (exec_fillRect c x y w h) (hf.nextDrawn c _ s)
  | circle c x y r => exact hf.execGated (exec_circle c x y r) (hf.nextDrawn c _ s)
  | text c x y str =>
    refine hf.execGated (exec_text c x y str) ?_
    rw [hf.textPoints, hf.nextDrawn]
  | drawBmp x y bw bh depth pol bytes =>
    refine hf.execGated (exec_drawBmp x y bw bh depth pol bytes) ?_
    split_ifs
    · exact hf.nextWritten s (hf.plotAll s _)
    · exact hf.nextAnswered s 4 []

/-- A step commutes with an unseen change, which has to keep DEBUG only where the packet taken is GET_STATUS. -/
theorem Unseen.step (hf : Unseen f) (s : State)
    (hdebug : ∀ pkt rest, s.packets = pkt :: rest → decode s.cfg.maxPktWords pkt = .ok .getStatus →
      ∀ t, (f t).debug = t.debug) :
    step (f s) = onNext f (step s) := by
  have hlimit := hf.maxPktWords s
  have hpackets := hf.packets s
  cases hp : s.packets with
  | nil => rw [step_empty hp, step_empty (hpackets.trans hp)]; rfl
  | cons pkt rest =>
    cases hd : decode s.cfg.maxPktWords pkt with
    | error e =>
      rw [step_undecodable hp hd, step_undecodable (hpackets.trans hp) (hlimit ▸ hd), ← hf.setPackets]
      exact hf.nextAnswered _ _ _
    | ok i =>
      rw [step_instr hp hd, step_instr (hpackets.trans hp) (hlimit ▸ hd), ← hf.setPackets]
      exact hf.exec i _ fun hi => hdebug pkt rest hp (hi ▸ hd) _

/-! ### The two parameters -/

/-- The state with other values of P_POLL_INTERVAL and P_BUSY_ACTIVE_LEVEL. -/
def setTimeAndLevel (n : Nat) (level : Level) (s : State) : State :=
  { s with cfg := { s.cfg with pollInterval := n, busyActiveLevel := level } }

theorem unseen_setTimeAndLevel (n : Nat) (level : Level) : Unseen (setTimeAndLevel n level) where
  fb _ := rfl
  orient _ := rfl
  pstate _ := rfl
  busyIn _ := rfl
  draws _ := rfl
  packets _ := rfl
  cfg _ := ⟨n, level, rfl⟩
  setFb _ _ := rfl
  setOrient _ _ := rfl
  setPstate _ _ := rfl
  setBusyIn _ _ := rfl
  setDraws _ _ := rfl
  setPackets _ _ := rfl
  emit _ _ := rfl
  respond _ _ _ := rfl

/-- Settles O19: setting the two parameters is a change that no operation sees, and it keeps DEBUG. -/
theorem timeAndLevelHaveNoEffect : Obligations.TimeAndLevelHaveNoEffect :=
  fun s n level => (unseen_setTimeAndLevel n level).step s fun _ _ _ _ _ => rfl

end Sys2Proof.Machine
end

section
/-! 10_state.md: what a step does with the packet at the head of the stream (R22), the frame of every instruction (R20, R25),
and the two changes of the state that no operation sees: DEBUG (R27), and what RS and PT already hold (R29, R30). -/

namespace Sys2Proof.Machine

/-! ### Taking a packet -/

/-- Settles O7: `step_empty` for every state. -/
theorem emptyStreamWaits : Obligations.EmptyStreamWaits := fun _ => step_empty

/-- Settles O6: the two ways a packet decodes, each with the step it leads to. -/
theorem stepRunsDecodedInstruction : Obligations.StepRunsDecodedInstruction :=
  fun _ _ _ hp => ⟨fun _ => step_instr hp, step_undecodable hp, step_undecodable hp⟩

/-! ### The frame -/

/-- Settles O16: read off what a completed execution can have done. -/
theorem registerFrame : Obligations.RegisterFrame := fun _ _ _ h =>
  let ⟨_, _, hcfg, hdebug, hpackets, horient, _⟩ := exec_response h
  ⟨hcfg, hdebug, hpackets, horient⟩

/-! ### DEBUG -/

theorem step_keeps_debug {s t : State} (h : step s = .next t) : t.debug = s.debug := by
  cases hp : s.packets with
  | nil => cases (step_empty hp).symm.trans h; rfl
  | cons pkt rest =>
    rcases step_cases hp h with ⟨e, -, rfl⟩ | ⟨i, -, hexec⟩
    · rfl
    · obtain ⟨-, hdebug, -, -⟩ := registerFrame i _ t hexec
      exact hdebug

/-- The state with another value of DEBUG. -/
def setDebug (b : Bool) (s : State) : State := { s with debug := b }

theorem unseen_setDebug (b : Bool) : Unseen (setDebug b) where
  fb _ := rfl
  orient _ := rfl
  pstate _ := rfl
  busyIn _ := rfl
  draws _ := rfl
  packets _ := rfl
  cfg s := ⟨s.cfg.pollInterval, s.cfg.busyActiveLevel, rfl⟩
  setFb _ _ := rfl
  setOrient _ _ := rfl
  setPstate _ _ := rfl
  setBusyIn _ _ := rfl
  setDraws _ _ := rfl
  setPackets _ _ := rfl
  emit _ _ := rfl
  respond _ _ _ := rfl

/-- Settles O17: every step keeps DEBUG, and only GET_STATUS sees a change of it. -/
theorem debugHasNoEffect : Obligations.DebugHasNoEffect :=
  ⟨fun _ => rfl, fun _ _ => step_keeps_debug, fun s b hno =>
    (unseen_setDebug b).step s fun pkt rest hp hd => absurd hd (hno pkt rest hp)⟩

/-! ### The response stream and the panel trace -/

/-- The state with more responses and events in front of those it holds. -/
def prependStreams (rs : List Response) (pt : List PanelEvent) (s : State) : State :=
  { s with responses := rs ++ s.responses, trace := pt ++ s.trace }

/-- Both streams are only appended to, and appending commutes with what stands in front. -/
theorem unseen_prependStreams (rs : List Response) (pt : List PanelEvent) : Unseen (prependStreams rs pt) where
  fb _ := rfl
  orient _ := rfl
  pstate _ := rfl
  busyIn _ := rfl
  draws _ := rfl
  packets _ := rfl
  cfg s := ⟨s.cfg.pollInterval, s.cfg.busyActiveLevel, rfl⟩
  setFb _ _ := rfl
  setOrient _ _ := rfl
  setPstate _ _ := rfl
  setBusyIn _ _ := rfl
  setDraws _ _ := rfl
  setPackets _ _ := rfl
  emit s ev := by simp [prependStreams, emit, List.append_assoc]
  respond s w ws := by simp [prependStreams, answered, List.append_assoc]

/-- Settles O18: what stands in front of RS and PT is a change that no operation sees, and it keeps DEBUG. -/
theorem streamsNeverReadBack : Obligations.StreamsNeverReadBack :=
  fun s rs pt => (unseen_prependStreams rs pt).step s fun _ _ _ _ _ => rfl

end Sys2Proof.Machine
end

section
/-! 20_memory.md: the invariant that every step keeps (R52, with 44_panel_protocol.md R231, 10_state.md R27 and
30_encoding.md R100), which operations write FB (R65), and the frame buffer's data form (R52, R57). -/

namespace Sys2Proof.Machine

/-! ### The form of a response -/

theorem Response.wf_of_results_nil {r : Response} (hcode : r.status.toNat ≤ 6) (hnone : r.results = []) :
    Response.wf r = true := by
  simp [Response.wf, hcode, hnone]

theorem Response.wf_of_ok {r : Response} (hok : r.status = 0) (hcount : r.results.length ≤ 2) :
    Response.wf r = true := by
  simp [Response.wf, hok, hcount]

theorem errorStatus_le (e : Error) : (statusWord e.code).toNat ≤ 6 := by cases e <;> decide

theorem resultWords_le (i : Instr) : resultWords i ≤ 2 := by cases i <;> simp [resultWords]

/-- The response an execution adds has the form of 30_encoding.md R100. -/
theorem exec_response_wf {i : Instr} {s t : State} (h : exec i s = .next t) :
    ∃ r : Response, t.responses = s.responses ++ [r] ∧ Response.wf r = true := by
  obtain ⟨r, hresp, -, -, -, -, hcase⟩ := exec_response h
  refine ⟨r, hresp, ?_⟩
  rcases hcase with ⟨-, -, rfl, -⟩ | ⟨-, -, rfl, -⟩ | ⟨-, -, -, rfl, -⟩ | ⟨-, -, hok, hcount, -⟩ |
    ⟨-, _, -, hnone, hstatus, -⟩
  · decide
  · decide
  · decide
  · exact Response.wf_of_ok hok (hcount ▸ resultWords_le i)
  · refine Response.wf_of_results_nil ?_ hnone
    rcases hstatus with ⟨h0, -⟩ | ⟨h3, -⟩
    · simp [h0]
    · simp [h3]

/-! ### PSTATE and the canonical form of FB after an execution -/

theorem panelFinal_ne_busy (i : Instr) : panelFinal i ≠ some .busy := by cases i <;> simp [panelFinal]

/-- An execution ends in PSTATE Busy only if it began there (44_panel_protocol.md R231). -/
theorem exec_keeps_notBusy {i : Instr} {s t : State} (h : exec i s = .next t) (hs : s.pstate ≠ .busy) :
    t.pstate ≠ .busy := by
  obtain ⟨r, -, -, -, -, -, hcase⟩ := exec_response h
  rcases hcase with ⟨-, -, -, rfl⟩ | ⟨-, -, -, rfl⟩ | ⟨-, -, -, -, rfl⟩ | ⟨-, -, -, -, hp, -⟩ |
    ⟨-, final, hfinal, -, ⟨-, hp⟩ | ⟨-, hp⟩, -⟩
  · exact hs
  · exact hs
  · exact hs
  · rwa [hp]
  · intro hbusy
    exact panelFinal_ne_busy i (hfinal.trans (congrArg some (hp.symm.trans hbusy)))
  · simp [hp]

theorem exec_keeps_wf {i : Instr} {s t : State} (h : exec i s = .next t) (hs : Memory.wf s.fb) :
    Memory.wf t.fb := by
  obtain ⟨r, -, -, -, -, -, hcase⟩ := exec_response h
  rcases hcase with ⟨-, -, -, rfl⟩ | ⟨-, -, -, rfl⟩ | ⟨-, -, -, -, rfl⟩ | ⟨-, -, -, -, -, -, hwf, -⟩ |
    ⟨-, _, -, -, -, -, -, hwf, -⟩
  · exact hs
  · exact hs
  · exact hs
  · exact hwf hs
  · exact hwf hs

/-! ### The invariant -/

/-- A state that adds one response of the right form to those of a state with the invariant, and keeps the rest of what the
invariant speaks of. -/
theorem Inv.of_response {s t : State} {r : Response} (hs : Inv s) (hmemory : Memory.wf t.fb) (hbusy : t.pstate ≠ .busy)
    (hcfg : t.cfg = s.cfg) (hdebug : t.debug = s.debug) (hresp : t.responses = s.responses ++ [r])
    (hr : Response.wf r = true) : Inv t where
  memory := hmemory
  notBusy := hbusy
  debugConst := by rw [hdebug, hcfg, hs.debugConst]
  responsesWf q hq := by
    rw [hresp, List.mem_append, List.mem_singleton] at hq
    rcases hq with hold | rfl
    · exact hs.responsesWf q hold
    · exact hr

/-- The invariant does not speak of the packets to come. -/
theorem Inv.withPackets {s : State} (hs : Inv s) (rest : List Packet) : Inv { s with packets := rest } :=
  ⟨hs.memory, hs.notBusy, hs.debugConst, hs.responsesWf⟩

theorem Inv.afterError {s : State} (hs : Inv s) (e : Error) : Inv (answered s (statusWord e.code) []) :=
  hs.of_response hs.memory hs.notBusy rfl rfl rfl (Response.wf_of_results_nil (errorStatus_le e) rfl)

theorem exec_keeps_inv {i : Instr} {s t : State} (h : exec i s = .next t) (hs : Inv s) : Inv t := by
  obtain ⟨hcfg, hdebug, -, -⟩ := registerFrame i s t h
  obtain ⟨r, hresp, hr⟩ := exec_response_wf h
  exact hs.of_response (exec_keeps_wf h hs.memory) (exec_keeps_notBusy h hs.notBusy) hcfg hdebug hresp hr

/-- Settles O58: an error response and every execution keep the invariant, and a step is one of these or changes nothing. -/
theorem stepKeepsInv : Obligations.StepKeepsInv := by
  intro s t hs h
  cases hp : s.packets with
  | nil => cases (step_empty hp).symm.trans h; exact hs
  | cons pkt rest =>
    rcases step_cases hp h with ⟨e, -, rfl⟩ | ⟨i, -, hexec⟩
    · exact (hs.withPackets rest).afterError (errorOfDecode e)
    · exact exec_keeps_inv hexec (hs.withPackets rest)

/-! ### The writers of FB -/

/-- `mayWriteFB` lists the thirteen writers of R65. -/
theorem mayWriteFB_iff {i : Instr} : mayWriteFB i = true ↔
    i = .clear ∨ i = .fillBlack ∨ (∃ c, i = .fbFill c) ∨ (∃ c px py, i = .fbSetpx c px py) ∨
      (∃ c x y, i = .pixel c x y) ∨ (∃ c x y w, i = .hline c x y w) ∨ (∃ c x y h, i = .vline c x y h) ∨
      (∃ c x1 y1 x2 y2, i = .line c x1 y1 x2 y2) ∨ (∃ c x y w h, i = .rect c x y w h) ∨
      (∃ c x y w h, i = .fillRect c x y w h) ∨ (∃ c x y d, i = .circle c x y d) ∨
      (∃ c x y str, i = .text c x y str) ∨ ∃ x y bw bh d p bs, i = .drawBmp x y bw bh d p bs := by
  cases i <;> simp [mayWriteFB]

/-- An execution that changes FB is a writer's, and it responds OK or HardwareTimeout. -/
theorem exec_fb_changed {i : Instr} {s t : State} (h : exec i s = .next t) (hne : t.fb ≠ s.fb) :
    mayWriteFB i = true ∧ ∃ r : Response, t.responses = s.responses ++ [r] ∧ (r.status = 0 ∨ r.status = 3) := by
  obtain ⟨r, hresp, -, -, -, -, hcase⟩ := exec_response h
  have writes (hkeep : mayWriteFB i = false → t.fb = s.fb) : mayWriteFB i = true :=
    Bool.eq_true_of_not_eq_false fun hno => hne (hkeep hno)
  rcases hcase with ⟨-, -, -, rfl⟩ | ⟨-, -, -, rfl⟩ | ⟨-, -, -, -, rfl⟩ | ⟨-, -, hok, -, -, -, -, hkeep⟩ |
    ⟨-, _, -, -, hstatus, -, -, -, hkeep⟩
  · exact absurd rfl hne
  · exact absurd rfl hne
  · exact absurd rfl hne
  · exact ⟨writes hkeep, r, hresp, .inl hok⟩
  · exact ⟨writes hkeep, r, hresp, hstatus.imp And.left And.left⟩

/-- Settles O15: an undecodable packet leaves FB as it is, and an execution that changes it is a writer's. -/
theorem fbWrittenOnlyByWriters : Obligations.FbWrittenOnlyByWriters := by
  intro s pkt rest t r hp h hlast hne
  rcases step_cases hp h with ⟨e, -, rfl⟩ | ⟨i, hd, hexec⟩
  · exact absurd rfl hne
  · obtain ⟨hwriter, r', hresp, hstatus⟩ := exec_fb_changed hexec hne
    obtain rfl : r' = r := by simpa [hresp] using hlast
    exact ⟨hstatus, i, hd, mayWriteFB_iff.1 hwriter⟩

/-! ### The data form of FB -/

/-- Canonical memories with the same 5,808 bytes are equal: outside FB both read as unlisted. -/
theorem Memory.ext_inside {m m' : Memory} (h : Memory.wf m) (h' : Memory.wf m')
    (heq : ∀ a < fbBytes, m.read a = m'.read a) : m = m' := by
  refine Memory.ext_of_wf h h' fun a => ?_
  by_cases ha : a < fbBytes
  · exact heq a ha
  · rw [Memory.read_outside h (not_lt.1 ha), Memory.read_outside h' (not_lt.1 ha)]

/-- Settles O25: extensionality inside FB, and the laws of `Memory.write`. -/
theorem memoryReadWrite : Obligations.MemoryReadWrite :=
  ⟨fun _ _ => Memory.ext_inside, fun _ a v h ha => ⟨Memory.wf_write h ha v, Memory.read_write h.1 a v⟩⟩

end Sys2Proof.Machine
end

section
/-! 30_encoding.md R81 to R91: the encoder and the decoder agree, and exactly when decoding raises each of its two errors. -/

namespace Sys2Proof

open Machine (payloadBytes)

/-! ### Decoding what the encoder makes -/

theorem Instr.wf_iff {limit : PktLimit} {i : Instr} :
    i.wf limit = true ↔ i.countFits = true ∧ limit.admits i.packetWords = true := by
  rw [Instr.wf, Bool.and_eq_true]

/-- The tests of `decode_of_tests` for a packet whose first word is a command word. -/
theorem decode_commandWord {limit : PktLimit} {op : Opcode} {m : Byte} {ops : List Word} {i : Instr}
    (hsize : limit.admits (ops.length + 1) = true) (hmod : op.form.reservedSet m = false)
    (hlen : op.length ops = some (ops.length + 1)) (hops : operands op m ops = some i) :
    decode limit (commandWord op m :: ops) = .ok i := by
  rw [decode_of_tests (op := op) hsize (by simp) (by simp) (by simpa using hmod) hlen, modField_commandWord, hops]

theorem decode_zeroForm {limit : PktLimit} {op : Opcode} {ops : List Word} {i : Instr}
    (hsize : limit.admits (ops.length + 1) = true) (hform : op.form = .zero)
    (hlen : op.length ops = some (ops.length + 1)) (hops : operands op 0 ops = some i) :
    decode limit (commandWord op 0 :: ops) = .ok i :=
  decode_commandWord hsize (by rw [hform, reservedSet_zero]) hlen hops

theorem decode_colourForm {limit : PktLimit} {op : Opcode} {ops : List Word} {c : Color} {i : Instr}
    (hsize : limit.admits (ops.length + 1) = true) (hform : op.form = .colour)
    (hlen : op.length ops = some (ops.length + 1)) (hops : ∀ m, colourOfMod m = c → operands op m ops = some i) :
    decode limit (commandWord op (modOfColour c) :: ops) = .ok i :=
  decode_commandWord hsize (by rw [hform, reservedSet_colour]) hlen (hops _ (colourOfMod_modOfColour c))

theorem decode_orientForm {limit : PktLimit} {op : Opcode} {ops : List Word} {o : Orientation} {i : Instr}
    (hsize : limit.admits (ops.length + 1) = true) (hform : op.form = .orient)
    (hlen : op.length ops = some (ops.length + 1)) (hops : ∀ m, orientOfMod m = o → operands op m ops = some i) :
    decode limit (commandWord op (modOfOrient o) :: ops) = .ok i :=
  decode_commandWord hsize (by rw [hform, reservedSet_orient]) hlen (hops _ (orientOfMod_modOfOrient o))

/-- The length word of a byte list that fits it (R84, R86). -/
theorem toNat_lengthWord {bs : List Byte} (h : bs.length < 2 ^ 32) : (BitVec.ofNat 32 bs.length).toNat = bs.length := by
  rw [BitVec.toNat_ofNat, Nat.mod_eq_of_lt h]

theorem length_text (x y len : Word) (area : List Word) :
    Opcode.length .text (x :: y :: len :: area) = some (4 + areaWords len.toNat) := rfl

theorem length_drawBmp (x y bw bh depth pol len : Word) (area : List Word) :
    Opcode.length .drawBmp (x :: y :: bw :: bh :: depth :: pol :: len :: area) = some (8 + areaWords len.toNat) := rfl

/-- TEXT decodes from its words with any byte area that holds the string (R87). -/
theorem decode_textArea {limit : PktLimit} {c : Color} {x y : Word} {str : List Byte} {area : List Word}
    (hwf : (Instr.text c x y str).wf limit = true) (harea : area.length = areaWords str.length)
    (hbytes : bytesOfArea str.length area = str) :
    decode limit (commandWord .text (modOfColour c) :: x :: y :: BitVec.ofNat 32 str.length :: area) =
      .ok (.text c x y str) := by
  obtain ⟨hfits, hsize⟩ := Instr.wf_iff.1 hwf
  have hlen := toNat_lengthWord (of_decide_eq_true hfits)
  have hwords : (x :: y :: BitVec.ofNat 32 str.length :: area).length + 1 = 4 + areaWords str.length := by
    simp only [List.length_cons, harea]; omega
  refine decode_colourForm (hwords ▸ hsize) rfl ?_ fun m hc => ?_
  · rw [hwords, length_text, hlen]
  · rw [operands_text, hc, hlen, hbytes]

/-- DRAW_BMP decodes from its words with any byte area that holds the bitmap bytes (R87). -/
theorem decode_drawBmpArea {limit : PktLimit} {x y bw bh depth : Word} {pol : Polarity} {bytes : List Byte}
    {area : List Word} (hwf : (Instr.drawBmp x y bw bh depth pol bytes).wf limit = true)
    (harea : area.length = areaWords bytes.length) (hbytes : bytesOfArea bytes.length area = bytes) :
    decode limit
        (commandWord .drawBmp 0 :: x :: y :: bw :: bh :: depth :: pol.word :: BitVec.ofNat 32 bytes.length :: area) =
      .ok (.drawBmp x y bw bh depth pol bytes) := by
  obtain ⟨hfits, hsize⟩ := Instr.wf_iff.1 hwf
  have hlen := toNat_lengthWord (of_decide_eq_true hfits)
  have hwords : (x :: y :: bw :: bh :: depth :: pol.word :: BitVec.ofNat 32 bytes.length :: area).length + 1 =
      8 + areaWords bytes.length := by
    simp only [List.length_cons, harea]; omega
  refine decode_zeroForm (hwords ▸ hsize) rfl ?_ ?_
  · rw [hwords, length_drawBmp, hlen]
  · rw [operands_drawBmp, polarityOf_word, hlen, hbytes]; rfl

/-- Settles O2: each form of MOD is read back, and a packed byte area holds its bytes. -/
theorem decodeOfEncode : Obligations.DecodeOfEncode := by
  intro limit i hwf
  obtain ⟨-, hsize⟩ := Instr.wf_iff.1 hwf
  cases i with
  | init | display | clear | fillBlack | sleep | resetDisplay | getStatus | fbGetpx | fbRead =>
    exact decode_zeroForm hsize rfl rfl rfl
  | fbFill | fbSetpx | pixel | hline | vline | line | rect | fillRect | circle =>
    exact decode_colourForm hsize rfl rfl fun _ hc => hc ▸ rfl
  | setOrient | getDims | map | unmap => exact decode_orientForm hsize rfl rfl fun _ ho => ho ▸ rfl
  | text c x y str => exact decode_textArea hwf (length_packBytes str) (bytesOfArea_packBytes str)
  | drawBmp x y bw bh depth pol bytes =>
    exact decode_drawBmpArea hwf (length_packBytes bytes) (bytesOfArea_packBytes bytes)

/-! ### The packets of an instruction -/

theorem byteAt_cons_low (w : Word) (ws : List Word) {k : Nat} (hk : k < 4) :
    byteAt (w :: ws) k = w.extractLsb' (8 * k) 8 := by
  rw [byteAt, Nat.div_eq_of_lt hk, Nat.mod_eq_of_lt hk, List.getD_cons_zero]

/-- A packet with the bytes of some words and a packed byte area has these words, and then an area that holds the bytes. -/
theorem exists_area_of_bytes {head pkt : List Word} {bs : List Byte} (hlen : pkt.length = head.length + areaWords bs.length)
    (hbytes : ∀ k < 4 * head.length + bs.length, byteAt pkt k = byteAt (head ++ packBytes bs) k) :
    ∃ area, pkt = head ++ area ∧ area.length = areaWords bs.length ∧ bytesOfArea bs.length area = bs := by
  induction head generalizing pkt with
  | nil =>
    refine ⟨pkt, rfl, by simpa using hlen, ?_⟩
    calc bytesOfArea bs.length pkt = bytesOfArea bs.length (packBytes bs) :=
          List.map_congr_left fun k hk => hbytes k (by simpa using hk)
      _ = bs := bytesOfArea_packBytes bs
  | cons w head ih =>
    cases pkt with
    | nil => simp only [List.length_nil, List.length_cons] at hlen; omega
    | cons v ws =>
      simp only [List.length_cons, List.cons_append] at hlen hbytes
      have hword : v = w := word_ext_bytes fun k hk => by
        rw [← byteAt_cons_low v ws hk, hbytes k (by omega), byteAt_cons_low w _ hk]
      obtain ⟨area, rfl, harea⟩ := ih (pkt := ws) (by omega) fun k hk => by
        rw [← byteAt_cons v, hbytes (k + 4) (by omega), byteAt_cons]
      exact ⟨area, by rw [hword]; rfl, harea⟩

/-- An instruction without a byte area is encoded by one packet alone. -/
theorem eq_encode_of_bytes {i : Instr} {pkt : Packet} (hfixed : payloadBytes i = 4 * (encode i).length)
    (hlen : pkt.length = (encode i).length) (hbytes : ∀ k < payloadBytes i, byteAt pkt k = byteAt (encode i) k) :
    pkt = encode i :=
  eq_of_bytes hlen (hfixed ▸ hbytes)

theorem decode_of_bytes {limit : PktLimit} {pkt : Packet} {i : Instr} (hwf : i.wf limit = true)
    (hlen : pkt.length = i.packetWords) (hbytes : ∀ k < payloadBytes i, byteAt pkt k = byteAt (encode i) k) :
    decode limit pkt = .ok i := by
  cases i with
  | text c x y str =>
    obtain ⟨area, rfl, harea, hstr⟩ := exists_area_of_bytes
      (head := [commandWord .text (modOfColour c), x, y, BitVec.ofNat 32 str.length]) hlen hbytes
    exact decode_textArea hwf harea hstr
  | drawBmp x y bw bh depth pol bytes =>
    obtain ⟨area, rfl, harea, hmap⟩ := exists_area_of_bytes
      (head := [commandWord .drawBmp 0, x, y, bw, bh, depth, pol.word, BitVec.ofNat 32 bytes.length]) hlen hbytes
    exact decode_drawBmpArea hwf harea hmap
  | _ =>
    rw [eq_encode_of_bytes rfl hlen hbytes]
    exact decodeOfEncode limit _ hwf

/-- What a packet that decodes has: a well-formed instruction's length and payload. -/
theorem bytes_of_decode {limit : PktLimit} {pkt : Packet} {i : Instr} (h : decode limit pkt = .ok i) :
    i.wf limit = true ∧ pkt.length = i.packetWords ∧ ∀ k < payloadBytes i, byteAt pkt k = byteAt (encode i) k := by
  obtain ⟨w0, ops, op, rfl, hsize, hop, hrsv, hmod, hlen, hops⟩ := tests_of_decode h
  have hw0 : w0 = commandWord op (modField w0) := commandWord_of_fields hop hrsv
  obtain ⟨⟨hfits, hwords⟩, hshape⟩ := operands_cases hops hmod hlen
  refine ⟨Instr.wf_iff.2 ⟨hfits, hwords ▸ hsize⟩, hwords, fun k hk => ?_⟩
  rcases hshape with hencode | ⟨x, y, len, area, rfl, rfl, rfl⟩ |
    ⟨x, y, bw, bh, depth, pol, len, area, p, rfl, rfl, hpol, rfl⟩
  · rw [hencode, ← hw0]
  · rw [payloadBytes, length_bytesOfArea] at hk
    exact text_bytes hmod hw0 k hk
  · rw [payloadBytes, length_bytesOfArea] at hk
    exact drawBmp_bytes hmod hpol hw0 k hk

/-- Settles O3: `bytes_of_decode` and `decode_of_bytes`. -/
theorem decodesExactlyItsPackets : Obligations.DecodesExactlyItsPackets :=
  fun _ _ _ => ⟨bytes_of_decode, fun ⟨hwf, hlen, hbytes⟩ => decode_of_bytes hwf hlen hbytes⟩

theorem decode_of_encode_eq {pkt : Packet} {i : Instr} (h : encode i = pkt) (hfits : i.countFits = true) :
    decode .unbounded pkt = .ok i :=
  h ▸ decodeOfEncode .unbounded i (Instr.wf_iff.2 ⟨hfits, rfl⟩)

/-- Settles O1: each packet is the encoder's for its instruction. -/
theorem specWordsDecode : Obligations.SpecWordsDecode :=
  ⟨decode_of_encode_eq rfl rfl, decode_of_encode_eq rfl rfl, decode_of_encode_eq rfl rfl, decode_of_encode_eq rfl rfl,
    decode_of_encode_eq rfl rfl, decode_of_encode_eq rfl rfl, decode_of_encode_eq rfl rfl, decode_of_encode_eq rfl rfl⟩

/-! ### The two errors of decoding -/

theorem decode_tooLong {limit : PktLimit} {pkt : Packet} (h : limit.admits pkt.length = false) :
    decode limit pkt = .error .malformedPacket := by
  cases pkt with
  | nil => rfl
  | cons w0 ops =>
    rw [List.length_cons] at h
    simp [decode, exceededBy_eq, h]

theorem decode_unassigned {limit : PktLimit} {w0 : Word} {ops : List Word} (hsize : limit.admits (ops.length + 1) = true)
    (hop : Opcode.ofByte (opField w0) = none) : decode limit (w0 :: ops) = .error .illegalCommand := by
  simp [decode, exceededBy_eq, hsize, hop]

/-- After the opcode every failed test is a malformed packet (R91). -/
theorem decode_assigned {limit : PktLimit} {w0 : Word} {ops : List Word} {op : Opcode}
    (hsize : limit.admits (ops.length + 1) = true) (hop : Opcode.ofByte (opField w0) = some op) :
    decode limit (w0 :: ops) ≠ .error .illegalCommand ∧
    (decode limit (w0 :: ops) = .error .malformedPacket ↔
      rsvField w0 ≠ 0 ∨ op.form.reservedSet (modField w0) = true ∨ op.length ops ≠ some (ops.length + 1) ∨
        (op = .drawBmp ∧ ∃ p, ops[5]? = some p ∧ 1 < p.toNat)) := by
  by_cases hrsv : rsvField w0 = 0#16
  · cases hmod : op.form.reservedSet (modField w0) with
    | true => simp [decode, exceededBy_eq, hsize, hop, hrsv, hmod]
    | false =>
      by_cases hlen : op.length ops = some (ops.length + 1)
      · rw [decode_of_tests hsize hop hrsv hmod hlen, ← operands_eq_none (m := modField w0) hlen]
        cases operands op (modField w0) ops <;> simp [hrsv, hlen]
      · simp [decode, exceededBy_eq, hsize, hop, hrsv, hmod, hlen]
  · simp [decode, exceededBy_eq, hsize, hop, hrsv]

theorem decode_illegalCommand_iff {limit : PktLimit} {pkt : Packet} :
    decode limit pkt = .error .illegalCommand ↔
      ∃ w0 ops, pkt = w0 :: ops ∧ limit.admits pkt.length = true ∧ Opcode.ofByte (opField w0) = none := by
  constructor
  · intro h
    cases pkt with
    | nil => cases h
    | cons w0 ops =>
      cases hsize : limit.admits (w0 :: ops).length with
      | false => rw [decode_tooLong hsize] at h; cases h
      | true =>
        cases hop : Opcode.ofByte (opField w0) with
        | none => exact ⟨w0, ops, rfl, rfl, hop⟩
        | some op =>
          obtain ⟨hne, -⟩ := decode_assigned hsize hop
          exact absurd h hne
  · rintro ⟨w0, ops, rfl, hsize, hop⟩
    exact decode_unassigned hsize hop

theorem decode_malformedPacket_iff {limit : PktLimit} {pkt : Packet} :
    decode limit pkt = .error .malformedPacket ↔
      pkt = [] ∨ limit.admits pkt.length = false ∨
      ∃ w0 ops op, pkt = w0 :: ops ∧ Opcode.ofByte (opField w0) = some op ∧
        (rsvField w0 ≠ 0 ∨ op.form.reservedSet (modField w0) = true ∨ op.length ops ≠ some pkt.length ∨
          (op = .drawBmp ∧ ∃ p, ops[5]? = some p ∧ 1 < p.toNat)) := by
  constructor
  · intro h
    cases pkt with
    | nil => exact .inl rfl
    | cons w0 ops =>
      cases hsize : limit.admits (w0 :: ops).length with
      | false => exact .inr (.inl rfl)
      | true =>
        cases hop : Opcode.ofByte (opField w0) with
        | none => rw [decode_unassigned hsize hop] at h; cases h
        | some op =>
          obtain ⟨-, hiff⟩ := decode_assigned hsize hop
          exact .inr (.inr ⟨w0, ops, op, rfl, hop, hiff.1 h⟩)
  · rintro (rfl | hsize | ⟨w0, ops, op, rfl, hop, htest⟩)
    · rfl
    · exact decode_tooLong hsize
    · cases hsize : limit.admits (w0 :: ops).length with
      | false => exact decode_tooLong hsize
      | true =>
        obtain ⟨-, hiff⟩ := decode_assigned hsize hop
        exact hiff.2 htest

/-- Settles O5: the tests of R91, with the reserved bits of MOD written out for each form. -/
theorem decodeErrorsExactly : Obligations.DecodeErrorsExactly := by
  refine fun limit pkt => ⟨decode_illegalCommand_iff, decode_malformedPacket_iff.trans ?_⟩
  simp only [reservedSet_iff, or_assoc]
  rfl

/-- The OP values R89 leaves unassigned. -/
theorem ofByte_eq_none_iff (b : Byte) : Opcode.ofByte b = none ↔
    (b.toNat = 0x00 ∨ (0x08 ≤ b.toNat ∧ b.toNat ≤ 0x0F) ∨ (0x14 ≤ b.toNat ∧ b.toNat ≤ 0x1F) ∨
      (0x24 ≤ b.toNat ∧ b.toNat ≤ 0x2F) ∨ (0x39 ≤ b.toNat ∧ b.toNat ≤ 0xFF)) := by
  rw [Opcode.ofByte, List.find?_eq_none]
  simp only [Opcode.all, List.mem_cons, List.not_mem_nil, or_false, Opcode.byte, BitVec.ofNat_eq_ofNat,
    ← BitVec.toNat_inj, decide_eq_true_eq, forall_eq_or_imp, BitVec.toNat_ofNat, Nat.reducePow, Nat.one_mod,
    Nat.reduceMod, forall_eq]
  omega

end Sys2Proof
end

section
/-! 30_encoding.md: what a step does with an unassigned opcode (R89), the one response of a packet (R100), and the gate
(R104). -/

namespace Sys2Proof.Machine

/-- Settles O4: `ofByte_eq_none_iff`, and the step on a packet that decodes to IllegalCommand. -/
theorem unassignedOpcodesAreIllegal : Obligations.UnassignedOpcodesAreIllegal := by
  refine ⟨ofByte_eq_none_iff, fun s w0 ops rest hp hsize hop => ?_⟩
  obtain ⟨-, hillegal, -⟩ := stepRunsDecodedInstruction s _ rest hp
  exact hillegal (decode_unassigned hsize hop)

/-! ### The response -/

/-- A status word that is a code of 60_exceptions.md R250 has it in bits 7 to 0 and zero above. -/
theorem status_fields {w : Word} (h : w.toNat ≤ 6) : w.extractLsb' 8 24 = 0 ∧ (w.extractLsb' 0 8).toNat ≤ 6 := by
  constructor
  · apply BitVec.eq_of_toNat_eq
    rw [BitVec.extractLsb'_toNat, Nat.shiftRight_eq_div_pow, Nat.div_eq_of_lt (by omega)]
    rfl
  · rw [BitVec.extractLsb'_toNat, Nat.shiftRight_zero]
    exact (Nat.mod_le _ _).trans h

theorem errorStatus_ne_zero (e : Error) : statusWord e.code ≠ 0 := by cases e <;> decide

/-- The status and the result words of the response an execution adds. -/
theorem exec_response_form {i : Instr} {s t : State} (h : exec i s = .next t) :
    ∃ r : Response, t.responses = s.responses ++ [r] ∧ r.status.toNat ≤ 6 ∧ (r.status ≠ 0 → r.results = []) ∧
      (r.status = 0 → r.results.length = resultWords i) := by
  obtain ⟨r, hresp, -, -, -, -, hcase⟩ := exec_response h
  refine ⟨r, hresp, ?_⟩
  rcases hcase with ⟨-, -, rfl, -⟩ | ⟨-, -, rfl, -⟩ | ⟨-, -, -, rfl, -⟩ | ⟨-, -, hok, hcount, -⟩ |
    ⟨-, _, -, hnone, ⟨hok, -⟩ | ⟨htimeout, -⟩, hzero, -⟩
  · simp
  · simp
  · simp
  · simp [hok, hcount]
  · simp [hok, hnone, hzero]
  · simp [htimeout, hnone]

/-- Settles O8: a packet that does not decode is answered by its error, any other by its execution. -/
theorem oneResponsePerPacket : Obligations.OneResponsePerPacket := by
  intro s pkt rest t hp h
  rcases step_cases hp h with ⟨e, -, rfl⟩ | ⟨i, hd, hexec⟩
  · obtain ⟨hhigh, hlow⟩ := status_fields (errorStatus_le (errorOfDecode e))
    exact ⟨rfl, _, rfl, hhigh, hlow, fun _ => rfl, fun hok => absurd hok (errorStatus_ne_zero _)⟩
  · obtain ⟨-, -, hpackets, -⟩ := registerFrame i _ t hexec
    obtain ⟨r, hresp, hcode, herror, hok⟩ := exec_response_form hexec
    obtain ⟨hhigh, hlow⟩ := status_fields hcode
    exact ⟨hpackets, r, hresp, hhigh, hlow, herror, fun h0 => ⟨i, hd, hok h0⟩⟩

/-! ### The gate -/

/-- The gate's two errors, or an execution that passed it and reports neither. -/
theorem exec_gate_cases {i : Instr} {s t : State} (h : exec i s = .next t) :
    ∃ r : Response, t.responses = s.responses ++ [r] ∧
      ((isGated i = true ∧ s.pstate = .uninitialized ∧ r.status = 1) ∨
        (isGated i = true ∧ s.pstate = .asleep ∧ r.status = 2) ∨
        ((isGated i = true → s.pstate = .awake) ∧ r.status ≠ 1 ∧ r.status ≠ 2)) := by
  obtain ⟨r, hresp, -, -, -, -, hcase⟩ := exec_response h
  refine ⟨r, hresp, ?_⟩
  rcases hcase with ⟨hg, hp, rfl, -⟩ | ⟨hg, hp, rfl, -⟩ | ⟨hpass, -, -, rfl, -⟩ | ⟨hpass, -, hok, -⟩ |
    ⟨hpass, _, -, -, ⟨hok, -⟩ | ⟨htimeout, -⟩, -⟩
  · exact .inl ⟨hg, hp, rfl⟩
  · exact .inr (.inl ⟨hg, hp, rfl⟩)
  · exact .inr (.inr ⟨hpass, by decide, by decide⟩)
  · exact .inr (.inr ⟨hpass, by simp [hok], by simp [hok]⟩)
  · exact .inr (.inr ⟨hpass, by simp [hok], by simp [hok]⟩)
  · exact .inr (.inr ⟨hpass, by simp [htimeout], by simp [htimeout]⟩)

/-- Settles O10: outside Busy every instruction answers, and in one of the ways of `exec_gate_cases`. -/
theorem gateRefusesAsTabled : Obligations.GateRefusesAsTabled := by
  intro i s hbusy
  obtain ⟨t, hexec⟩ := exec_answers i s fun _ => hbusy
  obtain ⟨r, hresp, hcase⟩ := exec_gate_cases hexec
  refine ⟨t, r, hexec, hresp, ?_⟩
  rcases hcase with ⟨hg, hp, hr⟩ | ⟨hg, hp, hr⟩ | ⟨hpass, hne1, hne2⟩
  · simp [hg, hp, hr]
  · simp [hg, hp, hr]
  · have passed {p : PState} (hne : p ≠ .awake) : ¬ (isGated i = true ∧ s.pstate = p) :=
      fun ⟨hg, hp⟩ => hne (hp.symm.trans (hpass hg))
    exact ⟨iff_of_false hne1 (passed (by decide)), iff_of_false hne2 (passed (by decide))⟩

theorem exec_gated_busy {i : Instr} {s : State} (hg : isGated i = true) (hp : s.pstate = .busy) :
    exec i s = .fault .gatedWhileBusy := by
  obtain ⟨perform, hexec⟩ := exec_of_isGated hg
  rw [hexec, gated_busy hp]

/-- Settles O11: a gated operation in Busy faults, and everything else answers a next state. -/
theorem stopsOnlyWhileBusy : Obligations.StopsOnlyWhileBusy := by
  intro i s
  by_cases h : isGated i = true ∧ s.pstate = .busy
  · have hexec := exec_gated_busy h.1 h.2
    exact ⟨iff_of_true ⟨_, hexec⟩ h, by simp [hexec]⟩
  · obtain ⟨t, hexec⟩ := exec_answers i s fun hg hp => h ⟨hg, hp⟩
    simp [hexec, h]

end Sys2Proof.Machine
end

section
/-! 40_framebuffer.md: FB_FILL (R122, R125), FB_SETPX (R123), FB_GETPX (R124), FB_READ (R126), and drawing off the canvas
(R127). First, for these and every other instruction whose packet has at most 8 words: the step that takes its packet. -/

namespace Sys2Proof.Machine

/-! ### The packet of an instruction -/

/-- P_MAX_PKT_WORDS is at least 8 (00_scope.md R10). -/
theorem admits_of_le_eight {n : Nat} (h : n ≤ 8) (limit : PktLimit) : limit.admits n = true := by
  cases limit with
  | unbounded => rfl
  | beyondEight extra => exact decide_eq_true (h.trans (Nat.le_add_right 8 extra))

/-- A step that takes the packet of an instruction with at most 8 words runs that instruction, whatever the limit. -/
theorem step_encoded {i : Instr} {pkt : Packet} (h : encode i = pkt) (hfits : i.countFits = true)
    (hshort : i.packetWords ≤ 8) (s : State) : step (sendFirst pkt s) = exec i s :=
  step_sendFirst (h ▸ decodeOfEncode _ i (Instr.wf_iff.2 ⟨hfits, admits_of_le_eight hshort _⟩))

/-- The command word of form C is that of WHITE plus the colour. -/
theorem commandWord_colour (op : Opcode) (c : Color) :
    commandWord op (modOfColour c) = commandWord op 0 + colourWord c := by
  cases c with
  | white => exact (BitVec.add_zero _).symm
  | black => cases op <;> rfl

/-! ### Colours and operands -/

theorem colourBit_eq_decide (c : Color) : colourBit c = decide (c = .black) := by cases c <;> rfl

@[simp] theorem colourWord_white : colourWord .white = 0 := rfl

@[simp] theorem colourWord_colourOfBit (b : Bool) : colourWord (colourOfBit b) = if b then 1 else 0 := by cases b <;> rfl

theorem byteWord_eq_ofNat (b : Byte) : byteWord b = BitVec.ofNat 32 b.toNat := (BitVec.ofNat_toNat 32 b).symm

/-- A signed operand that is not negative is the unsigned one. -/
theorem toNat_signed {w : Word} (h : 0 ≤ signed w) : (signed w).toNat = w.toNat := by
  rw [signed, BitVec.toInt_eq_toNat_cond] at *
  have := w.isLt
  split_ifs at * <;> omega

theorem byteIndex_signed {px py : Word} (h : onPanel ⟨signed px, signed py⟩) :
    byteIndex ⟨signed px, signed py⟩ = py.toNat * 22 + px.toNat / 8 := by
  obtain ⟨hx, -, hy, -⟩ := h
  rw [byteIndex, toNat_signed hx, toNat_signed hy]

theorem bitPos_signed {px py : Word} (h : onPanel ⟨signed px, signed py⟩) :
    bitPos ⟨signed px, signed py⟩ = 7 - px.toNat % 8 := by
  obtain ⟨hx, -, -, -⟩ := h
  rw [bitPos, toNat_signed hx]

/-! ### FB_FILL -/

/-- The bytes of FB after a fill (R122). -/
theorem read_fillFB (c : Color) (s : State) {a : Nat} (ha : a < fbBytes) :
    (fillFB c s).fb.read a = if c = .black then 0xFF else 0x00 := by
  rw [fillFB_fb, Memory.read_fill _ ha, colourBit_eq_decide]
  simp only [decide_eq_true_eq]

/-- Settles O20: the gate before one fill, whose bytes `read_fillFB` gives. -/
theorem fbFillSetsEveryByte : Obligations.FbFillSetsEveryByte := by
  refine fun c s => ⟨step_encoded (i := .fbFill c) ?_ rfl (by decide : 1 ≤ 8) s, ?_⟩
  · rw [encode, commandWord_colour]; rfl
  · rw [exec_fbFill]
    exact runsWhenAwake_gated fun _ => ⟨(fillFB c s).fb, rfl, wf_fillFB c s, fun _ => read_fillFB c s⟩

/-- The pixels of FB after a fill (R125). -/
theorem getPhys_fillFB (c : Color) (s : State) (p : Point) :
    getPhys (fillFB c s).fb p = if onPanel p then c else .white := by
  split_ifs with hp
  · exact getPhys_fill c hp
  · exact getPhys_off _ hp

/-- Settles O21: the fill's pixels are those of every later state with the same FB. -/
theorem fillThenEveryPixelReads : Obligations.FillThenEveryPixelReads := by
  intro c s hawake
  refine ⟨answered (fillFB c s) 0 [], ?_, fun later px py hsame => ?_⟩
  · rw [exec_fbFill, gated_awake hawake]
  · rw [hsame, answered_fb, getPhys_fillFB]

/-! ### FB_SETPX -/

/-- SetPhys on the panel writes one bit and keeps every other (R121). -/
theorem getLsbD_read_setPhys {fb : Memory} (hs : Memory.Sorted fb) {p : Point} (c : Color) (hp : onPanel p) (a : Nat)
    {b : Nat} (hb : b < 8) :
    ((setPhys fb p c).read a).getLsbD b =
      if a = byteIndex p ∧ b = bitPos p then colourBit c else (fb.read a).getLsbD b := by
  rw [read_setPhys hs c hp]
  by_cases ha : a = byteIndex p
  · simp only [ha, if_true, true_and]
    exact getLsbD_setBit _ (bitPos_lt p) _ hb
  · simp only [ha, if_false, false_and]

/-- Settles O22: the gate before one SetPhys, which writes one bit on the panel and nothing off it. -/
theorem fbSetpxWritesOnePixel : Obligations.FbSetpxWritesOnePixel := by
  refine fun c px py s hwf => ⟨step_encoded (i := .fbSetpx c px py) ?_ rfl (by decide : 3 ≤ 8) s, ?_⟩
  · rw [encode, commandWord_colour]; rfl
  · rw [exec_fbSetpx]
    refine runsWhenAwake_gated fun _ => ⟨setPhys s.fb ⟨signed px, signed py⟩ c, rfl, wf_setPhys hwf _ c, ?_⟩
    split_ifs with hp
    · intro a b hb
      rw [getLsbD_read_setPhys hwf.1 c hp a hb, byteIndex_signed hp, bitPos_signed hp, colourBit_eq_decide]
    · exact setPhys_off s.fb c hp

/-! ### FB_GETPX and FB_READ -/

/-- The word of a pixel: 1 for a point on the panel whose bit is set, else 0 (R120, R124). -/
theorem colourWord_getPhys (fb : Memory) (p : Point) :
    colourWord (getPhys fb p) = if onPanel p ∧ (fb.read (byteIndex p)).getLsbD (bitPos p) = true then 1 else 0 := by
  by_cases hp : onPanel p
  · rw [getPhys, if_pos hp, colourWord_colourOfBit]
    exact (if_congr (and_iff_right hp) rfl rfl).symm
  · rw [getPhys_off fb hp, colourWord_white, if_neg fun h => hp h.1]

/-- Settles O23: the word of GetPhys, whose byte and bit are those of the unsigned operands on the panel. -/
theorem fbGetpxReadsOnePixel : Obligations.FbGetpxReadsOnePixel := by
  refine fun px py s => ⟨step_encoded (i := .fbGetpx px py) rfl rfl (by decide : 3 ≤ 8) s, ?_⟩
  have hbit : (onPanel ⟨signed px, signed py⟩ ∧
        (s.fb.read (byteIndex ⟨signed px, signed py⟩)).getLsbD (bitPos ⟨signed px, signed py⟩) = true) ↔
      (onPanel ⟨signed px, signed py⟩ ∧ (s.fb.read (py.toNat * 22 + px.toNat / 8)).getLsbD (7 - px.toNat % 8) = true) :=
    and_congr_right fun hp => by rw [byteIndex_signed hp, bitPos_signed hp]
  rw [exec_fbGetpx, colourWord_getPhys]
  simp only [hbit, and_assoc]
  rfl

/-- Settles O24: `exec_fbRead`, with the byte zero-extended by its value. -/
theorem fbReadReadsOneByte : Obligations.FbReadReadsOneByte := by
  refine fun idx s => ⟨step_encoded (i := .fbRead idx) rfl rfl (by decide : 2 ≤ 8) s, ?_⟩
  have hbyte : (if unsigned idx < fbBytes then s.fb.read (unsigned idx) else 0x00).toNat =
      if idx.toNat < 5808 then (s.fb.read idx.toNat).toNat else 0 :=
    apply_ite BitVec.toNat (idx.toNat < 5808) _ _
  rw [exec_fbRead, byteWord_eq_ofNat, hbyte]
  rfl

/-! ### Drawing off the canvas -/

/-- A drawing operation of one colour with no point in the canvas only responds (R127). `perform` is what it does behind the
gate, whatever of the state its points are made from. -/
theorem exec_draw_off {i : Instr} {s : State} {perform : State → Result} {c : Color} {pts : List Point}
    (hexec : exec i s = gated s perform) (hawake : s.pstate = .awake)
    (hdraw : perform s = .next (answered (drawPoints c pts s) 0 []))
    (hoff : ∀ p ∈ pts, ¬ inCanvas s.orient p.x p.y) : exec i s = .next (answered s 0 []) := by
  rw [hexec, gated_awake hawake, hdraw, drawPoints_off c hoff]

theorem exec_fbSetpx_off {px py : Word} {s : State} (c : Color) (hawake : s.pstate = .awake)
    (hoff : ¬ onPanel ⟨signed px, signed py⟩) : exec (.fbSetpx c px py) s = .next (answered s 0 []) := by
  rw [exec_fbSetpx, gated_awake hawake, setPhys_off s.fb c hoff]

theorem bmpValid_iff {bw bh depth : Nat} {bytes : List Byte} :
    bmpValid bw bh depth bytes = true ↔ depth = 1 ∧ rowBytes bw * bh ≤ bytes.length := by
  simp [bmpValid]

/-- A valid bitmap with no pixel in the canvas (R127). -/
theorem exec_drawBmp_off {x y bw bh : Word} {pol : Polarity} {bytes : List Byte} {s : State} (hawake : s.pstate = .awake)
    (hbytes : rowBytes (unsigned bw) * unsigned bh ≤ bytes.length)
    (hoff : ∀ i j : Nat, i < unsigned bw → j < unsigned bh → ¬ inCanvas s.orient (signed x + i) (signed y + j)) :
    exec (.drawBmp x y bw bh 1 pol bytes) s = .next (answered s 0 []) := by
  have hvalid : bmpValid (unsigned bw) (unsigned bh) (unsigned 1) bytes = true := bmpValid_iff.2 ⟨rfl, hbytes⟩
  rw [exec_drawBmp, gated_awake hawake, if_pos hvalid, plotAll_off]
  rintro ⟨p, c⟩ hp
  obtain ⟨i, j, hi, hj, hx, hy, -⟩ := mem_bmpPoints.1 hp
  rw [hx, hy]
  exact hoff i j hi hj

/-- Settles O44: `setPhys_off`, `plotAll_off`, and for each operation that its list names only points of its shape. -/
theorem offCanvasDrawsNothing : Obligations.OffCanvasDrawsNothing := by
  refine ⟨fun fb px py c => setPhys_off fb (p := ⟨px, py⟩) c, plotAll_off, fun i s hawake hshape => ?_⟩
  rcases hshape with ⟨c, px, py, rfl, hoff⟩ | ⟨c, x, y, rfl, hoff⟩ | ⟨c, x, y, w, rfl, hoff⟩ |
    ⟨c, x, y, h, rfl, hoff⟩ | ⟨c, x1, y1, x2, y2, rfl, hoff⟩ | ⟨c, x, y, w, h, rfl, hoff⟩ |
    ⟨c, x, y, w, h, rfl, hoff⟩ | ⟨c, x, y, r, rfl, hoff⟩ | ⟨c, x, y, str, rfl, hoff⟩ |
    ⟨x, y, bw, bh, pol, bytes, rfl, hbytes, hoff⟩
  · exact exec_fbSetpx_off c hawake hoff
  · exact exec_draw_off (exec_pixel c x y s) hawake rfl (List.forall_mem_singleton.2 hoff)
  · refine exec_draw_off (exec_hline c x y w s) hawake rfl fun p hp => ?_
    obtain ⟨hy, hlo, hhi⟩ := mem_hlinePoints.1 hp
    rw [hy]
    exact hoff p.x hlo hhi
  · refine exec_draw_off (exec_vline c x y h s) hawake rfl fun p hp => ?_
    obtain ⟨hx, hlo, hhi⟩ := mem_vlinePoints.1 hp
    rw [hx]
    exact hoff p.y hlo hhi
  · exact exec_draw_off (exec_line c x1 y1 x2 y2 s) hawake rfl fun p hp => hoff p.x p.y (mem_linePoints.1 hp)
  · refine exec_draw_off (exec_rect c x y w h s) hawake rfl fun p hp => ?_
    obtain ⟨⟨hx0, hx1, hy0, hy1⟩, hedge⟩ := mem_rectPoints.1 hp
    exact hoff p.x p.y hx0 hx1 hy0 hy1 hedge
  · refine exec_draw_off (exec_fillRect c x y w h s) hawake rfl fun p hp => ?_
    obtain ⟨hx0, hx1, hy0, hy1⟩ := mem_fillRectPoints.1 hp
    exact hoff p.x p.y hx0 hx1 hy0 hy1
  · exact exec_draw_off (exec_circle c x y r s) hawake rfl fun p hp => hoff p.x p.y (mem_circlePoints.1 hp)
  · refine exec_draw_off (exec_text c x y str s) hawake rfl fun p hp => ?_
    obtain ⟨k, ch, g, row, col, hk, hg, hrow, hcol, hbit, hx, hy⟩ := mem_textPoints.1 hp
    rw [hx, hy]
    exact hoff k row col ch g hk hg hrow hcol hbit
  · exact exec_drawBmp_off hawake hbytes hoff

end Sys2Proof.Machine
end

section
/-! 41_orientation.md: the transform as a bijection (R142, R143), Plot's clipping (R145), and SET_ORIENT, GET_DIMS, MAP and
UNMAP (R147 to R150). -/

namespace Sys2Proof.Machine

/-! ### The transform -/

/-- Settles O30: the formulas are the definition's, and each transform undoes the other. -/
theorem transformsAreInverse : Obligations.TransformsAreInverse := fun o x y =>
  ⟨by cases o <;> rfl, toLogical_toPhys o ⟨x, y⟩, toPhys_toLogical o ⟨x, y⟩⟩

/-- Settles O31: ToLogical undoes ToPhys both ways, and each maps its rectangle into the other by `onPanel_toPhys`. -/
theorem transformIsBijection : Obligations.TransformIsBijection := by
  intro o
  refine Set.InvOn.bijOn (f' := toLogical o) ⟨fun p _ => toLogical_toPhys o p, fun p _ => toPhys_toLogical o p⟩ ?_ ?_
  · exact fun p hp => (onPanel_toPhys o p.x p.y).2 hp
  · intro p hp
    apply (onPanel_toPhys o _ _).1
    rwa [toPhys_toLogical]

/-! ### Plot -/

/-- Plot off the canvas is discarded (R144, R145). -/
theorem plot_off {o : Orientation} {lx ly : Int} (fb : Memory) (c : Color) (h : ¬ inCanvas o lx ly) :
    plot o fb ⟨lx, ly⟩ c = fb :=
  setPhys_off fb c fun hp => h ((onPanel_toPhys o lx ly).1 hp)

/-- What Plot in the canvas does to the colour of a logical point (R144, R145). -/
theorem logicalPixel_plot {o : Orientation} {fb : Memory} (hs : Memory.Sorted fb) {lx ly : Int} (c : Color)
    (h : inCanvas o lx ly) (x y : Int) :
    logicalPixel o (plot o fb ⟨lx, ly⟩ c) x y = if x = lx ∧ y = ly then c else logicalPixel o fb x y := by
  have hsame : (onPanel (toPhys o ⟨lx, ly⟩) ∧ toPhys o ⟨x, y⟩ = toPhys o ⟨lx, ly⟩) ↔ x = lx ∧ y = ly := by
    rw [and_iff_right ((onPanel_toPhys o lx ly).2 h), toPhys_inj, Point.mk.injEq]
  exact (getPhys_setPhys hs _ _ c).trans (if_congr hsame rfl rfl)

/-- Settles O32: `onPanel_toPhys`, and Plot off and in the canvas. -/
theorem plotClipsToCanvas : Obligations.PlotClipsToCanvas := fun o fb lx ly c hwf =>
  ⟨(onPanel_toPhys o lx ly).symm, plot_off fb c, fun h x y _ => logicalPixel_plot hwf.1 c h x y⟩

/-! ### SET_ORIENT, GET_DIMS, MAP and UNMAP -/

/-- The command word of form O is that of orientation 0 plus the orientation's index (30_encoding.md R83). -/
theorem commandWord_orient (op : Opcode) (o : Orientation) :
    commandWord op (modOfOrient o) = commandWord op 0 + o.index.zeroExtend 32 := by
  cases op <;> cases o <;> rfl

/-- The step that takes a packet of form O runs its instruction, for the command word written as that sum. -/
theorem step_orientForm {op : Opcode} {o : Orientation} {ops : List Word} {i : Instr}
    (h : encode i = commandWord op (modOfOrient o) :: ops) (hfits : i.countFits = true) (hshort : i.packetWords ≤ 8)
    (s : State) : step (sendFirst ((commandWord op 0 + o.index.zeroExtend 32) :: ops) s) = exec i s :=
  step_encoded (by rw [h, commandWord_orient]) hfits hshort s

/-- Settles O26: the gate before one write of ORIENT. -/
theorem setOrientWritesOrient : Obligations.SetOrientWritesOrient := by
  refine fun o s => ⟨step_orientForm (i := .setOrient o) rfl rfl (by decide : 1 ≤ 8) s, ?_⟩
  rw [exec_setOrient]
  exact runsWhenAwake_gated fun _ => rfl

/-- Settles O27: `exec_getDims`, with the dimensions of each orientation. -/
theorem getDimsAnswersDims : Obligations.GetDimsAnswersDims := by
  refine fun o s => ⟨step_orientForm (i := .getDims o) rfl rfl (by decide : 1 ≤ 8) s, ?_⟩
  rw [exec_getDims]
  cases o <;> rfl

/-- Settles O28: `exec_map`, with the formulas of R141. -/
theorem mapAppliesTransform : Obligations.MapAppliesTransform := by
  refine fun o lx ly s =>
    ⟨step_orientForm (i := .map o lx ly) rfl rfl (by decide : 3 ≤ 8) s, _, _, exec_map o lx ly s, ?_⟩
  cases o <;> rfl

/-- Settles O29: `exec_unmap`, with the formulas of R142. -/
theorem unmapAppliesInverse : Obligations.UnmapAppliesInverse := by
  refine fun o px py s =>
    ⟨step_orientForm (i := .unmap o px py) rfl rfl (by decide : 3 ≤ 8) s, _, _, exec_unmap o px py s, ?_⟩
  cases o <;> rfl

end Sys2Proof.Machine
end

section
/-! 42_rasterizer.md: what each drawing operation paints (R160, R161, R162, R164, R166, R167, R169), and what the spec
derives of the shapes: runs are lines (R163), the closed form of the line (R165), RECT as a boundary (R168), the symmetries
of CIRCLE (R170). -/

namespace Sys2Proof.Machine

/-! ### A drawing operation -/

/-- The step that takes a packet of form C runs its instruction, for the command word written as that of WHITE plus the
colour. -/
theorem step_colourForm {op : Opcode} {c : Color} {ops : List Word} {i : Instr}
    (h : encode i = commandWord op (modOfColour c) :: ops) (hfits : i.countFits = true) (hshort : i.packetWords ≤ 8)
    (s : State) : step (sendFirst ((commandWord op 0 + colourWord c) :: ops) s) = exec i s :=
  step_encoded (by rw [h, commandWord_colour]) hfits hshort s

/-- `runsWhenAwake_draw` for a shape: what a drawing operation paints when its points are those of `shape`. -/
theorem runsWhenAwake_drawShape {i : Instr} {s : State} {c : Color} {pts : List Point} {shape : Int → Int → Prop}
    (hexec : exec i s = gated s fun s => .next (answered (drawPoints c pts s) 0 [])) (hwf : Memory.wf s.fb)
    (hshape : ∀ p, p ∈ pts ↔ shape p.x p.y) :
    RunsWhenAwake s (exec i s) fun r => ∃ t, r = .next t ∧ Paints s t fun lx ly c' => c' = c ∧ shape lx ly := by
  rw [hexec]
  exact runsWhenAwake_draw hwf c pts fun lx ly c' => and_congr_right fun _ => (hshape ⟨lx, ly⟩).symm

/-- Two drawing operations of one colour whose points are the same do the same, gate and response included. -/
theorem exec_draw_congr {i j : Instr} {s : State} {c : Color} {pts pts' : List Point}
    (hi : exec i s = gated s fun s => .next (answered (drawPoints c pts s) 0 []))
    (hj : exec j s = gated s fun s => .next (answered (drawPoints c pts' s) 0 [])) (hwf : Memory.wf s.fb)
    (h : ∀ p, p ∈ pts ↔ p ∈ pts') : exec i s = exec j s := by
  rw [hi, hj]
  exact gated_congr (by rw [drawPoints_congr hwf c h])

/-! ### PIXEL, HLINE and VLINE -/

/-- Settles O33: the one point PIXEL plots. -/
theorem pixelPaintsOnePoint : Obligations.PixelPaintsOnePoint := by
  refine fun c x y s hwf => ⟨step_colourForm (i := .pixel c x y) rfl rfl (by decide : 3 ≤ 8) s, ?_⟩
  refine runsWhenAwake_drawShape (exec_pixel c x y s) hwf fun p => ?_
  rw [List.mem_singleton]
  exact Eq.to_iff (Point.mk.injEq p.x p.y (signed x) (signed y))

/-- Settles O34: the points of `mem_hlinePoints`. -/
theorem hlinePaintsRun : Obligations.HlinePaintsRun := fun c x y w s hwf =>
  ⟨step_colourForm (i := .hline c x y w) rfl rfl (by decide : 4 ≤ 8) s,
    runsWhenAwake_drawShape (exec_hline c x y w s) hwf fun _ => mem_hlinePoints⟩

/-- Settles O35: the points of `mem_vlinePoints`. -/
theorem vlinePaintsRun : Obligations.VlinePaintsRun := fun c x y h s hwf =>
  ⟨step_colourForm (i := .vline c x y h) rfl rfl (by decide : 4 ≤ 8) s,
    runsWhenAwake_drawShape (exec_vline c x y h s) hwf fun _ => mem_vlinePoints⟩

/-! ### Axis-parallel lines -/

/-- A run along the major axis whose ends have the same minor coordinate keeps it. -/
theorem onMajorRun_flat {M1 M2 m a b : Int} :
    lineShape.onMajorRun M1 m M2 m a b ↔ b = m ∧ M1 ≤ a ∧ a ≤ M2 := by
  simp only [lineShape.onMajorRun, sub_self, Int.sign_zero, zero_mul, add_zero]
  constructor
  · rintro ⟨i, h0, h1, rfl, rfl⟩
    omega
  · rintro ⟨rfl, hlo, hhi⟩
    exact ⟨a - M1, by omega, by omega, by omega, rfl⟩

/-- The line between two points of a row (R163). -/
theorem lineShape_row {x1 x2 y lx ly : Int} (h : x1 ≤ x2) :
    lineShape x1 y x2 y lx ly ↔ ly = y ∧ x1 ≤ lx ∧ lx ≤ x2 := by
  have hmajor : |x2 - x1| ≥ |y - y| := by simp
  rw [lineShape, if_pos hmajor, if_pos h, onMajorRun_flat]

/-- The line between two points of a column (R163). One point counts as a row. -/
theorem lineShape_column {x y1 y2 lx ly : Int} (h : y1 ≤ y2) :
    lineShape x y1 x y2 lx ly ↔ lx = x ∧ y1 ≤ ly ∧ ly ≤ y2 := by
  rcases h.eq_or_lt with rfl | hlt
  · rw [lineShape_row le_rfl]
    omega
  · have hmajor : ¬ |x - x| ≥ |y2 - y1| := by
      rw [sub_self, abs_zero, not_le, abs_pos]
      omega
    rw [lineShape, if_neg hmajor, if_pos h, onMajorRun_flat]

theorem mem_hlinePoints_iff_line {x y w : Int} (hw : 1 ≤ w) (p : Point) :
    p ∈ hlinePoints x y w ↔ p ∈ linePoints x y (x + w - 1) y := by
  rw [mem_hlinePoints, mem_linePoints, lineShape_row (by omega)]
  omega

theorem mem_vlinePoints_iff_line {x y h : Int} (hh : 1 ≤ h) (p : Point) :
    p ∈ vlinePoints x y h ↔ p ∈ linePoints x y x (y + h - 1) := by
  rw [mem_vlinePoints, mem_linePoints, lineShape_column (by omega)]
  omega

/-- Settles O36: a run and the line between its ends have the same points, so drawing them is the same. -/
theorem runsAreLines : Obligations.RunsAreLines := by
  refine ⟨fun x y w => mem_hlinePoints_iff_line, fun x y h => mem_vlinePoints_iff_line, ?_, ?_⟩
  · intro c x y w x2 s hwf hw hx2
    refine exec_draw_congr (exec_hline c x y w s) (exec_line c x y x2 y s) hwf fun p => ?_
    simp only [signed, hx2]
    exact mem_hlinePoints_iff_line hw p
  · intro c x y h y2 s hwf hh hy2
    refine exec_draw_congr (exec_vline c x y h s) (exec_line c x y x y2 s) hwf fun p => ?_
    simp only [signed, hy2]
    exact mem_vlinePoints_iff_line hh p

/-! ### LINE -/

/-- The order of the ends does not matter (R164). -/
theorem mem_linePoints_swap (x1 y1 x2 y2 : Int) (p : Point) :
    p ∈ linePoints x1 y1 x2 y2 ↔ p ∈ linePoints x2 y2 x1 y1 := by
  rw [mem_linePoints, mem_linePoints, lineShape_swap]

/-- Consecutive points of Line differ by one step along the major axis and at most one along the minor (R165). -/
theorem linePoints_chain (x1 y1 x2 y2 : Int) : (linePoints x1 y1 x2 y2).IsChain fun p q =>
    if |x2 - x1| ≥ |y2 - y1| then q.x = p.x + 1 ∧ |q.y - p.y| ≤ 1 else q.y = p.y + 1 ∧ |q.x - p.x| ≤ 1 := by
  have hmajor : (x2 - x1).natAbs ≥ (y2 - y1).natAbs ↔ |x2 - x1| ≥ |y2 - y1| := by
    simp only [Int.abs_eq_natAbs, ge_iff_le, Nat.cast_le]
  simp only [linePoints, hmajor]
  split_ifs
  all_goals exact (List.isChain_map _).2 (majorRun_chain _ _ _ _)

/-- Settles O37: the closed form of `mem_linePoints`, which the order of the ends does not change. -/
theorem linePaintsClosedForm : Obligations.LinePaintsClosedForm := by
  refine fun c x1 y1 x2 y2 s hwf =>
    ⟨step_colourForm (i := .line c x1 y1 x2 y2) rfl rfl (by decide : 5 ≤ 8) s, ?_, ?_⟩
  · exact exec_draw_congr (exec_line c x1 y1 x2 y2 s) (exec_line c x2 y2 x1 y1 s) hwf (mem_linePoints_swap _ _ _ _)
  · exact runsWhenAwake_drawShape (exec_line c x1 y1 x2 y2 s) hwf fun _ => mem_linePoints

/-- Settles O38: `mem_linePoints`, and of the closed form its ends, its symmetry and the chain of the loop. -/
theorem lineClosedForm : Obligations.LineClosedForm := fun x1 y1 x2 y2 =>
  have ⟨hfirst, hlast⟩ := lineShape_ends x1 y1 x2 y2
  ⟨fun _ => mem_linePoints, mem_linePoints_swap x1 y1 x2 y2, mem_linePoints.2 hfirst, mem_linePoints.2 hlast,
    linePoints_chain x1 y1 x2 y2⟩

/-! ### RECT and FILL_RECT -/

/-- Settles O39: the boundary of `mem_rectPoints` is the union of the four edges. -/
theorem rectPaintsFourEdges : Obligations.RectPaintsFourEdges := by
  refine fun c x y w h s hwf => ⟨step_colourForm (i := .rect c x y w h) rfl rfl (by decide : 5 ≤ 8) s, ?_⟩
  refine runsWhenAwake_drawShape (exec_rect c x y w h s) hwf fun p => ?_
  simp only [mem_rectPoints, signed]
  omega

/-- Settles O40: the points of both by `mem_rectPoints` and `mem_fillRectPoints`. -/
theorem rectIsBoundaryOfBlock : Obligations.RectIsBoundaryOfBlock := by
  intro x y w h _ _ p
  rw [mem_rectPoints, mem_fillRectPoints]

/-- Drawing a set of points that covers the canvas is filling FB (R167). -/
theorem drawPoints_cover {s : State} (hwf : Memory.wf s.fb) (c : Color) {pts : List Point}
    (h : ∀ lx ly, inCanvas s.orient lx ly → (⟨lx, ly⟩ : Point) ∈ pts) : drawPoints c pts s = fillFB c s := by
  have hpixels : (drawPoints c pts s).fb = (fillFB c s).fb := by
    refine ext_of_pixels (wf_plotAll hwf _ _) (wf_fillFB c s) fun p hp => ?_
    obtain ⟨q, rfl⟩ : ∃ q, toPhys s.orient q = p := ⟨_, toPhys_toLogical s.orient p⟩
    have hq : q ∈ pts := h q.x q.y ((onPanel_toPhys s.orient q.x q.y).1 hp)
    rw [getPhys_fillFB, if_pos hp, drawPoints_fb]
    refine getPhys_plotAll_of_mem hwf s.orient _ q c hp (List.mem_map_of_mem hq) fun c' hc' => ?_
    obtain ⟨_, -, heq⟩ := List.mem_map.1 hc'
    exact (congrArg Prod.snd heq).symm
  exact state_ext rfl hpixels rfl rfl rfl rfl rfl rfl rfl rfl

/-- Settles O41: the block of `mem_fillRectPoints`; one that covers the canvas is a fill by `drawPoints_cover`. -/
theorem fillRectPaintsBlock : Obligations.FillRectPaintsBlock := by
  refine ⟨fun c x y w h s hwf => ⟨step_colourForm (i := .fillRect c x y w h) rfl rfl (by decide : 5 ≤ 8) s, ?_⟩, ?_⟩
  · refine runsWhenAwake_drawShape (exec_fillRect c x y w h s) hwf fun p => ?_
    simp only [mem_fillRectPoints, signed]
    omega
  · intro c x y w h s hwf hx hy hright hbottom
    have hcover : ∀ lx ly, inCanvas s.orient lx ly →
        (⟨lx, ly⟩ : Point) ∈ fillRectPoints (signed x) (signed y) (signed w) (signed h) := by
      rintro lx ly ⟨hx0, hx1, hy0, hy1⟩
      simp only [mem_fillRectPoints, signed]
      omega
    rw [exec_fillRect, exec_fbFill]
    exact gated_congr (by rw [drawPoints_cover hwf c hcover])

/-! ### CIRCLE -/

/-- Settles O42: the closed form of `mem_circlePoints`. -/
theorem circlePaintsClosedForm : Obligations.CirclePaintsClosedForm := fun c x y r s hwf =>
  ⟨step_colourForm (i := .circle c x y r) rfl rfl (by decide : 4 ≤ 8) s,
    runsWhenAwake_drawShape (exec_circle c x y r s) hwf fun _ => mem_circlePoints⟩

/-- Whether a point is on the circle depends only on the greater and the lesser of its distances from the centre's axes. -/
theorem mem_circlePoints_offset {x y r : Int} (hr : 0 < r) (dx dy : Int) :
    (⟨x + dx, y + dy⟩ : Point) ∈ circlePoints x y r ↔ onOctant r (max |dx| |dy|) (min |dx| |dy|) := by
  rw [mem_circlePoints]
  simp [circleShape, onOctant, hr, hr.ne']

/-- Every step of CIRCLE's loop makes eight Plot calls (R169). -/
theorem length_circlePoints {x y r : Int} (hr : 0 ≤ r) :
    (circlePoints x y r).length = 8 * (circleSteps (r.toNat + 1) r 0 (1 - r)).length := by
  rw [circlePoints, if_pos hr, List.length_flatMap]
  simp [octants, Nat.mul_comm]

/-- Settles O43: no symmetry changes the pair of distances of `mem_circlePoints_offset` but for the order and the signs. -/
theorem circleIsSymmetric : Obligations.CircleIsSymmetric := by
  refine fun x y r hr => ⟨fun dx dy => ?_, length_circlePoints hr.le⟩
  simp only [sub_eq_add_neg, mem_circlePoints_offset hr, abs_neg, max_comm |dy|, min_comm |dy|, and_self]

end Sys2Proof.Machine
end

section
/-! 43_text_blit.md: TEXT (R193), the two outcomes of DRAW_BMP (R197, R198), and what the spec derives of its Plot calls
(R199). -/

namespace Sys2Proof.Machine

/-! ### Packets with a byte area -/

/-- TEXT decodes from its words with the string of any byte area of the right length (R86, R87). -/
theorem decode_text {limit : PktLimit} (c : Color) (x y : Word) {len : Word} {area : List Word}
    (hsize : limit.admits (area.length + 4) = true) (harea : area.length = areaWords len.toNat) :
    decode limit (commandWord .text (modOfColour c) :: x :: y :: len :: area) =
      .ok (.text c x y (bytesOfArea len.toNat area)) := by
  refine decode_colourForm hsize rfl ?_ fun m hc => by rw [operands_text, hc]
  rw [length_text, ← harea]
  exact congrArg some (Nat.add_comm 4 area.length)

/-- DRAW_BMP decodes from its words with the bytes of any byte area of the right length (R86, R87). -/
theorem decode_drawBmp {limit : PktLimit} (x y bw bh depth : Word) (pol : Polarity) {len : Word} {area : List Word}
    (hsize : limit.admits (area.length + 8) = true) (harea : area.length = areaWords len.toNat) :
    decode limit (commandWord .drawBmp 0 :: x :: y :: bw :: bh :: depth :: pol.word :: len :: area) =
      .ok (.drawBmp x y bw bh depth pol (bytesOfArea len.toNat area)) := by
  refine decode_zeroForm hsize rfl ?_ (by rw [operands_drawBmp, polarityOf_word]; rfl)
  rw [length_drawBmp, ← harea]
  exact congrArg some (Nat.add_comm 8 area.length)

/-! ### TEXT -/

/-- TEXT draws the points its string has in the configuration of the state before it (R193). -/
theorem exec_text_draws (c : Color) (x y : Word) (str : List Byte) (s : State) :
    exec (.text c x y str) s =
      gated s fun t => .next (answered (drawPoints c (textPoints s.cfg (signed x) (signed y) str) t) 0 []) :=
  (exec_text c x y str s).trans (gated_congr rfl)

/-- Settles O45: `decode_text`, and the points of `mem_textPoints`. -/
theorem textPaintsGlyphs : Obligations.TextPaintsGlyphs := by
  rintro c x y len area str s hwf harea hsize rfl
  constructor
  · have hstep := step_sendFirst (decode_text c x y hsize harea)
    rwa [commandWord_colour] at hstep
  · refine runsWhenAwake_drawShape (exec_text_draws c x y _ s) hwf fun p => mem_textPoints.trans ⟨?_, ?_⟩
    · exact fun ⟨k, ch, g, row, col, hink⟩ => ⟨k, row, col, ch, g, hink⟩
    · exact fun ⟨k, row, col, ch, g, hink⟩ => ⟨k, ch, g, row, col, hink⟩

/-! ### DRAW_BMP -/

/-- Validation of the operand words (R197). -/
theorem bmpValid_words_iff {bw bh depth : Word} {bytes : List Byte} :
    bmpValid (unsigned bw) (unsigned bh) (unsigned depth) bytes = true ↔
      depth = 1 ∧ (bw.toNat + 7) / 8 * bh.toNat ≤ bytes.length :=
  bmpValid_iff.trans (and_congr_left' (BitVec.toNat_inj (y := 1)))

/-- The colour of a bitmap pixel, with POL as a test (R198). -/
theorem bmpColour_eq (bw : Nat) (pol : Polarity) (bytes : List Byte) (i j : Nat) :
    bmpColour bw pol bytes i j =
      if (((bytes.getD (j * ((bw + 7) / 8) + i / 8) 0).getLsbD (7 - i % 8)).xor (decide (pol = .inverted))) = true
        then .black else .white := by
  cases pol <;> rfl

/-- The points of a bitmap's rectangle, each of its rows a shifted run of columns, differ (R199). -/
theorem nodup_bmpPoints (x y : Int) (bw bh : Nat) (pol : Polarity) (bytes : List Byte) :
    ((bmpPoints x y bw bh pol bytes).map Prod.fst).Nodup := by
  simp only [bmpPoints, List.map_flatMap, List.map_map]
  refine List.nodup_flatMap.2 ⟨fun j _ => ?_, ?_⟩
  · refine List.nodup_range.map fun i i' h => ?_
    simpa using h
  · refine List.nodup_range.imp fun {j j'} hne p hp hp' => hne ?_
    obtain ⟨i, -, rfl⟩ := List.mem_map.1 hp
    obtain ⟨i', -, h⟩ := List.mem_map.1 hp'
    have hy : y + (j' : Int) = y + j := congrArg Point.y h
    omega

/-- What a bitmap that passes validation paints (R198). -/
theorem exec_drawBmp_paints {x y bw bh depth : Word} {pol : Polarity} {bytes : List Byte} {s : State}
    (hwf : Memory.wf s.fb) (hdepth : depth = 1) (hbytes : (bw.toNat + 7) / 8 * bh.toNat ≤ bytes.length) :
    RunsWhenAwake s (exec (.drawBmp x y bw bh depth pol bytes) s) fun r => ∃ t, r = .next t ∧
      Paints s t fun lx ly c => ∃ i j : Nat, i < bw.toNat ∧ j < bh.toNat ∧ lx = x.toInt + i ∧ ly = y.toInt + j ∧
        c = bmpColour bw.toNat pol bytes i j := by
  rw [exec_drawBmp]
  refine runsWhenAwake_gated fun _ => ?_
  rw [if_pos (bmpValid_words_iff.2 ⟨hdepth, hbytes⟩)]
  exact ⟨_, rfl, paints_plotAll hwf (fun lx ly _ => (mem_bmpPoints (p := ⟨lx, ly⟩)).symm) fun _ _ _ => bmpPoints_unique⟩

/-- Settles O46: `nodup_bmpPoints`; one colour for each point, so that any order of the calls leaves the same FB; and
`decode_drawBmp` with `exec_drawBmp_paints`. -/
theorem drawBmpPaintsBitmap : Obligations.DrawBmpPaintsBitmap := by
  refine ⟨fun x y bw bh pol bytes => ⟨nodup_bmpPoints x y bw bh pol bytes, fun o fb calls hwf hperm => ?_⟩, ?_⟩
  · exact (plotAll_ext_of_unique hwf o (fun _ _ _ => bmpPoints_unique) fun _ => hperm.mem_iff.symm).symm
  · rintro x y bw bh depth polw len pol area bytes s hwf harea hsize rfl hpol
    have hword : polw = pol.word := by rw [hpol]; cases pol <;> rfl
    refine ⟨hword ▸ step_sendFirst (decode_drawBmp x y bw bh depth pol hsize harea), fun hdepth hbytes => ?_⟩
    simp only [← bmpColour_eq]
    exact exec_drawBmp_paints hwf hdepth hbytes

/-- Settles O47: the operands fail `bmpValid_words_iff`. -/
theorem drawBmpUnsupported : Obligations.DrawBmpUnsupported := by
  intro x y bw bh depth pol bytes s hbad
  have hinvalid : ¬ bmpValid (unsigned bw) (unsigned bh) (unsigned depth) bytes = true := by
    rw [bmpValid_words_iff, not_and_or, not_le]
    exact hbad
  rw [exec_drawBmp]
  refine runsWhenAwake_gated fun _ => ?_
  rw [if_neg hinvalid]
  rfl

end Sys2Proof.Machine
end

section
/-! 44_panel_protocol.md: GET_STATUS (R238), PSTATE over packets and panel sequences (R230), the busy wait (R218), what each
panel operation sends (R232 to R237), that each ends, and the pieces of a data message (R213). -/

namespace Sys2Proof.Machine

/-! ### GET_STATUS -/

/-- The bit fields of the register word (R238). -/
theorem registerWord_fields (debug : Bool) (o : Orientation) (p : PState) :
    (registerWord debug o p).extractLsb' 0 2 = p.value ∧ (registerWord debug o p).extractLsb' 2 2 = o.index ∧
      (registerWord debug o p).getLsbD 4 = debug ∧ (registerWord debug o p).extractLsb' 5 27 = 0 := by
  unfold registerWord
  refine ⟨BitVec.extractLsb'_append_eq_right, ?_, ?_, ?_⟩
  · rw [BitVec.extractLsb'_append_eq_of_le (by decide)]
    exact BitVec.extractLsb'_append_eq_right
  · simp only [BitVec.getLsbD_append]
    simp
  · rw [BitVec.extractLsb'_append_eq_of_le (by decide), BitVec.extractLsb'_append_eq_of_le (by decide)]
    exact BitVec.extractLsb'_append_eq_left

theorem PState.value_ne_two {p : PState} (h : p ≠ .busy) : p.value ≠ 2 := by
  cases p with
  | busy => exact absurd rfl h
  | uninitialized | awake | asleep => decide

/-- Settles O13: the one result word, read by `registerWord_fields`. -/
theorem getStatusReadsRegisters : Obligations.GetStatusReadsRegisters := by
  intro s
  obtain ⟨hpstate, horient, hdebug, hzero⟩ := registerWord_fields s.debug s.orient s.pstate
  refine ⟨step_encoded (i := .getStatus) rfl rfl (by decide : 1 ≤ 8) s, _, exec_getStatus s, hpstate.trans ?_,
    horient.trans ?_, hdebug, hzero, fun hp => hpstate ▸ PState.value_ne_two hp⟩
  · cases s.pstate <;> rfl
  · cases s.orient <;> rfl

/-! ### PSTATE -/

/-- PSTATE after a panel operation, by the status of its response (R230). -/
theorem exec_pstate_panel {i : Instr} {s t : State} {r : Response} {final : PState} (h : exec i s = .next t)
    (hlast : t.responses.getLast? = some r) (hfinal : panelFinal i = some final) :
    (r.status = 0 ∨ r.status = 3 → isGated i = true → s.pstate = .awake) ∧ (r.status = 0 → t.pstate = final) ∧
      (r.status = 3 → t.pstate = .uninitialized) ∧ (r.status ≠ 0 → r.status ≠ 3 → t.pstate = s.pstate) := by
  obtain ⟨r', hresp, -, -, -, -, hcase⟩ := exec_response h
  obtain rfl : r' = r := by simpa [hresp] using hlast
  rcases hcase with ⟨-, -, rfl, rfl⟩ | ⟨-, -, rfl, rfl⟩ | ⟨-, hnone, -⟩ | ⟨-, hnone, -⟩ |
    ⟨hpass, final', hfinal', -, ⟨hr, hend⟩ | ⟨hr, hend⟩, -⟩
  · simp
  · simp
  · cases hnone.symm.trans hfinal
  · cases hnone.symm.trans hfinal
  · cases hfinal'.symm.trans hfinal
    simpa [hr, hend] using hpass
  · simpa [hr, hend] using hpass

/-- Any other operation leaves PSTATE unchanged (R230). -/
theorem exec_pstate_other {i : Instr} {s t : State} (h : exec i s = .next t) (hnone : panelFinal i = none) :
    t.pstate = s.pstate := by
  obtain ⟨r, -, -, -, -, -, hcase⟩ := exec_response h
  rcases hcase with ⟨-, -, -, rfl⟩ | ⟨-, -, -, rfl⟩ | ⟨-, -, -, -, rfl⟩ | ⟨-, -, -, -, hp, -⟩ | ⟨-, _, hfinal, -⟩
  · rfl
  · rfl
  · rfl
  · exact hp
  · cases hnone.symm.trans hfinal

/-- A piece of a sequence that ends, done or by timeout, in a state with the PSTATE it began with. -/
theorem PanelFrame.pstate_of_end {s u : State} {p : Progress} (h : PanelFrame s p.state)
    (hend : p = .done u ∨ p = .timedOut u) : u.pstate = s.pstate := by
  rcases hend with rfl | rfl
  · exact h.pstate
  · exact h.pstate

/-- Settles O14: PSTATE after the execution of a packet that decodes, and at the end of each sequence's body, which begins
in Busy. -/
theorem pStateChangesAsTabled : Obligations.PStateChangesAsTabled := by
  refine ⟨fun s pkt rest t r hp h hlast => ?_, fun s u => ⟨?_, ?_, ?_⟩⟩
  · rcases step_cases hp h with ⟨e, hd, rfl⟩ | ⟨i, hd, hexec⟩
    · simp [hd]
    · refine ⟨fun i' final hi hfinal => ?_, fun i' hi hnone => ?_, fun e he => ?_⟩
      · cases hd.symm.trans hi
        exact (exec_pstate_panel hexec hlast hfinal :)
      · cases hd.symm.trans hi
        exact (exec_pstate_other hexec hnone :)
      · cases hd.symm.trans he
  · exact (panelFrame_initBody s).pstate_of_end
  · exact (panelFrame_displayBody s).pstate_of_end
  · exact (panelFrame_runScript s.cfg.sleepSeq (enterBusy s)).pstate_of_end

/-! ### The busy wait -/

/-- Settles O48: the laws of `waitPolls` at P_BUSY_MAX_POLLS polls. -/
theorem waitIdlePolls : Obligations.WaitIdlePolls := fun s =>
  ⟨fun k hk => waitPolls_idle s.cfg.busyMaxPolls k s hk, waitPolls_busy s.cfg.busyMaxPolls s,
    wait_cases s.cfg.busyMaxPolls s⟩

/-! ### What each panel operation sends -/

/-- Settles O49: the sequence of INIT is P_INIT_SEQ after one reset pulse. -/
theorem initRunsInitSequence : Obligations.InitRunsInitSequence := fun s =>
  ⟨step_encoded (i := .init) rfl rfl (by decide : 1 ≤ 8) s, runsPanelScript_close [.reset] s.fb s.cfg.initSeq .awake _ rfl⟩

/-- Settles O54: the sequence of RESET_DISPLAY is P_INIT_SEQ after two reset pulses. -/
theorem resetDisplayRunsTwoPulses : Obligations.ResetDisplayRunsTwoPulses := fun s =>
  ⟨step_encoded (i := .resetDisplay) rfl rfl (by decide : 1 ≤ 8) s,
    runsPanelScript_close [.reset, .reset] s.fb s.cfg.initSeq .awake (emit .reset (enterBusy (emit .reset (enterBusy s))))
      (by simp [emit, enterBusy])⟩

/-- Settles O53: the gate before P_SLEEP_SEQ. -/
theorem sleepRunsSleepSequence : Obligations.SleepRunsSleepSequence := fun s =>
  ⟨step_encoded (i := .sleep) rfl rfl (by decide : 1 ≤ 8) s, exec_sleep s ▸ runsWhenAwake_gated fun _ =>
    runsPanelScript_close [] s.fb s.cfg.sleepSeq .asleep _ (by simp [enterBusy])⟩

/-- DisplayBody with the frame buffer `fb` sends P_DISP_PRE, the frame transfer of `fb` and P_DISP_POST (R233). -/
theorem runsPanelScript_display (s : State) (fb : Memory) :
    RunsPanelScript s (.next (closeSequence .awake (displayBody { s with fb := fb }))) [] fb
      (s.cfg.dispPre ++ [.cmd s.cfg.dtmCmd, .data (rawBytes fb)] ++ s.cfg.dispPost) .awake := by
  rw [displayBody_eq]
  exact runsPanelScript_close [] fb _ .awake _ (by simp [enterBusy])

/-- Settles O50: the gate before DisplayBody with FB as it stands. -/
theorem displaySendsFrame : Obligations.DisplaySendsFrame := fun s =>
  ⟨step_encoded (i := .display) rfl rfl (by decide : 1 ≤ 8) s, exec_display s ▸ runsWhenAwake_gated fun _ =>
    runsPanelScript_display s s.fb⟩

/-- A fill, then the display of it: the data message is the filled value 5,808 times (R234, R235). -/
theorem runsPanelScript_fillAndDisplay (c : Color) (s : State) :
    ∃ fb, Memory.wf fb ∧ (∀ a < 5808, fb.read a = if c = .black then 0xFF else 0x00) ∧
      RunsPanelScript s (.next (closeSequence .awake (displayBody (fillFB c s)))) [] fb
        (s.cfg.dispPre ++ [.cmd s.cfg.dtmCmd, .data (List.replicate 5808 (if c = .black then 0xFF else 0x00))] ++
          s.cfg.dispPost) .awake := by
  refine ⟨(fillFB c s).fb, wf_fillFB c s, fun _ => read_fillFB c s, ?_⟩
  have hraw : rawBytes (fillFB c s).fb = List.replicate 5808 (if c = .black then 0xFF else 0x00) := by
    rw [fillFB_fb, Memory.rawBytes_fill, colourBit_eq_decide]
    simp only [decide_eq_true_eq, fbBytes]
  exact hraw ▸ runsPanelScript_display s (fillFB c s).fb

/-- Settles O51: the gate before the fill with WHITE and the display of it. -/
theorem clearFillsAndDisplays : Obligations.ClearFillsAndDisplays := fun s =>
  ⟨step_encoded (i := .clear) rfl rfl (by decide : 1 ≤ 8) s, exec_clear s ▸ runsWhenAwake_gated fun _ =>
    runsPanelScript_fillAndDisplay .white s⟩

/-- Settles O52: the gate before the fill with BLACK and the display of it. -/
theorem fillBlackFillsAndDisplays : Obligations.FillBlackFillsAndDisplays := fun s =>
  ⟨step_encoded (i := .fillBlack) rfl rfl (by decide : 1 ≤ 8) s, exec_fillBlack s ▸ runsWhenAwake_gated fun _ =>
    runsPanelScript_fillAndDisplay .black s⟩

/-! ### Every panel operation ends -/

/-- What an operation that runs a panel script answers, whatever the panel answers: the script's end, or a timeout whose
polls stand last among its events (R218, R258). -/
theorem RunsPanelScript.ends {s : State} {r : Result} {lead : List PanelEvent} {fb : Memory} {script : List PanelStep}
    {final : PState} (h : RunsPanelScript s r lead fb script final) : ∃ n evs,
      r = .next (afterOperation n evs fb final 0 s) ∨
        (r = .next (afterOperation n evs fb .uninitialized 3 s) ∧
          List.replicate s.cfg.busyMaxPolls (.poll true) <:+ evs) := by
  obtain ⟨hdone, htimeout⟩ := h
  rcases script_cases script s with ⟨ks, hlen, hks, hans⟩ | ⟨before, after, ks, hsplit, hlen, hks, hans⟩
  · exact ⟨_, _, .inl (hdone ks hlen hks hans)⟩
  · exact ⟨_, _, .inr ⟨htimeout before after ks hsplit hlen hks hans, List.suffix_append _ _⟩⟩

theorem RunsWhenAwake.run {s : State} {r : Result} {run : Result → Prop} (h : RunsWhenAwake s r run)
    (hawake : s.pstate = .awake) : run r := by
  obtain ⟨-, -, hrun⟩ := h
  exact hrun hawake

/-- Every panel operation that passes the gate runs a panel script (R232 to R237). -/
theorem exec_runsPanelScript {i : Instr} {final : PState} {s : State} (hfinal : panelFinal i = some final)
    (hpass : isGated i = true → s.pstate = .awake) :
    ∃ lead fb script, RunsPanelScript s (exec i s) lead fb script final := by
  cases i with
  | init => cases hfinal; exact ⟨_, _, _, (initRunsInitSequence s).2⟩
  | resetDisplay => cases hfinal; exact ⟨_, _, _, (resetDisplayRunsTwoPulses s).2⟩
  | display => cases hfinal; exact ⟨_, _, _, (displaySendsFrame s).2.run (hpass rfl)⟩
  | sleep => cases hfinal; exact ⟨_, _, _, (sleepRunsSleepSequence s).2.run (hpass rfl)⟩
  | clear =>
    cases hfinal
    obtain ⟨fb, -, -, hruns⟩ := (clearFillsAndDisplays s).2.run (hpass rfl)
    exact ⟨_, fb, _, hruns⟩
  | fillBlack =>
    cases hfinal
    obtain ⟨fb, -, -, hruns⟩ := (fillBlackFillsAndDisplays s).2.run (hpass rfl)
    exact ⟨_, fb, _, hruns⟩
  | getStatus | fbFill | fbSetpx | fbGetpx | fbRead | setOrient | getDims | map | unmap | pixel | hline | vline | line
  | rect | fillRect | circle | text | drawBmp => cases hfinal

/-- Settles O55: the script of `exec_runsPanelScript` ends. -/
theorem panelOperationsEnd : Obligations.PanelOperationsEnd := by
  intro i final s hfinal hpass
  obtain ⟨lead, fb, script, hruns⟩ := exec_runsPanelScript hfinal hpass
  obtain ⟨n, evs, hexec | ⟨hexec, hpolls⟩⟩ := hruns.ends
  · exact ⟨_, evs, 0, hexec, rfl, rfl, rfl, rfl, rfl, rfl, .inl ⟨rfl, rfl⟩⟩
  · exact ⟨_, evs, 3, hexec, rfl, rfl, rfl, rfl, rfl, rfl, .inr ⟨rfl, rfl, hpolls⟩⟩

/-! ### The pieces of a data message -/

/-- Piece `k` of a message (R213). -/
def chunkAt (bs : List Byte) (k : Nat) : List Byte := (bs.drop (64 * k)).take 64

theorem chunks_eq_map_chunkAt (bs : List Byte) : chunks bs = (List.range ((bs.length + 63) / 64)).map (chunkAt bs) := rfl

@[simp] theorem length_chunks (bs : List Byte) : (chunks bs).length = (bs.length + 63) / 64 := by
  simp [chunks_eq_map_chunkAt]

@[simp] theorem length_chunkAt (bs : List Byte) (k : Nat) : (chunkAt bs k).length = min 64 (bs.length - 64 * k) := by
  simp [chunkAt]

@[simp] theorem flatten_chunks (bs : List Byte) : (chunks bs).flatten = bs :=
  (flatten_pieces bs ((bs.length + 63) / 64)).trans (List.take_of_length_le (by omega))

/-- The last piece of a message that is not empty, after those before it. -/
theorem chunks_eq_append {bs : List Byte} (h : bs ≠ []) :
    chunks bs = (List.range ((bs.length - 1) / 64)).map (chunkAt bs) ++ [chunkAt bs ((bs.length - 1) / 64)] := by
  have hpos := List.length_pos_of_ne_nil h
  have hcount : (bs.length + 63) / 64 = (bs.length - 1) / 64 + 1 := by omega
  rw [chunks_eq_map_chunkAt, hcount, List.range_succ, List.map_append, List.map_singleton]

/-- Settles O56: the pieces before the last are full, and the last holds the 1 to 64 bytes that remain. -/
theorem dataMessagesAreChunked : Obligations.DataMessagesAreChunked := by
  intro bs h
  have hpos := List.length_pos_of_ne_nil h
  refine ⟨chunks bs, rfl, flatten_chunks bs, length_chunks bs, fun piece hpiece => ?_, fun piece hpiece => ?_⟩
  · rw [chunks_eq_append h, List.dropLast_concat] at hpiece
    obtain ⟨k, hk, rfl⟩ := List.mem_map.1 hpiece
    have hk' := List.mem_range.1 hk
    rw [length_chunkAt]
    omega
  · rw [chunks_eq_append h, List.getLast?_concat] at hpiece
    obtain rfl : chunkAt bs ((bs.length - 1) / 64) = piece := by simpa using hpiece
    rw [length_chunkAt]
    omega

end Sys2Proof.Machine
end

section
/-! 44_panel_protocol.md R240: the image the panel shows after a DISPLAY, CLEAR or FILL_BLACK that ended with OK, and after any
other step. -/

namespace Sys2Proof.Machine

/-! ### The shown bytes after a step -/

theorem fetch_instr {s : State} {pkt : Packet} {rest : List Packet} {i : Instr} (hp : s.packets = pkt :: rest)
    (hd : decode s.cfg.maxPktWords pkt = .ok i) : fetch s = .instr i { s with packets := rest } := by
  simp [fetch, hp, hd]

/-- An instruction is fetched only from a packet at the head of the stream that decodes to it (10_state.md R22). -/
theorem packet_of_fetch_instr {s s' : State} {i : Instr} (h : fetch s = .instr i s') :
    ∃ pkt rest, s.packets = pkt :: rest ∧ decode s.cfg.maxPktWords pkt = .ok i := by
  unfold fetch at h
  split at h
  next => cases h
  next pkt rest hp =>
    split at h
    next j hd => cases h; exact ⟨pkt, rest, hp, hd⟩
    next => cases h

theorem isDisplayClass_iff {i : Instr} : isDisplayClass i = true ↔ i = .display ∨ i = .clear ∨ i = .fillBlack := by
  cases i <;> simp [isDisplayClass]

/-- A display operation that ended with OK shows the data message its frame transfer put into PT. -/
theorem shownAfter_of_frame {shown : Option (List Byte)} {s s' t : State} {i : Instr} {k : Nat} {bytes : List Byte}
    (hfetch : fetch s = .instr i s') (hstep : step s = .next t) (hi : isDisplayClass i = true)
    (hok : lastStatus t = some 0) (hframe : frameAt s' = some k) (hdata : dataAt t.trace k = some bytes) :
    shownAfter shown s = some bytes := by
  have hcode : statusWord okCode = 0 := rfl
  simp [shownAfter, hfetch, hstep, hi, hok, hcode, hframe, hdata]

/-- A step that is no display operation ending with OK leaves the shown bytes. -/
theorem shownAfter_unchanged {s t : State} (shown : Option (List Byte)) (hstep : step s = .next t)
    (hno : ∀ i s', fetch s = .instr i s' → isDisplayClass i = true → lastStatus t ≠ some 0) :
    shownAfter shown s = shown := by
  have hcode : statusWord okCode = 0 := rfl
  cases hfetch : fetch s with
  | idle => simp [shownAfter, hfetch]
  | undecodable e s' => simp [shownAfter, hfetch]
  | instr i s' =>
    by_cases hi : isDisplayClass i = true
    · have hbad : lastStatus t ≠ some 0#32 := hno i s' hfetch hi
      simp [shownAfter, hfetch, hstep, hi, hcode, hbad]
    · simp [shownAfter, hfetch, hstep, hi]

theorem dataAt_append (before after : List PanelEvent) (ev : PanelEvent) (bytes : List Byte) :
    dataAt (before ++ [ev, .data bytes] ++ after) (before.length + 1) = some bytes := by
  simp [dataAt]

/-! ### The frame a display operation sends -/

/-- The frame buffer a display operation transfers: FB as it stands, or the fill of CLEAR and FILL_BLACK. -/
def frameOf (i : Instr) (s : State) : Memory :=
  match i with
  | .clear => (fillFB .white s).fb
  | .fillBlack => (fillFB .black s).fb
  | _ => s.fb

theorem frameOf_display (s : State) : frameOf .display s = s.fb := rfl

theorem frameOf_clear (s : State) : frameOf .clear s = (fillFB .white s).fb := rfl

theorem frameOf_fillBlack (s : State) : frameOf .fillBlack s = (fillFB .black s).fb := rfl

theorem withFb_fillFB (c : Color) (s : State) : { s with fb := (fillFB c s).fb } = fillFB c s := rfl

/-- The three display operations are the gate before DisplayBody with the frame each transfers. -/
theorem exec_isDisplayClass {i : Instr} (hi : isDisplayClass i = true) (s : State) :
    exec i s = gated s fun s => .next (closeSequence .awake (displayBody { s with fb := frameOf i s })) := by
  rcases isDisplayClass_iff.1 hi with rfl | rfl | rfl
  · exact exec_display s
  · simp only [frameOf_clear, withFb_fillFB, exec_clear]
  · simp only [frameOf_fillBlack, withFb_fillFB, exec_fillBlack]

@[simp] theorem lastStatus_answered (s : State) (status : Word) (results : List Word) :
    lastStatus (answered s status results) = some status := by
  simp [lastStatus]

/-- The end of a panel sequence is OK only if its body was done. -/
theorem done_of_closeSequence_ok {final : PState} {p : Progress} (h : lastStatus (closeSequence final p) = some 0) :
    ∃ u, p = .done u := by
  cases p with
  | done u => exact ⟨u, rfl⟩
  | timedOut u => exact absurd h (by simp [closeSequence, raise_eq, statusWord, Error.code])

/-- A display operation that ends with OK has run DisplayBody to its end. -/
theorem displayBody_of_exec_ok {i : Instr} {s t : State} (hi : isDisplayClass i = true) (h : exec i s = .next t)
    (hok : lastStatus t = some 0) :
    ∃ u, displayBody { s with fb := frameOf i s } = .done u ∧ t.trace = u.trace := by
  rw [exec_isDisplayClass hi] at h
  rcases gated_cases h with ⟨-, rfl⟩ | ⟨-, rfl⟩ | ⟨-, hclose⟩
  · simp at hok
  · simp at hok
  · cases hclose
    obtain ⟨u, hu⟩ := done_of_closeSequence_ok hok
    exact ⟨u, hu, by rw [hu]; rfl⟩

/-- What a display operation that ends with OK has put into PT, and where its data message stands (R224, R233). -/
theorem trace_of_display_ok {i : Instr} {s t : State} (hi : isDisplayClass i = true) (h : exec i s = .next t)
    (hok : lastStatus t = some 0) :
    ∃ ks ks' : List Nat, ks.length = waitCount s.cfg.dispPre ∧ ks'.length = waitCount s.cfg.dispPost ∧
      t.trace = s.trace ++ scriptEvents s.cfg.dispPre ks ++ [.cmd s.cfg.dtmCmd, .data (rawBytes (frameOf i s))] ++
        scriptEvents s.cfg.dispPost ks' ∧
      frameAt s = some ((s.trace ++ scriptEvents s.cfg.dispPre ks).length + 1) := by
  obtain ⟨u, hbody, htrace⟩ := displayBody_of_exec_ok hi h hok
  obtain ⟨v, ks, ks', hpre, hks, hks', -, hv, hu⟩ := trace_of_displayBody_done hbody
  obtain ⟨v', hpre', hv'⟩ := trace_of_runScript_congr (s := enterBusy { s with fb := frameOf i s }) (s' := enterBusy s)
    rfl rfl rfl rfl hpre
  refine ⟨ks, ks', hks, hks', htrace.trans hu, ?_⟩
  have hframe : frameAt s = some (v'.trace.length + 1) := by
    unfold frameAt
    rw [hpre']
  rw [hframe, hv', hv]

/-! ### The shown pixels -/

/-- The raw bytes of a frame buffer show its pixels (R240, 20_memory.md R51, R53). -/
theorem shownPixel_rawBytes (fb : Memory) (p : Point) : shownPixel (rawBytes fb) p = getPhys fb p := by
  by_cases hp : onPanel p
  · have hbyte : (rawBytes fb).getD (byteIndex p) 0 = fb.read (byteIndex p) := by
      rw [List.getD_eq_getElem _ _ ((Memory.length_rawBytes fb).symm ▸ byteIndex_lt hp), Memory.getElem_rawBytes]
    rw [shownPixel, getPhys, if_pos hp, if_pos hp, hbyte]
  · rw [shownPixel, getPhys, if_neg hp, if_neg hp]

/-- The pixels of the frame a display operation transfers. -/
theorem getPhys_frameOf {i : Instr} (hi : isDisplayClass i = true) (s : State) {p : Point} (hp : onPanel p) :
    getPhys (frameOf i s) p =
      if i = .clear then .white else if i = .fillBlack then .black else getPhys s.fb p := by
  rcases isDisplayClass_iff.1 hi with rfl | rfl | rfl
  · simp [frameOf_display]
  · rw [frameOf_clear, getPhys_fillFB, if_pos hp]
    rfl
  · rw [frameOf_fillBlack, getPhys_fillFB, if_pos hp]
    rfl

/-- Settles O57: the data message of `trace_of_display_ok` is the one `shownAfter` reads; any other step is one of
`shownAfter_unchanged`. -/
theorem displayShowsFrameBuffer : Obligations.DisplayShowsFrameBuffer := by
  refine ⟨fun s t pkt rest i shown hp hd hi hstep hok => ?_, fun s t shown hstep hno => ?_⟩
  · have hclass := isDisplayClass_iff.2 hi
    have hfetch := fetch_instr hp hd
    obtain ⟨ks, ks', hks, hks', htrace, hframe⟩ :=
      trace_of_display_ok hclass ((step_instr hp hd).symm.trans hstep) hok
    refine ⟨ks, ks', rawBytes (frameOf i s), hks, hks', Memory.length_rawBytes _, htrace, ?_, ?_⟩
    · exact shownAfter_of_frame hfetch hstep hclass hok hframe (htrace ▸ dataAt_append _ _ _ _)
    · intro px py hx hx' hy hy'
      rw [shownPixel_rawBytes, getPhys_frameOf hclass s ⟨hx, hx', hy, hy'⟩]
  · refine shownAfter_unchanged shown hstep fun i s' hfetch hclass => ?_
    obtain ⟨pkt, rest, hp, hd⟩ := packet_of_fetch_instr hfetch
    rcases hno with hother | hbad
    · obtain ⟨hdisplay, hclear, hblack⟩ := hother pkt rest i hp hd
      simp [isDisplayClass_iff, hdisplay, hclear, hblack] at hclass
    · exact hbad

end Sys2Proof.Machine
end

section
/-! 60_exceptions.md R256: the errors of Decode, the gate and Validate have no effect but their response. -/

namespace Sys2Proof.Machine

/-- An execution that responds neither OK nor HardwareTimeout was refused by the gate or by Validate, and it leaves the
state as it was with its response added. -/
theorem exec_refused {i : Instr} {s t : State} {r : Response} (h : exec i s = .next t)
    (hlast : t.responses.getLast? = some r) (hok : r.status ≠ 0) (htimeout : r.status ≠ 3) :
    t = answered s r.status [] := by
  obtain ⟨r', hresp, -, -, -, -, hcase⟩ := exec_response h
  obtain rfl : r' = r := by simpa [hresp] using hlast
  rcases hcase with ⟨-, -, rfl, ht⟩ | ⟨-, -, rfl, ht⟩ | ⟨-, -, -, rfl, ht⟩ | ⟨-, -, h0, -⟩ |
    ⟨-, _, -, -, ⟨h0, -⟩ | ⟨h3, -⟩, -⟩
  · exact ht
  · exact ht
  · exact ht
  · exact absurd h0 hok
  · exact absurd h0 hok
  · exact absurd h3 htimeout

/-- Settles O9: a packet that does not decode is answered by its error alone, and an execution that answers with one of the
other codes was refused. -/
theorem preciseErrorsOnlyRespond : Obligations.PreciseErrorsOnlyRespond := by
  intro s pkt rest t r hp h hlast hcode
  rcases step_cases hp h with ⟨e, -, rfl⟩ | ⟨i, -, hexec⟩
  · obtain rfl : ⟨statusWord (errorOfDecode e).code, []⟩ = r := by simpa [answered] using hlast
    rfl
  · obtain ⟨hok, htimeout⟩ : r.status ≠ 0 ∧ r.status ≠ 3 := by
      rcases hcode with hr | hr | hr | hr | hr <;> simp [hr]
    exact exec_refused hexec hlast hok htimeout

end Sys2Proof.Machine
end

section
/-! 70_reset_and_hazards.md: the state after reset (R280), the invariant there, and that every packet ends (R295). -/

namespace Sys2Proof.Machine

/-! ### Every packet ends -/

/-- Outside Busy a step answers a next state: the gate, which alone can stop, sees the PSTATE the packet was taken in. -/
theorem step_answers {s : State} (hs : s.pstate ≠ .busy) : ∃ t, step s = .next t := by
  cases hp : s.packets with
  | nil => exact ⟨s, step_empty hp⟩
  | cons pkt rest =>
    cases hd : decode s.cfg.maxPktWords pkt with
    | error e => exact ⟨_, step_undecodable hp hd⟩
    | ok i =>
      obtain ⟨t, ht⟩ := exec_answers i { s with packets := rest } fun _ => hs
      exact ⟨t, (step_instr hp hd).trans ht⟩

/-- Settles O60: the invariant keeps PSTATE out of Busy, the one state in which a step can stop. -/
theorem everyPacketEnds : Obligations.EveryPacketEnds := fun _ hs => step_answers hs.notBusy

/-! ### Reset -/

/-- Settles O12: FB after reset is the fill with the byte of P_INIT_FILL, which `Memory.read_fill` reads back; the default
configuration is `Config.atReset`. -/
theorem resetState : Obligations.ResetState := by
  refine ⟨fun cfg => ⟨fun a ha => ?_, rfl, rfl, rfl, rfl, rfl, rfl⟩, Config.atReset, rfl, rfl, rfl⟩
  rw [resetWith_fb, Memory.read_fill _ ha]

/-- A reset FB is a fill, so in canonical form; the rest of the invariant is the reset value of each register. -/
theorem inv_resetWith (cfg : Config) : Inv (State.resetWith cfg) where
  memory := by rw [resetWith_fb]; exact Memory.wf_fill _
  notBusy := nofun
  debugConst := rfl
  responsesWf := nofun

/-- Settles O59: the reset state is that of the configuration `Config.atReset`. -/
theorem resetHasInv : Obligations.ResetHasInv := ⟨inv_resetWith Config.atReset, inv_resetWith⟩

end Sys2Proof.Machine
end
